-- ==== Sys2Proof/Word.lean ====
section
/-! DEFINITION. The words of the block: bytes and 16-bit MFM words (00_scope.md R14). Every other number of
the spec is a natural number of unbounded range, so it is a `Nat` here. -/

namespace Sys2Proof

/-- A byte: bit 7 is the most significant (R14). -/
abbrev Byte := BitVec 8

/-- The 16-bit word one data byte encodes to (R121). -/
abbrev MfmWord := BitVec 16

end Sys2Proof
end

