-- ==== Sys2Proof/Config.lean ====
section
/-! DEFINITION. The launch configuration: the parameters of 00_scope.md R9, R11 and R12, as plain data. They are
constant during a run (10_state.md R63 (a)). The model holds them in the state, so a statement about every
state holds for every configuration (notes/assumptions/1.md). A parameter that the spec types as a function is
held as a finite table: its arguments are packet fields, so every such function is one of these tables
(notes/assumptions/2.md). How a table is read stands in Machine/Params.lean. -/

namespace Sys2Proof

/-- Disk and drive diameter, 3.5 or 5.25 inch (10_state.md R23). -/
inductive Diameter where
  | inch35
  | inch525
  deriving DecidableEq, Repr

/-- Recording density (10_state.md R23). -/
inductive Density where
  | dd
  | hd
  deriving DecidableEq, Repr

/-- The two admissible widths of the checksum (00_scope.md R12 `HASH_W`). Any other width is refused at launch
(93 U3); here it cannot be written down. -/
inductive HashWidth where
  | w32
  | w64
  deriving DecidableEq, Repr

/-- A hard-disk geometry descriptor (10_state.md R51). -/
structure HdGeometry where
  cylinders : Nat
  heads : Nat
  sectors : Nat
  bsize : Nat
  deriving DecidableEq, Repr

/-- One entry of the `FILL` table: `FILL(track, offset) = value` (00_scope.md R12). -/
structure FillEntry where
  track : Nat
  offset : Nat
  value : Byte
  deriving DecidableEq, Repr

/-- A stretch of host memory (00_scope.md R12 `HOST_MEM_VALID`). -/
structure Region where
  base : Nat
  size : Nat
  deriving DecidableEq, Repr

/-- The host memory map: a range is valid when it lies inside one of `regions`, or is listed in `ranges` as
(address, length). -/
structure HostMap where
  regions : List Region
  ranges : List (Nat × Nat)
  deriving DecidableEq, Repr

/-- One entry of the `EMPTY_FS` table: the empty image of a file system for one name and geometry. -/
structure FsImage where
  fsType : Nat
  name : List Byte
  geometry : HdGeometry
  image : List Byte
  deriving DecidableEq, Repr

/-- The parameters of one implementation (00_scope.md R9, R11, R12). -/
structure Config where
  /-- `RAMP_UP`: cycles from motor-on to 100 % (R11). -/
  rampUp : Nat
  /-- `RAMP_DOWN`: cycles from motor-off to 0 % (R11). -/
  rampDown : Nat
  /-- `STEP_DELAY`: minimum cycles between two accepted step pulses (R11). -/
  stepDelay : Nat
  /-- `HD_SETTLE`: cycles the hard disk stays Reading or Writing (R11). -/
  hdSettle : Nat
  /-- `SECTOR_STRIDE` (R9). -/
  sectorStride : Nat
  /-- The value of `FILL` where `fillTable` has no entry. -/
  fillBase : Byte
  /-- `FILL` (R12, 92 D11). -/
  fillTable : List FillEntry
  /-- `MAGIC_SET` (R12, 92 D12). -/
  magicSet : List (Diameter × Density)
  magic0 : Byte
  magic1 : Byte
  /-- `HASH_W` (R12, 92 D13). -/
  hashWidth : HashWidth
  /-- `SYNC_HI`, `SYNC_LO` (R12, 92 D24). -/
  syncHi : Byte
  syncLo : Byte
  /-- `DRIVE_DIAMETER` (R12, 92 D22). -/
  driveDiameter : Diameter
  /-- `HIST_DEPTH` (R12, 92 D23). -/
  histDepth : Nat
  /-- `POLL_PATTERN` (R12, 92 D23): none is the default of 42_drive_mechanics.md R186; a table lists the
  histories that show the pattern. -/
  pollTable : Option (List (List Nat))
  /-- `HOST_MEM_VALID` (R12, 92 D31). -/
  hostMap : HostMap
  /-- `EMPTY_FS` (R12, 92 D33): `None` where the table has no entry. -/
  emptyFs : List FsImage
  /-- `CBM_NEXT[0]` .. `CBM_NEXT[3]` and `CBM_DIR_NEXT` (44_geometry.md R263). -/
  cbmNext0 : List Nat
  cbmNext1 : List Nat
  cbmNext2 : List Nat
  cbmNext3 : List Nat
  cbmDirNext : List Nat
  /-- `HD_GEOMETRY_OK` (R12, 92 D40): none is the default of 44_geometry.md R262; a table lists the supported
  geometries. -/
  geometryTable : Option (List HdGeometry)
  deriving DecidableEq, Repr

/-- The test configuration `T0` of 00_scope.md R13, with the default stride of R9, the default interleave
tables of 44_geometry.md R263 and the default geometry predicate of R262. `State.reset` launches with it
(DESIGN CHOICE, notes/assumptions/1.md): it binds nothing but the model's own tests. R13 says of `EMPTY_FS` only that
it is unused: the empty table is the model's value (DESIGN CHOICE, notes/assumptions/23.md), with which `HDD_FMT`
answers `E_BAD_OPERAND` for every file system but `NODOS`. The magic bytes, which R13's empty `MAGIC_SET` leaves
unused, are 0x00 (DESIGN CHOICE, notes/assumptions/1.md). -/
def Config.t0 : Config where
  rampUp := 1000
  rampDown := 500
  stepDelay := 100
  hdSettle := 50
  sectorStride := 1088
  fillBase := 0x00
  fillTable := []
  magicSet := []
  magic0 := 0x00
  magic1 := 0x00
  hashWidth := .w64
  syncHi := 0x44
  syncLo := 0x89
  driveDiameter := .inch35
  histDepth := 8
  pollTable := none
  hostMap := { regions := [{ base := 0, size := 0x10000 }], ranges := [] }
  emptyFs := []
  cbmNext0 := [10, 11, 12, 13, 14, 15, 16, 0, 1, 2, 3, 4, 5, 6, 7, 8, 9]
  cbmNext1 := [10, 11, 12, 13, 14, 15, 16, 17, 1, 0, 2, 3, 4, 5, 6, 7, 8, 9]
  cbmNext2 := [10, 11, 12, 13, 14, 15, 16, 17, 18, 0, 1, 2, 3, 4, 5, 6, 7, 8, 9]
  cbmNext3 := [10, 11, 12, 13, 14, 15, 16, 17, 18, 19, 20, 0, 1, 2, 3, 4, 5, 6, 7, 8, 9]
  cbmDirNext := [3, 4, 5, 6, 7, 8, 9, 10, 11, 12, 13, 14, 15, 16, 17, 18, 0, 1, 2]
  geometryTable := none

end Sys2Proof
end

