-- ==== Sys2Proof/Machine/State.lean ====
section
/-! DEFINITION. The state of the block (10_state.md), as plain data, and the machine right after reset. The
operations over it stand in Machine/Ops.lean. -/

namespace Sys2Proof.Machine

/-- Which Disk a `TRK_*` command addresses (10_state.md R23, 20_memory.md R72). -/
inductive Sel where
  | stage
  | drive
  deriving DecidableEq, Repr

/-- Direction of a step pulse: `down` towards cylinder 0 (10_state.md R23). -/
inductive Dir where
  | down
  | up
  deriving DecidableEq, Repr

/-- The state of the hard disk's request machine (10_state.md R56). -/
inductive HdState where
  | idle
  | reading
  | writing
  deriving DecidableEq, Repr

/-- Bytes by address, in one canonical form: addresses strictly rising, and no entry equal to what an unlisted
address reads as (`Memory.wf`). -/
structure Memory where
  cells : List Host.Cell
  deriving DecidableEq, Repr

/-- A Disk, one BitTrackStorage instance (10_state.md R30 to R34). `data` is the arena of `168 × trackLen` bytes;
an arena offset it does not list reads as the byte a cleared Disk has there (`Disk.cleared`). -/
structure Disk where
  diameter : Diameter
  density : Density
  trackLen : Nat
  data : Memory
  modified : Bool
  writeProtected : Bool
  deriving DecidableEq, Repr

/-- A drive head (10_state.md R41, R57). -/
structure DriveHead where
  cyl : Nat
  head : Nat
  offset : Nat
  deriving DecidableEq, Repr

/-- What a pending disk change does (10_state.md R48): `disk` is present exactly when the kind is Insert. -/
inductive Change where
  | insert (disk : Disk)
  | eject
  deriving DecidableEq, Repr

/-- The pending disk-change event (10_state.md R48). -/
structure Pending where
  change : Change
  dueAt : Nat
  deriving DecidableEq, Repr

/-- The floppy drive (10_state.md R40 to R48). -/
structure Fdd where
  disk : Option Disk
  head : DriveHead
  motorOn : Bool
  motorSwitchTs : Option Nat
  latestStepUp : Option Nat
  latestStepDown : Option Nat
  cylHistory : List Nat
  dskChange : Bool
  pending : Option Pending
  deriving DecidableEq, Repr

/-- One partition (10_state.md R52); the cylinder range is inclusive at both ends. -/
structure Partition where
  name : List Byte
  dosType : BitVec 32
  lowCylinder : Nat
  highCylinder : Nat
  bootable : Bool
  deriving DecidableEq, Repr

/-- One loadable driver (10_state.md R53). -/
structure Driver where
  name : List Byte
  blocks : List Nat
  deriving DecidableEq, Repr

/-- The linear block buffer (10_state.md R54): `len` bytes; an offset below `len` that `mem` does not list is 0. -/
structure Buffer where
  len : Nat
  mem : Memory
  deriving DecidableEq, Repr

/-- The hard disk (10_state.md R50 to R59). -/
structure HardDisk where
  geometry : HdGeometry
  ptable : List Partition
  drivers : List Driver
  buf : Buffer
  dirty : List Bool
  state : HdState
  head : DriveHead
  idleDue : Option Nat
  writeProtected : Bool
  modified : Bool
  deriving DecidableEq, Repr

/-- The error codes of 60_exceptions.md R301 (code 0, `E_OK`, is the code of an `Ok` result). -/
inductive ErrCode where
  | invalidLayout
  | geometryUnsupported
  | blockSize
  | badLength
  | badOffset
  | range
  | badMem
  | noDevice
  | geometryMismatch
  | partition
  | fileType
  | corrupted
  | unsupportedFeature
  | unknownCmd
  | incompatible
  | badOperand
  deriving DecidableEq, Repr

/-- The value of an `Ok` result, by the "result value" column of 30_encoding.md R105. -/
inductive Value where
  | none
  | bit (v : BitVec 1)
  | bool (v : Bool)
  | byte (v : Byte)
  | bytes (v : List Byte)
  | num (n : Nat)
  | optNum (n : Option Nat)
  | pair (x y : Nat)
  | triple (x y z : Nat)
  | quad (x y z w : Nat)
  deriving DecidableEq, Repr

/-- What a command returns (00_scope.md R16). -/
inductive CmdResult where
  | ok (v : Value)
  | err (e : ErrCode)
  deriving DecidableEq, Repr

/-- What the host does next (00_scope.md R6, 10_state.md R63 (e)): it sends a packet, or it writes a byte of its
own memory. -/
inductive HostEvent where
  | packet (bytes : List Byte)
  | memWrite (addr : Nat) (value : Byte)
  deriving DecidableEq, Repr

/-- The state. `inbox`, `ret` and `cfg` are the model's own fields: the host's events not yet taken, the result of
the last command, and the launch configuration (notes/assumptions/1.md, 3.md, 4.md). -/
structure State where
  now : Nat
  stage : Option Disk
  fdd : Fdd
  hd : Option HardDisk
  hostMem : Memory
  inbox : List HostEvent
  ret : Option CmdResult
  cfg : Config
  deriving DecidableEq, Repr

/-- Why the machine stops with a fault. Each is raised only in a state that no run reaches (10_state.md R61), where
the spec says that the access cannot arise; each is safe: the model stops (notes/assumptions/10.md). -/
inductive Fault where
  /-- The track under the head or the cursor is outside the inserted Disk's arena: `FDD_RD8R`, `FDD_WR8R`,
  `FDD_SYNC` (41_track_storage.md R142 "the calling rule guarantees"). Safe. -/
  | headOutsideArena
  /-- A request inside the geometry reaches beyond the stored block buffer: `HDD_READ`, `HDD_WRITE`, `HDD_RDBLK`,
  `HDD_WRBLK` (10_state.md R54's invariant is broken). Safe. -/
  | blockOutsideBuffer
  /-- A block inside the geometry has no dirty bit: `HDD_WRITE`, `HDD_WRBLK`, `HDD_DIRTY`, `HDD_CLRDIRTY`
  (10_state.md R55's invariant is broken). Safe. -/
  | blockOutsideBitmap
  /-- The motor is on and was never switched: `FDD_SPEED` (42_drive_mechanics.md R171's corner case is broken).
  Safe. -/
  | motorNeverSwitched
  deriving DecidableEq, Repr

/-- Why the machine gives an input no meaning. -/
inductive Refusal where
  /-- Raised by an arm of `exec` whose instruction has no meaning yet. Safe: the model stops. -/
  | notModelled (mnemonic : String)
  /-- Raised by `step`: the bytes the host sent are no packet of 30_encoding.md R101 (too short, or longer than
  header and payload). Safe: the model stops (notes/assumptions/5.md). -/
  | malformedPacket
  /-- Raised by `step`: the launch configuration is one the spec refuses (93 U4, U10, U22). Safe: the model
  stops. -/
  | configurationRefused
  deriving DecidableEq, Repr

/-- The floppy drive after reset (10_state.md R62). -/
def Fdd.reset : Fdd where
  disk := none
  head := { cyl := 0, head := 0, offset := 0 }
  motorOn := false
  motorSwitchTs := none
  latestStepUp := none
  latestStepDown := none
  cylHistory := []
  dskChange := false
  pending := none

/-- The machine right after a launch with the configuration `c` (10_state.md R62, 70_reset_and_hazards.md R330). -/
def State.launch (c : Config) : State where
  now := 0
  stage := none
  fdd := Fdd.reset
  hd := none
  hostMem := { cells := [] }
  inbox := []
  ret := none
  cfg := c

/-- The machine right after reset: the launch with the spec's test configuration `T0` (DESIGN CHOICE,
notes/assumptions/1.md). -/
def State.reset : State := State.launch Config.t0

end Sys2Proof.Machine
end

