-- ==== Sys2Proof/Machine/Params.lean ====
section
/-! DEFINITION. The fixed numbers of 00_scope.md R7 to R10 and how the parameters of R12 are read from the launch
configuration. -/

namespace Sys2Proof

/-- `TRACK_BYTES` (00_scope.md R7); none for the invalid pair. -/
def trackBytes : Diameter → Density → Option Nat
  | .inch35, .dd => some 12668
  | .inch35, .hd => some 24636
  | .inch525, .dd => some 12668
  | .inch525, .hd => none

/-- `CYLS` (00_scope.md R8). -/
def cylinderCount : Diameter → Nat
  | .inch35 => 84
  | .inch525 => 42

/-- `TRACK_SLOTS` (00_scope.md R8). -/
def trackSlots : Nat := 168

/-- `USED_TRACKS`: two heads (00_scope.md R8). -/
def usedTracks (d : Diameter) : Nat := 2 * cylinderCount d

/-- `HD_BSIZE` (00_scope.md R10). -/
def hdBlockSize : Nat := 512

/-- `CBM_BSIZE` (00_scope.md R10). -/
def cbmBlockSize : Nat := 256

/-- The width in bits (41_track_storage.md R154). -/
def HashWidth.bits : HashWidth → Nat
  | .w32 => 32
  | .w64 => 64

/-- `OFFSET_BASIS_W` (41_track_storage.md R154). -/
def HashWidth.offsetBasis : HashWidth → Nat
  | .w32 => 0x811C9DC5
  | .w64 => 0xCBF29CE484222325

/-- `PRIME_W` (41_track_storage.md R154). -/
def HashWidth.prime : HashWidth → Nat
  | .w32 => 0x01000193
  | .w64 => 0x100000001B3

/-- `MAXCYL` (42_drive_mechanics.md R170). -/
def Config.maxCyl (c : Config) : Nat := cylinderCount c.driveDiameter - 1

/-- `FILL(t, i)` (00_scope.md R12, 41_track_storage.md R145). -/
def Config.fill (c : Config) (t i : Nat) : Byte :=
  match c.fillTable.find? (fun e => e.track == t && e.offset == i) with
  | some e => e.value
  | none => c.fillBase

/-- The pair is in `MAGIC_SET` (00_scope.md R12). -/
def Config.isMagic (c : Config) (d : Diameter) (n : Density) : Bool := c.magicSet.contains (d, n)

/-- The default `POLL_PATTERN` (42_drive_mechanics.md R186): the last four visited cylinders alternate between two
neighbours. The history is newest first. -/
def alternatesBetweenNeighbours : List Nat → Bool
  | h0 :: h1 :: h2 :: h3 :: _ => h0 == h2 && h1 == h3 && (h0 == h1 + 1 || h1 == h0 + 1)
  | _ => false

/-- `POLL_PATTERN` (00_scope.md R12). -/
def Config.pollPattern (c : Config) (history : List Nat) : Bool :=
  match c.pollTable with
  | none => alternatesBetweenNeighbours history
  | some table => table.contains history

/-- `HOST_MEM_VALID(addr, len)` (00_scope.md R12). -/
def Config.hostMemValid (c : Config) (addr len : Nat) : Bool :=
  c.hostMap.regions.any (fun r => decide (r.base ≤ addr) && decide (addr + len ≤ r.base + r.size))
    || c.hostMap.ranges.contains (addr, len)

/-- `EMPTY_FS(fsType, name, geometry)` (00_scope.md R12). -/
def Config.emptyFsImage (c : Config) (fsType : Nat) (name : List Byte) (g : HdGeometry) : Option (List Byte) :=
  match c.emptyFs.find? (fun e => e.fsType == fsType && e.name == name && e.geometry == g) with
  | some e => some e.image
  | none => none

/-- `HD_GEOMETRY_OK` (00_scope.md R12, 44_geometry.md R262): by default every descriptor with all four numbers
positive. -/
def Config.geometryOk (c : Config) (g : HdGeometry) : Bool :=
  match c.geometryTable with
  | none => decide (0 < g.cylinders) && decide (0 < g.heads) && decide (0 < g.sectors) && decide (0 < g.bsize)
  | some table => table.contains g

/-- `CBM_NEXT[zone]` (44_geometry.md R263). -/
def Config.cbmNext (c : Config) : Nat → List Nat
  | 0 => c.cbmNext0
  | 1 => c.cbmNext1
  | 2 => c.cbmNext2
  | 3 => c.cbmNext3
  | _ => []

/-- The first `n` sectors that a table visits from sector `s`. -/
def tableWalk (table : List Nat) : Nat → Nat → List Nat
  | 0, _ => []
  | n + 1, s => s :: tableWalk table n (table.getD s 0)

/-- A table over the sectors `0 .. n − 1` that is a single cycle through all of them (44_geometry.md R263 (a),
(b)): `n` steps from sector 0 visit every sector, and the next step is back at 0. -/
def isSingleCycle (n : Nat) (table : List Nat) : Bool :=
  table.length == n
    && (tableWalk table n 0).all (fun s => decide (s < n))
    && (List.range n).all (fun s => (tableWalk table n 0).contains s)
    && (tableWalk table (n + 1) 0).getD n 1 == 0

/-- A table of 19 sectors with stride 3 (44_geometry.md R263 (c)), read as: wherever three sectors on exists, it is
the next one (DEDUCED, notes/assumptions/17.md). -/
def isStrideThree (table : List Nat) : Bool :=
  (List.range 16).all (fun s => table.getD s 0 == s + 3)

/-- A configuration the spec does not refuse: the ramps are at least 1 (93 U4), the history depth is at least 1
(93 U10), and every interleave table is a single cycle (93 U22), the directory's with stride 3 (44_geometry.md
R263). -/
def Config.wf (c : Config) : Bool :=
  decide (0 < c.rampUp) && decide (0 < c.rampDown) && decide (0 < c.histDepth)
    && isSingleCycle 17 c.cbmNext0 && isSingleCycle 18 c.cbmNext1 && isSingleCycle 19 c.cbmNext2
    && isSingleCycle 21 c.cbmNext3 && isSingleCycle 19 c.cbmDirNext && isStrideThree c.cbmDirNext

end Sys2Proof
end

