-- ==== Sys2Proof/Machine/Ops.lean ====
section
/-! DEFINITION. The shared operations: bytes by address, the updates of the state, the end of a command (its
`return` and its `raise`, 60_exceptions.md R300), a Disk's arena, the block buffer, the dirty bitmap and the
checksum. -/

namespace Sys2Proof.Machine

/-- The outcome of a step. -/
abbrev Outcome := Host.Outcome State Fault Refusal

/-! ### Bytes by address -/

/-- The first entry of an address. -/
def lookupCell : List Host.Cell → Nat → Option Byte
  | [], _ => none
  | (b, w) :: rest, a => if b = a then some w else lookupCell rest a

/-- Puts an entry in its place among rising addresses. -/
def insertCell : List Host.Cell → Nat → Byte → List Host.Cell
  | [], a, v => [(a, v)]
  | (b, w) :: rest, a, v =>
    if a < b then (a, v) :: (b, w) :: rest
    else if a = b then (a, v) :: rest
    else (b, w) :: insertCell rest a v

/-- Removes the entries of an address. -/
def eraseCell (cells : List Host.Cell) (a : Nat) : List Host.Cell := cells.filter (fun c => c.1 != a)

/-- One byte: the entry of the address, else what the address reads as unlisted. -/
def Memory.read (unlisted : Nat → Byte) (m : Memory) (a : Nat) : Byte := (lookupCell m.cells a).getD (unlisted a)

/-- Writes one byte; writing what the unlisted address reads as removes the entry. -/
def Memory.write (unlisted : Nat → Byte) (m : Memory) (a : Nat) (v : Byte) : Memory :=
  if v = unlisted a then { cells := eraseCell m.cells a } else { cells := insertCell m.cells a v }

/-- `n` bytes at ascending addresses from `a` (00_scope.md R15 `MemRead`). -/
def Memory.readRange (unlisted : Nat → Byte) (m : Memory) (a n : Nat) : List Byte :=
  (List.range n).map (fun k => m.read unlisted (a + k))

/-- Writes bytes at ascending addresses from `a` (00_scope.md R15 `MemWrite`). -/
def Memory.writeRange (unlisted : Nat → Byte) (m : Memory) (a : Nat) : List Byte → Memory
  | [] => m
  | v :: rest => (m.write unlisted a v).writeRange unlisted (a + 1) rest

/-- The entries of bytes that stand from address `a` on. -/
def cellsOf (unlisted : Nat → Byte) (a : Nat) : List Byte → List Host.Cell
  | [] => []
  | v :: rest => if v = unlisted a then cellsOf unlisted (a + 1) rest else (a, v) :: cellsOf unlisted (a + 1) rest

/-- The canonical form: addresses strictly rising, no entry equal to what the unlisted address reads as. -/
def Memory.wf (unlisted : Nat → Byte) (m : Memory) : Bool :=
  decide ((m.cells.map Prod.fst).Pairwise (· < ·)) && m.cells.all (fun c => c.2 != unlisted c.1)

/-- Every listed address is below `n`. -/
def Memory.below (n : Nat) (m : Memory) : Bool := m.cells.all (fun c => decide (c.1 < n))

/-- What an unlisted byte of host memory and of the block buffer reads as: 0x00. For the block buffer that is
43_hard_disk.md R210's zero fill; for host memory it is the launch premise of 00_scope.md R13 (notes/assumptions/6.md). -/
def zeroByte (_ : Nat) : Byte := 0x00

/-! ### Updates of the state -/

/-- Sets `now`. -/
def State.setNow (s : State) (n : Nat) : State := { s with now := n }

/-- Sets the stage. -/
def State.setStage (s : State) (d : Option Disk) : State := { s with stage := d }

/-- Sets the floppy drive. -/
def State.setFdd (s : State) (f : Fdd) : State := { s with fdd := f }

/-- Sets the hard disk. -/
def State.setHd (s : State) (h : Option HardDisk) : State := { s with hd := h }

/-- Sets the host memory. -/
def State.setHostMem (s : State) (m : Memory) : State := { s with hostMem := m }

/-- Sets the host's pending events. -/
def State.setInbox (s : State) (l : List HostEvent) : State := { s with inbox := l }

/-- Sets the result of the last command. -/
def State.setRet (s : State) (r : CmdResult) : State := { s with ret := some r }

/-! ### The end of a command -/

/-- `return v`: the command ends with `Ok(v)` (00_scope.md R15). -/
def State.finish (s : State) (v : Value) : Outcome := .next (s.setRet (.ok v))

/-- `raise E`: the command ends with `Err(E)` and no state change of any kind (60_exceptions.md R300). This is the
block's whole exception mechanism: nothing is saved, no mode changes, there is no vector and no return (R307). -/
def State.raise (s : State) (e : ErrCode) : Outcome := .next (s.setRet (.err e))

/-- The number of an error code (60_exceptions.md R301). -/
def ErrCode.code : ErrCode → Nat
  | .invalidLayout => 1
  | .geometryUnsupported => 2
  | .blockSize => 3
  | .badLength => 4
  | .badOffset => 5
  | .range => 6
  | .badMem => 7
  | .noDevice => 8
  | .geometryMismatch => 9
  | .partition => 10
  | .fileType => 11
  | .corrupted => 12
  | .unsupportedFeature => 13
  | .unknownCmd => 14
  | .incompatible => 15
  | .badOperand => 16

/-- The numeric status of a result: 0 (`E_OK`) for an `Ok` (60_exceptions.md R301). -/
def CmdResult.code : CmdResult → Nat
  | .ok _ => 0
  | .err e => e.code

/-- The class `format` of 60_exceptions.md R302: codes of the format codecs, which no command returns. -/
def ErrCode.isFormat : ErrCode → Bool
  | .fileType | .corrupted | .unsupportedFeature => true
  | _ => false

/-- The class `misaligned` of 60_exceptions.md R302. -/
def ErrCode.isMisaligned : ErrCode → Bool
  | .badLength | .badOffset => true
  | _ => false

/-! ### A Disk's arena -/

/-- `D.numTracks` (10_state.md R31): the addressable tracks. -/
def Disk.numTracks (D : Disk) : Nat := usedTracks D.diameter

/-- The byte a cleared Disk has at an arena offset (41_track_storage.md R145): `FILL`, and the two magic bytes at
track offset 0 of every slot of a Disk in `MAGIC_SET`. It is what an unlisted offset of `data` reads as. -/
def Disk.cleared (c : Config) (D : Disk) (a : Nat) : Byte :=
  if c.isMagic D.diameter D.density && a % D.trackLen == 0 then c.magic0
  else if c.isMagic D.diameter D.density && a % D.trackLen == 1 then c.magic1
  else c.fill (a / D.trackLen) (a % D.trackLen)

/-- `trackOffset(D, t)` (10_state.md R32). -/
def Disk.trackOffset (D : Disk) (t : Nat) : Nat := t * D.trackLen

/-- `TrkRead(D, t, i)` (41_track_storage.md R142). -/
def Disk.read (c : Config) (D : Disk) (t i : Nat) : Byte := D.data.read (D.cleared c) (D.trackOffset t + i)

/-- `TrkWrite(D, t, i, v)` (41_track_storage.md R143). -/
def Disk.write (c : Config) (D : Disk) (t i : Nat) (v : Byte) : Disk :=
  { D with data := D.data.write (D.cleared c) (D.trackOffset t + i) v, modified := true }

/-- `D.data[t × trackLen + from .. +n)` (41_track_storage.md R150, R151). -/
def Disk.slice (c : Config) (D : Disk) (t start n : Nat) : List Byte :=
  D.data.readRange (D.cleared c) (D.trackOffset t + start) n

/-- `TRK_CLEAR`'s effect on the Disk (41_track_storage.md R145): every byte becomes the cleared Disk's. -/
def Disk.clear (D : Disk) : Disk := { D with data := { cells := [] }, modified := true }

/-- The bytes of tracks `0 .. numTracks − 1`, in track order (41_track_storage.md R153). -/
def Disk.usedBytes (c : Config) (D : Disk) : List Byte :=
  D.data.readRange (D.cleared c) 0 (D.numTracks * D.trackLen)

/-- The bit of a byte at a stream bit offset: the most significant bit comes first (20_memory.md R74,
41_track_storage.md R146). -/
def streamBit (v : Byte) (o : Nat) : BitVec 1 := BitVec.ofBool (v.getLsbD (7 - o % 8))

/-- The byte with the bit at a stream bit offset set or cleared (41_track_storage.md R147). -/
def withStreamBit (v : Byte) (o : Nat) (bit : Bool) : Byte :=
  let m : Byte := (0x80 : Byte) >>> (o % 8)
  if bit then v ||| m else v &&& ~~~m

/-! ### The checksum (41_track_storage.md R154) -/

/-- `Fnv1a`: per byte, exclusive-or and then multiply modulo `2^W`. -/
def fnv1a (w : HashWidth) (bytes : List Byte) : Nat :=
  bytes.foldl (fun h x => ((h ^^^ x.toNat) * w.prime) % 2 ^ w.bits) w.offsetBasis

/-! ### The block buffer and the dirty bitmap -/

/-- `HdRead(off, n)` (00_scope.md R15); none where the range leaves the buffer. -/
def Buffer.read? (b : Buffer) (off n : Nat) : Option (List Byte) :=
  if off + n ≤ b.len then some (b.mem.readRange zeroByte off n) else none

/-- `HdWrite(off, n, v)` (00_scope.md R15); none where the range leaves the buffer. -/
def Buffer.write? (b : Buffer) (off : Nat) (v : List Byte) : Option Buffer :=
  if off + v.length ≤ b.len then some { b with mem := b.mem.writeRange zeroByte off v } else none

/-- A buffer that holds exactly the given bytes. -/
def Buffer.ofBytes (v : List Byte) : Buffer := { len := v.length, mem := { cells := cellsOf zeroByte 0 v } }

/-- A buffer of `n` zero bytes. -/
def Buffer.zeros (n : Nat) : Buffer := { len := n, mem := { cells := [] } }

/-- One byte of the buffer. -/
def Buffer.byte (b : Buffer) (off : Nat) : Byte := b.mem.read zeroByte off

/-- Sets the bits `lo .. hi − 1`; none where the range leaves the bitmap. -/
def setBits? (bits : List Bool) (lo hi : Nat) (v : Bool) : Option (List Bool) :=
  if hi ≤ bits.length then some (bits.mapIdx (fun k b => if lo ≤ k ∧ k < hi then v else b)) else none

end Sys2Proof.Machine
end

