-- ==== Sys2Proof/Machine/Operands.lean ====
section
/-! DEFINITION. Operand forms: the operand types of 30_encoding.md R103 (3) with the codes of 10_state.md R23, and
the selection of a Disk (41_track_storage.md R140, R141), of the drive's Disk (42_drive_mechanics.md R170) and of
the hard disk (43_hard_disk.md R209). -/

namespace Sys2Proof.Machine

/-- A bool operand: 0 or 1. -/
def asBool (n : Nat) : Option Bool := if n = 0 then some false else if n = 1 then some true else none

/-- A byte operand: at most 255. -/
def asByte (n : Nat) : Option Byte := if n < 256 then some (BitVec.ofNat 8 n) else none

/-- A `Sel` operand. -/
def asSel (n : Nat) : Option Sel := if n = 0 then some .stage else if n = 1 then some .drive else none

/-- A `Dir` operand. -/
def asDir (n : Nat) : Option Dir := if n = 0 then some .down else if n = 1 then some .up else none

/-- A `Diameter` code. -/
def asDiameter (n : Nat) : Option Diameter := if n = 0 then some .inch35 else if n = 1 then some .inch525 else none

/-- A `Density` code. -/
def asDensity (n : Nat) : Option Density := if n = 0 then some .dd else if n = 1 then some .hd else none

/-- The `FsType` code `NODOS`; every other code names a file system. -/
def nodos : Nat := 0

/-- The operand of `HDD_CLRDIRTY` that means every block. -/
def allBlocks : Nat := 0xFFFFFFFF

/-- A layout: a valid row of 00_scope.md R7, as (diameter, density, bytes per track). -/
def asLayout (diameter density : Nat) : Option (Diameter × Density × Nat) :=
  match asDiameter diameter, asDensity density with
  | some d, some n =>
    match trackBytes d n with
    | some len => some (d, n, len)
    | none => none
  | _, _ => none

/-- The Disk in the selected slot (41_track_storage.md R140). -/
def State.diskAt (s : State) : Sel → Option Disk
  | .stage => s.stage
  | .drive => s.fdd.disk

/-- The state with another Disk in the selected slot. -/
def State.putDisk (s : State) (sel : Sel) (D : Disk) : State :=
  match sel with
  | .stage => s.setStage (some D)
  | .drive => s.setFdd { s.fdd with disk := some D }

/-- `SelDisk(sel)` (41_track_storage.md R140), after the operand's type check. -/
def withDisk (s : State) (sel : Nat) (k : Sel → Disk → Outcome) : Outcome :=
  match asSel sel with
  | none => s.raise .badOperand
  | some slot =>
    match s.diskAt slot with
    | none => s.raise .noDevice
    | some D => k slot D

/-- `SelDisk(sel)` and then `ChkTrack(D, t)` (41_track_storage.md R140, R141). -/
def withTrack (s : State) (sel track : Nat) (k : Sel → Disk → Outcome) : Outcome :=
  withDisk s sel (fun slot D => if D.numTracks ≤ track then s.raise .range else k slot D)

/-- `CurDisk()` (42_drive_mechanics.md R170). -/
def withCurDisk (s : State) (k : Disk → Outcome) : Outcome :=
  match s.fdd.disk with
  | none => s.raise .noDevice
  | some D => k D

/-- `curTrack` (42_drive_mechanics.md R170). -/
def State.curTrack (s : State) : Nat := 2 * s.fdd.head.cyl + s.fdd.head.head

/-- What 41_track_storage.md R142 guarantees of an access through the drive head: the track is a slot of the arena
and the cursor lies on the track. -/
def State.headInArena (s : State) (D : Disk) : Bool :=
  decide (s.curTrack < trackSlots) && decide (s.fdd.head.offset < D.trackLen)

/-- `CurDisk()` and an access of the track under the head. -/
def withHead (s : State) (k : Disk → Outcome) : Outcome :=
  withCurDisk s (fun D => if s.headInArena D then k D else .fault .headOutsideArena)

/-- `CurHd()` (43_hard_disk.md R209). -/
def withHd (s : State) (k : HardDisk → Outcome) : Outcome :=
  match s.hd with
  | none => s.raise .noDevice
  | some h => k h

end Sys2Proof.Machine
end

