-- ==== Sys2Proof/Machine/Flags.lean ====
section
/-! DEFINITION. The status words of 10_state.md R60. Bits not listed there read 0. -/

namespace Sys2Proof.Machine

/-- A status word from its bits 0 to 5. -/
def statusByte (b0 b1 b2 b3 b4 b5 : Bool) : Byte :=
  BitVec.ofNat 8 (b0.toNat + 2 * b1.toNat + 4 * b2.toNat + 8 * b3.toNat + 16 * b4.toNat + 32 * b5.toNat)

/-- `TRK_STAT` (R60, 41_track_storage.md R155). -/
def Disk.status (D : Disk) : Byte := statusByte D.modified D.writeProtected false false false false

/-- `FDD_STAT` (R60, 42_drive_mechanics.md R199). Bits 2 and 4 are 0 when no Disk is inserted. -/
def Fdd.status (f : Fdd) : Byte :=
  match f.disk with
  | none => statusByte false f.dskChange false f.motorOn false f.pending.isSome
  | some D => statusByte true f.dskChange D.writeProtected f.motorOn D.modified f.pending.isSome

/-- The code of the hard disk's state, as bits 1 and 0 (10_state.md R23). -/
def HdState.bits : HdState → Bool × Bool
  | .idle => (false, false)
  | .reading => (false, true)
  | .writing => (true, false)

/-- `HDD_STAT` (R60, 43_hard_disk.md R222): 0 when no hard disk is connected. -/
def hdStatus : Option HardDisk → Byte
  | none => 0x00
  | some h => statusByte h.state.bits.2 h.state.bits.1 h.writeProtected h.modified true false

end Sys2Proof.Machine
end

