-- ==== Sys2Proof/Machine/Floppy.lean ====
section
/-! DEFINITION. The floppy drive (42_drive_mechanics.md): the `FDD_*` commands and the disk-change event. -/

namespace Sys2Proof.Machine

/-- `latestStep` (10_state.md R44): the later of the two accepted pulses, if any. -/
def Fdd.latestStep (f : Fdd) : Option Nat :=
  match f.latestStepUp, f.latestStepDown with
  | some u, some d => some (max u d)
  | some u, none => some u
  | none, d => d

/-- `ReadyUp()` (R182). -/
def State.readyUp (s : State) : Bool :=
  match s.fdd.latestStep with
  | none => true
  | some t => decide (s.cfg.stepDelay ≤ s.now - t)

/-- `ReadyDown()` (R183): defined exactly as `ReadyUp()`. -/
def State.readyDown (s : State) : Bool :=
  match s.fdd.latestStep with
  | none => true
  | some t => decide (s.cfg.stepDelay ≤ s.now - t)

/-- `PollsForDisk()` (R186). -/
def State.pollsForDisk (s : State) : Bool := s.cfg.pollPattern s.fdd.cylHistory

/-- The latch after a step pulse (R181): only a Disk that is present while the history shows polling keeps it. -/
def State.latchAfterPulse (s : State) : Bool := s.fdd.dskChange && s.fdd.disk.isSome && s.pollsForDisk

/-- The cylinder after an accepted pulse (R180, R184): clamped to `0 .. MAXCYL`. -/
def stepCyl (maxCyl : Nat) (dir : Dir) (cyl : Nat) : Nat :=
  match dir with
  | .up => if cyl < maxCyl then cyl + 1 else cyl
  | .down => if 0 < cyl then cyl - 1 else cyl

/-- The time stamp of an accepted pulse (R180). -/
def Fdd.stampStep (f : Fdd) (dir : Dir) (t : Nat) : Fdd :=
  match dir with
  | .up => { f with latestStepUp := some t }
  | .down => { f with latestStepDown := some t }

/-- The head at a new cylinder, recorded in the history (R185). -/
def Fdd.visit (f : Fdd) (depth cyl : Nat) : Fdd :=
  { f with head := { f.head with cyl := cyl }, cylHistory := (cyl :: f.cylHistory).take depth }

/-- The drive with another cursor. -/
def Fdd.setOffset (f : Fdd) (o : Nat) : Fdd := { f with head := { f.head with offset := o } }

/-- The cursor one unit on, wrapping at the end of the track (R189). -/
def Fdd.rotate (f : Fdd) (trackLen : Nat) : Fdd := f.setOffset ((f.head.offset + 1) % trackLen)

/-- `FDD_MOTOR` (R171). -/
def execFddMotor (on : Nat) (s : State) : Outcome :=
  match asBool on with
  | none => s.raise .badOperand
  | some m =>
    if m = s.fdd.motorOn then s.finish .none
    else (s.setFdd { s.fdd with motorOn := m, motorSwitchTs := some s.now }).finish .none

/-- `FDD_SPEED` (R172). -/
def execFddSpeed (s : State) : Outcome :=
  match s.fdd.motorOn, s.fdd.motorSwitchTs with
  | true, some ts => s.finish (.num (min 100 ((100 * (s.now - ts)) / s.cfg.rampUp)))
  | true, none => .fault .motorNeverSwitched
  | false, none => s.finish (.num 0)
  | false, some ts => s.finish (.num (100 - min 100 ((100 * (s.now - ts)) / s.cfg.rampDown)))

/-- `FDD_STEP` (R180, R181, R184, R185). -/
def execFddStep (dir : Nat) (s : State) : Outcome :=
  match asDir dir with
  | none => s.raise .badOperand
  | some d =>
    let seen : Fdd := { s.fdd with dskChange := s.latchAfterPulse }
    let ready := match d with
      | .up => s.readyUp
      | .down => s.readyDown
    if ready then
      let accepted := seen.stampStep d s.now
      let cyl := stepCyl s.cfg.maxCyl d s.fdd.head.cyl
      if cyl = s.fdd.head.cyl then (s.setFdd accepted).finish (.bool false)
      else (s.setFdd (accepted.visit s.cfg.histDepth cyl)).finish (.bool true)
    else (s.setFdd seen).finish (.bool false)

/-- `FDD_RDYUP` (R182). -/
def execFddRdyup (s : State) : Outcome := s.finish (.bool s.readyUp)

/-- `FDD_RDYDN` (R183). -/
def execFddRdydn (s : State) : Outcome := s.finish (.bool s.readyDown)

/-- `FDD_POLLS` (R186). -/
def execFddPolls (s : State) : Outcome := s.finish (.bool s.pollsForDisk)

/-- `FDD_SIDE` (R188). -/
def execFddSide (head : Nat) (s : State) : Outcome :=
  if 1 < head then s.raise .badOperand
  else (s.setFdd { s.fdd with head := { s.fdd.head with head := head } }).finish .none

/-- `FDD_ROT` (R189). -/
def execFddRot (s : State) : Outcome :=
  withCurDisk s (fun D => (s.setFdd (s.fdd.rotate D.trackLen)).finish .none)

/-- `FDD_RD8R` (R191): the access first, the advance second. -/
def execFddRd8r (s : State) : Outcome :=
  withHead s (fun D =>
    (s.setFdd (s.fdd.rotate D.trackLen)).finish (.byte (D.read s.cfg s.curTrack s.fdd.head.offset)))

/-- `FDD_WR8R` (R192): a write-protected Disk is left as it is and the cursor still advances. -/
def execFddWr8r (value : Nat) (s : State) : Outcome :=
  match asByte value with
  | none => s.raise .badOperand
  | some v =>
    withHead s (fun D =>
      let D' := if D.writeProtected then D else D.write s.cfg s.curTrack s.fdd.head.offset v
      (s.setFdd { s.fdd.rotate D.trackLen with disk := some D' }).finish .none)

/-- `FDD_INS` (R194, R196). -/
def execFddIns (delay : Nat) (s : State) : Outcome :=
  match s.stage with
  | none => s.raise .noDevice
  | some D =>
    if D.diameter = s.cfg.driveDiameter then
      ((s.setFdd { s.fdd with pending := some { change := .insert D, dueAt := s.now + delay } }).setStage
        none).finish .none
    else s.raise .incompatible

/-- `FDD_EJ` (R195, R196). -/
def execFddEj (delay : Nat) (s : State) : Outcome :=
  (s.setFdd { s.fdd with pending := some { change := .eject, dueAt := s.now + delay } }).finish .none

/-- The sync mark stands at byte `p` of the track (R193); its second byte may lie past the track's end. -/
def syncAt (c : Config) (D : Disk) (t p : Nat) : Bool :=
  D.read c t p == c.syncHi && D.read c t ((p + 1) % D.trackLen) == c.syncLo

/-- The first of the `trackLen` positions from the cursor at which the mark stands (R193). -/
def findSync (c : Config) (D : Disk) (t p0 : Nat) : Option Nat :=
  (List.range D.trackLen).find? (fun k => syncAt c D t ((p0 + k) % D.trackLen))

/-- `FDD_SYNC` (R193). -/
def execFddSync (s : State) : Outcome :=
  withHead s (fun D =>
    match findSync s.cfg D s.curTrack s.fdd.head.offset with
    | some k =>
      (s.setFdd (s.fdd.setOffset (((s.fdd.head.offset + k) % D.trackLen + 2) % D.trackLen))).finish (.bool true)
    | none => s.finish (.bool false))

/-- `FDD_STAT` (R199). -/
def execFddStat (s : State) : Outcome := s.finish (.byte s.fdd.status)

/-- `FDD_POS` (R187). -/
def execFddPos (s : State) : Outcome :=
  s.finish (.triple s.fdd.head.cyl s.fdd.head.head s.fdd.head.offset)

/-- The insertion event (R197): a Disk already in the drive is ejected first, and the cursor is zeroed where it
lies beyond the new Disk's track. -/
def Fdd.insertDisk (f : Fdd) (D : Disk) : Fdd :=
  { f with
    disk := some D
    dskChange := f.dskChange || f.disk.isSome
    head := if D.trackLen ≤ f.head.offset then { f.head with offset := 0 } else f.head
    pending := none }

/-- The ejection event (R198): on an empty drive it changes nothing but the pending slot. -/
def Fdd.ejectDisk (f : Fdd) : Fdd :=
  { f with disk := none, dskChange := f.dskChange || f.disk.isSome, pending := none }

/-- The disk-change event, if it is due at `now` (R200). -/
def Fdd.fireChange (f : Fdd) (now : Nat) : Fdd :=
  match f.pending with
  | none => f
  | some p =>
    if p.dueAt ≤ now then
      match p.change with
      | .insert D => f.insertDisk D
      | .eject => f.ejectDisk
    else f

end Sys2Proof.Machine
end

