-- ==== Sys2Proof/Machine/Geometry.lean ====
section
/-! DEFINITION. Geometry and addressing (44_geometry.md): the descriptors, the address functions and the `GEO_*`
commands. The unit owns no state. -/

namespace Sys2Proof

/-- `numBlocks` of a hard-disk descriptor (R250). -/
def HdGeometry.numBlocks (g : HdGeometry) : Nat := g.cylinders * g.heads * g.sectors

/-- `numBytes` of a hard-disk descriptor (R250). -/
def HdGeometry.numBytes (g : HdGeometry) : Nat := g.numBlocks * g.bsize

end Sys2Proof

namespace Sys2Proof.Machine

/-- A descriptor a command can select (R257): the hard disk's, or a CBM disk with so many tracks. -/
inductive GeoDesc where
  | hd (g : HdGeometry)
  | cbm (tracks : Nat)
  deriving DecidableEq, Repr

/-- `speedZone(t)` (R259). -/
def speedZone (t : Nat) : Option Nat :=
  if 1 ≤ t ∧ t ≤ 17 then some 3
  else if 18 ≤ t ∧ t ≤ 24 then some 2
  else if 25 ≤ t ∧ t ≤ 30 then some 1
  else if 31 ≤ t ∧ t ≤ 42 then some 0
  else none

/-- Sectors of a track in a zone (R260). -/
def zoneSectors : Nat → Nat
  | 0 => 17
  | 1 => 18
  | 2 => 19
  | 3 => 21
  | _ => 0

/-- `CbmSectors(t)` (R260); 0 for a track with no zone. -/
def cbmSectors (t : Nat) : Nat :=
  match speedZone t with
  | some z => zoneSectors z
  | none => 0

/-- `T0(G)`, the first valid track (R257). -/
def GeoDesc.firstTrack : GeoDesc → Nat
  | .hd _ => 0
  | .cbm _ => 1

/-- `G.heads` (R257). -/
def GeoDesc.heads : GeoDesc → Nat
  | .hd g => g.heads
  | .cbm _ => 1

/-- `G.cylinders` (R257). -/
def GeoDesc.cylinders : GeoDesc → Nat
  | .hd g => g.cylinders
  | .cbm n => n

/-- `G.bsize` (R257). -/
def GeoDesc.bsize : GeoDesc → Nat
  | .hd g => g.bsize
  | .cbm _ => cbmBlockSize

/-- `G.spt(t)` (R250, R257). -/
def GeoDesc.spt (G : GeoDesc) (t : Nat) : Nat :=
  match G with
  | .hd g => g.sectors
  | .cbm _ => cbmSectors t

/-- `numTracks(G)` (R250). -/
def GeoDesc.numTracks (G : GeoDesc) : Nat := G.cylinders * G.heads

/-- A valid track: `T0(G) ≤ t ≤ TN(G)` (R257). -/
def GeoDesc.validTrack (G : GeoDesc) (t : Nat) : Bool :=
  decide (G.firstTrack ≤ t) && decide (t < G.firstTrack + G.numTracks)

/-- `firstBlock(G, t)` (R252): for a hard disk `t × sectors`, for a CBM disk the sum over tracks `1 .. t − 1`. -/
def GeoDesc.firstBlock (G : GeoDesc) (t : Nat) : Nat :=
  match G with
  | .hd g => t * g.sectors
  | .cbm _ => ((List.range (t - 1)).map (fun k => cbmSectors (k + 1))).sum

/-- `numBlocks(G)` (R250): `firstBlock(G, TN(G) + 1)` (R252). -/
def GeoDesc.numBlocks (G : GeoDesc) : Nat := G.firstBlock (G.firstTrack + G.numTracks)

/-- `numBytes(G)` (R250). -/
def GeoDesc.numBytes (G : GeoDesc) : Nat := G.numBlocks * G.bsize

/-- The CBM track and sector of a block counted from the start of track `t`, among `n` further tracks. -/
def cbmLocate : Nat → Nat → Nat → Nat × Nat
  | 0, t, blk => (t, blk)
  | n + 1, t, blk => if blk < cbmSectors t then (t, blk) else cbmLocate n (t + 1) (blk - cbmSectors t)

/-- `blockToTrackSector` (R253); none out of range. -/
def GeoDesc.blockToTs (G : GeoDesc) (blk : Nat) : Option (Nat × Nat) :=
  if G.numBlocks ≤ blk then none
  else
    match G with
    | .hd g => some (blk / g.sectors, blk % g.sectors)
    | .cbm n => some (cbmLocate n 1 blk)

/-- `trackSectorToBlock` (R254). -/
def GeoDesc.tsToBlock (G : GeoDesc) (t s : Nat) : Option Nat :=
  if G.validTrack t && decide (s < G.spt t) then some (G.firstBlock t + s) else none

/-- `blockToCHS` (R255); none out of range. -/
def GeoDesc.blockToChs (G : GeoDesc) (blk : Nat) : Option (Nat × Nat × Nat) :=
  match G.blockToTs blk with
  | none => none
  | some (t, s) => some ((t - G.firstTrack) / G.heads, (t - G.firstTrack) % G.heads, s)

/-- `chsToBlock` (R256). -/
def GeoDesc.chsToBlock (G : GeoDesc) (cyl head s : Nat) : Option Nat :=
  if G.cylinders ≤ cyl ∨ G.heads ≤ head then none
  else G.tsToBlock (G.firstTrack + cyl * G.heads + head) s

/-- The sector after `s` in the interleave of track `t` (R261). -/
def interleaveNext (c : Config) (t s : Nat) : Nat :=
  if t = 18 then c.cbmDirNext.getD s 0 else (c.cbmNext ((speedZone t).getD 0)).getD s 0

/-- `nextBlockRef` on a valid reference of a disk of `n` tracks (R261). -/
def nextBlockRef (c : Config) (n t s : Nat) : Nat × Nat :=
  if interleaveNext c t s ≠ 0 then (t, interleaveNext c t s)
  else if t = n then (0, 0)
  else if t = 17 then (19, 0)
  else (t + 1, 0)

/-- `Check(G, family)` (R262): the error it raises, if any. -/
def GeoDesc.checkError (c : Config) : GeoDesc → Option ErrCode
  | .hd g =>
    if g.bsize ≠ hdBlockSize then some .blockSize
    else if c.geometryOk g then none else some .geometryUnsupported
  | .cbm n =>
    if (GeoDesc.cbm n).bsize ≠ cbmBlockSize then some .blockSize
    else if (GeoDesc.cbm n).numBlocks ∈ [683, 768, 802] then none else some .geometryUnsupported

/-- `Sel(gsel)` (R257). -/
def withGeo (s : State) (gsel : Nat) (k : GeoDesc → Outcome) : Outcome :=
  if gsel = 0 then withHd s (fun h => k (.hd h.geometry))
  else if gsel = 1 then k (.cbm 35)
  else if gsel = 2 then k (.cbm 40)
  else if gsel = 3 then k (.cbm 42)
  else s.raise .badOperand

/-- `GEO_NTRK` (R251). -/
def execGeoNtrk (gsel : Nat) (s : State) : Outcome := withGeo s gsel (fun G => s.finish (.num G.numTracks))

/-- `GEO_NSEC` (R260). -/
def execGeoNsec (gsel track : Nat) (s : State) : Outcome :=
  withGeo s gsel (fun G => if G.validTrack track then s.finish (.num (G.spt track)) else s.raise .range)

/-- `GEO_B2TS` (R253). -/
def execGeoB2ts (gsel block : Nat) (s : State) : Outcome :=
  withGeo s gsel (fun G =>
    match G.blockToTs block with
    | some (t, sector) => s.finish (.pair t sector)
    | none => s.raise .range)

/-- `GEO_TS2B` (R254). -/
def execGeoTs2b (gsel track sector : Nat) (s : State) : Outcome :=
  withGeo s gsel (fun G => s.finish (.optNum (G.tsToBlock track sector)))

/-- `GEO_B2CHS` (R255). -/
def execGeoB2chs (gsel block : Nat) (s : State) : Outcome :=
  withGeo s gsel (fun G =>
    match G.blockToChs block with
    | some (cyl, head, sector) => s.finish (.triple cyl head sector)
    | none => s.raise .range)

/-- `GEO_CHS2B` (R256). -/
def execGeoChs2b (gsel cyl head sector : Nat) (s : State) : Outcome :=
  withGeo s gsel (fun G => s.finish (.optNum (G.chsToBlock cyl head sector)))

/-- `GEO_ZONE` (R259). -/
def execGeoZone (track : Nat) (s : State) : Outcome :=
  match speedZone track with
  | some z => s.finish (.num z)
  | none => s.raise .range

/-- `GEO_NEXT` (R261). -/
def execGeoNext (gsel track sector : Nat) (s : State) : Outcome :=
  if gsel = 0 then s.raise .badOperand
  else
    withGeo s gsel (fun G =>
      if G.validTrack track && decide (sector < G.spt track) then
        s.finish (.pair (nextBlockRef s.cfg G.numTracks track sector).1
          (nextBlockRef s.cfg G.numTracks track sector).2)
      else s.raise .range)

/-- `GEO_CHECK` (R262). -/
def execGeoCheck (gsel : Nat) (s : State) : Outcome :=
  withGeo s gsel (fun G =>
    match G.checkError s.cfg with
    | none => s.finish .none
    | some e => s.raise e)

/-- `GEO_NBLK` (R250). -/
def execGeoNblk (gsel : Nat) (s : State) : Outcome :=
  withGeo s gsel (fun G => s.finish (.pair G.numBlocks G.numBytes))

end Sys2Proof.Machine
end

