-- ==== Sys2Proof/Machine/HardDisk.lean ====
section
/-! DEFINITION. The hard disk (43_hard_disk.md): the `HDD_*` commands and the return-to-Idle event. -/

namespace Sys2Proof.Machine

/-- `DefaultPartition(G)` (R232). -/
def defaultPartition (g : HdGeometry) : Partition where
  name := []
  dosType := 0
  lowCylinder := 0
  highCylinder := g.cylinders - 1
  bootable := false

/-- Two partitions share no cylinder (R226). -/
def Partition.disjoint (p q : Partition) : Bool :=
  decide (p.highCylinder < q.lowCylinder) || decide (q.highCylinder < p.lowCylinder)

/-- One entry of `ValidPtable(pt, G)` (R226). -/
def Partition.inside (g : HdGeometry) (p : Partition) : Bool :=
  decide (p.lowCylinder ≤ p.highCylinder) && decide (p.highCylinder < g.cylinders)

/-- Every entry shares no cylinder with a later one. -/
def allDisjoint : List Partition → Bool
  | [] => true
  | p :: rest => rest.all p.disjoint && allDisjoint rest

/-- `ValidPtable(pt, G)` (R226). -/
def validPtable (pt : List Partition) (g : HdGeometry) : Bool := pt.all (Partition.inside g) && allDisjoint pt

/-- The number 4 bytes spell, most significant first (30_encoding.md R107). -/
def be4 (b3 b2 b1 b0 : Byte) : Nat := ((b3.toNat * 256 + b2.toNat) * 256 + b1.toNat) * 256 + b0.toNat

/-- One entry of a serialised partition list and the bytes after it (30_encoding.md R107). -/
def parseEntry : List Byte → Option (Partition × List Byte)
  | l3 :: l2 :: l1 :: l0 :: h3 :: h2 :: h1 :: h0 :: d3 :: d2 :: d1 :: d0 :: boot :: len :: rest =>
    match asBool boot.toNat with
    | none => none
    | some bootable =>
      if rest.length < len.toNat then none
      else some ({ name := rest.take len.toNat, dosType := BitVec.ofNat 32 (be4 d3 d2 d1 d0),
                   lowCylinder := be4 l3 l2 l1 l0, highCylinder := be4 h3 h2 h1 h0, bootable := bootable },
                 rest.drop len.toNat)
  | _ => none

/-- At most `n` entries; none where the payload ends inside an entry or a flag is above 1 (30_encoding.md R107). -/
def parseEntries : Nat → List Byte → Option (List Partition)
  | _, [] => some []
  | 0, _ :: _ => none
  | n + 1, bytes@(_ :: _) =>
    match parseEntry bytes with
    | none => none
    | some (p, rest) =>
      match parseEntries n rest with
      | none => none
      | some more => some (p :: more)

/-- The partition list a payload spells (30_encoding.md R107): an entry takes at least 14 bytes, so there are no
more entries than bytes. -/
def parsePtable (bytes : List Byte) : Option (List Partition) := parseEntries bytes.length bytes

/-- `Verify(offset, length, addr)` (R212): the error of the first check that fails. -/
def verifyError (c : Config) (h : HardDisk) (offset length addr : Nat) : Option ErrCode :=
  if length % h.geometry.bsize ≠ 0 then some .badLength
  else if offset % h.geometry.bsize ≠ 0 then some .badOffset
  else if h.geometry.numBytes < offset + length then some .range
  else if c.hostMemValid addr length then none
  else some .badMem

/-- The cosmetic head after an accepted request (R213). -/
def HardDisk.headFor (h : HardDisk) (offset : Nat) : DriveHead :=
  match (GeoDesc.hd h.geometry).blockToChs (offset / h.geometry.bsize) with
  | some (cyl, head, sector) => { cyl := cyl, head := head, offset := sector }
  | none => h.head

/-- An accepted request enters its state and restarts the settle delay (R219), and shows its first block (R213). -/
def HardDisk.accept (h : HardDisk) (state : HdState) (due offset : Nat) : HardDisk :=
  { h with state := state, idleDue := some due, head := h.headFor offset }

/-- A real write of bytes at a buffer offset (R214, R216, R218): the bytes, the dirty bits of the blocks covered,
and the modified flag. The fault of an ill-formed store otherwise. -/
def HardDisk.realWrite (h : HardDisk) (offset : Nat) (v : List Byte) : Except Fault HardDisk :=
  match h.buf.write? offset v with
  | none => .error .blockOutsideBuffer
  | some buf =>
    match setBits? h.dirty (offset / h.geometry.bsize) ((offset + v.length) / h.geometry.bsize) true with
    | none => .error .blockOutsideBitmap
    | some dirty => .ok { h with buf := buf, dirty := dirty, modified := true }

/-- `HDD_INIT` (R210). -/
def execHddInit (cylinders heads sectors bsize : Nat) (image : List Byte) (s : State) : Outcome :=
  if cylinders = 0 ∨ heads = 0 ∨ sectors = 0 ∨ bsize = 0 then s.raise .badOperand
  else if bsize ≠ hdBlockSize then s.raise .blockSize
  else
    let g : HdGeometry := { cylinders := cylinders, heads := heads, sectors := sectors, bsize := bsize }
    if s.cfg.geometryOk g then
      if image.length ≠ 0 ∧ image.length ≠ g.numBytes then s.raise .badOperand
      else
        (s.setHd (some {
          geometry := g
          ptable := [defaultPartition g]
          drivers := []
          buf := if image.length ≠ 0 then Buffer.ofBytes image else Buffer.zeros g.numBytes
          dirty := List.replicate g.numBlocks true
          state := .idle
          head := { cyl := 0, head := 0, offset := 0 }
          idleDue := none
          writeProtected := false
          modified := false })).finish .none
    else s.raise .geometryUnsupported

/-- `HDD_DISC` (R211). -/
def execHddDisc (s : State) : Outcome := withHd s (fun _ => (s.setHd none).finish .none)

/-- `HDD_READ` (R215). -/
def execHddRead (offset length addr : Nat) (s : State) : Outcome :=
  withHd s (fun h =>
    match verifyError s.cfg h offset length addr with
    | some e => s.raise e
    | none =>
      match h.buf.read? offset length with
      | none => .fault .blockOutsideBuffer
      | some v =>
        ((s.setHostMem (s.hostMem.writeRange zeroByte addr v)).setHd
          (some (h.accept .reading (s.now + s.cfg.hdSettle) offset))).finish .none)

/-- `HDD_WRITE` (R216): a write-protected device and an empty request are accepted and change no byte (R214). -/
def execHddWrite (offset length addr : Nat) (s : State) : Outcome :=
  withHd s (fun h =>
    match verifyError s.cfg h offset length addr with
    | some e => s.raise e
    | none =>
      if h.writeProtected = false ∧ 0 < length then
        match h.realWrite offset (s.hostMem.readRange zeroByte addr length) with
        | .error f => .fault f
        | .ok h' => (s.setHd (some (h'.accept .writing (s.now + s.cfg.hdSettle) offset))).finish .none
      else (s.setHd (some (h.accept .writing (s.now + s.cfg.hdSettle) offset))).finish .none)

/-- `HDD_RDBLK` (R217): the state machine and the head are not touched. -/
def execHddRdblk (block : Nat) (s : State) : Outcome :=
  withHd s (fun h =>
    if h.geometry.numBlocks ≤ block then s.raise .range
    else
      match h.buf.read? (block * h.geometry.bsize) h.geometry.bsize with
      | none => .fault .blockOutsideBuffer
      | some v => s.finish (.bytes v))

/-- `HDD_WRBLK` (R218). The row demands 512 payload bytes, which is checked before everything else
(30_encoding.md R103 (2), 60_exceptions.md R303 (1); notes/assumptions/7.md). -/
def execHddWrblk (block : Nat) (data : List Byte) (s : State) : Outcome :=
  if data.length ≠ hdBlockSize then s.raise .badOperand
  else
    withHd s (fun h =>
      if data.length ≠ h.geometry.bsize then s.raise .badOperand
      else if h.geometry.numBlocks ≤ block then s.raise .range
      else if h.writeProtected then s.finish .none
      else
        match h.realWrite (block * h.geometry.bsize) data with
        | .error f => .fault f
        | .ok h' => (s.setHd (some h')).finish .none)

/-- `HDD_CHGEO` (R220). -/
def execHddChgeo (cylinders heads sectors bsize : Nat) (s : State) : Outcome :=
  withHd s (fun h =>
    if cylinders = 0 ∨ heads = 0 ∨ sectors = 0 ∨ bsize = 0 then s.raise .badOperand
    else if bsize ≠ hdBlockSize then s.raise .blockSize
    else
      let g : HdGeometry := { cylinders := cylinders, heads := heads, sectors := sectors, bsize := bsize }
      if g.numBytes ≠ h.geometry.numBytes then s.raise .geometryMismatch
      else if s.cfg.geometryOk g then
        (s.setHd (some { h with
          geometry := g
          ptable := [defaultPartition g]
          head := { cyl := 0, head := 0, offset := 0 } })).finish .none
      else s.raise .geometryUnsupported)

/-- `HDD_FMT` (R221): not a request of the state machine, and not stopped by write protection. -/
def execHddFmt (fsType : Nat) (name : List Byte) (s : State) : Outcome :=
  withHd s (fun h =>
    if fsType = nodos then s.finish .none
    else
      match s.cfg.emptyFsImage fsType name h.geometry with
      | none => s.raise .badOperand
      | some image =>
        if image.length ≠ h.geometry.numBytes then s.raise .badOperand
        else
          (s.setHd (some { h with
            buf := Buffer.ofBytes image
            dirty := h.dirty.map (fun _ => true)
            modified := true })).finish .none)

/-- `HDD_STAT` (R222). -/
def execHddStat (s : State) : Outcome := s.finish (.byte (hdStatus s.hd))

/-- `HDD_STAT2` (R223). -/
def execHddStat2 (s : State) : Outcome :=
  withHd s (fun h => s.finish (.triple h.head.cyl h.head.head h.head.offset))

/-- `HDD_SETFLAGS` (R224). -/
def execHddSetflags (modified wp : Nat) (s : State) : Outcome :=
  match asBool modified, asBool wp with
  | some m, some p =>
    withHd s (fun h => (s.setHd (some { h with modified := m, writeProtected := p })).finish .none)
  | _, _ => s.raise .badOperand

/-- `HDD_DIRTY` (R227). -/
def execHddDirty (block : Nat) (s : State) : Outcome :=
  withHd s (fun h =>
    if h.geometry.numBlocks ≤ block then s.raise .range
    else
      match h.dirty[block]? with
      | none => .fault .blockOutsideBitmap
      | some b => s.finish (.bool b))

/-- `HDD_CLRDIRTY` (R228). -/
def execHddClrdirty (block : Nat) (s : State) : Outcome :=
  withHd s (fun h =>
    if block = allBlocks then (s.setHd (some { h with dirty := h.dirty.map (fun _ => false) })).finish .none
    else if h.geometry.numBlocks ≤ block then s.raise .range
    else
      match setBits? h.dirty block (block + 1) false with
      | none => .fault .blockOutsideBitmap
      | some dirty => (s.setHd (some { h with dirty := dirty })).finish .none)

/-- `HDD_SETPT` (R225). -/
def execHddSetpt (plist : List Byte) (s : State) : Outcome :=
  withHd s (fun h =>
    match parsePtable plist with
    | none => s.raise .badOperand
    | some pt =>
      if validPtable pt h.geometry then (s.setHd (some { h with ptable := pt })).finish .none
      else s.raise .partition)

/-- `HDD_GEO` (R229). -/
def execHddGeo (s : State) : Outcome :=
  withHd s (fun h => s.finish (.quad h.geometry.cylinders h.geometry.heads h.geometry.sectors h.geometry.bsize))

/-- The return to Idle, if it is due at `now` (R219, 42_drive_mechanics.md R200). -/
def HardDisk.fireIdle (h : HardDisk) (now : Nat) : HardDisk :=
  match h.idleDue with
  | none => h
  | some t => if t ≤ now then { h with state := .idle, idleDue := none } else h

end Sys2Proof.Machine
end

