-- ==== Sys2Proof/Machine/Mfm.lean ====
section
/-! DEFINITION. The MFM codec (40_mfm_codec.md): `MFM_ENC`, `MFM_DEC`, `MFM_ENCOE`, `MFM_DECOE`, `MFM_CLK`. The unit
is stateless: a command changes nothing but the returned value. -/

namespace Sys2Proof.Machine

/-- `addClock(v, prev)` (R126): the data positions of `v` with every clock position computed from its neighbours. -/
def addClock (v prev : Byte) : Byte :=
  let dbits := v &&& 0x55
  let left := dbits <<< 1
  let right := (dbits >>> 1) ||| ((prev &&& 0x01) <<< 7)
  let clocks := ~~~(left ||| right) &&& 0xAA
  dbits ||| clocks

/-- The MFM word of a data byte: data bit `k` at word bit `2k`, clock positions 0 (R121). -/
def spread (v : Byte) : MfmWord :=
  (List.range 8).foldl (fun w k => if v.getLsbD k then w ||| ((1 : MfmWord) <<< (2 * k)) else w) 0

/-- The data byte of an MFM word: bit `k` from word bit `2k` (R122). -/
def gather (w : MfmWord) : Byte :=
  (List.range 8).foldl (fun v k => if w.getLsbD (2 * k) then v ||| ((1 : Byte) <<< k) else v) 0

/-- `MFM_ENC` on a byte sequence: each word's high half first (R121). -/
def mfmEncode : List Byte → List Byte
  | [] => []
  | v :: rest => (spread v).extractLsb' 8 8 :: (spread v).extractLsb' 0 8 :: mfmEncode rest

/-- `MFM_DEC` on a byte sequence of even length (R122). -/
def mfmDecode : List Byte → List Byte
  | hi :: lo :: rest => gather (hi ++ lo) :: mfmDecode rest
  | _ => []

/-- `MFM_ENCOE` on a byte sequence: the odd plane, then the even plane (R123). -/
def oddEvenEncode (src : List Byte) : List Byte :=
  src.map (fun (v : Byte) => (v >>> 1) &&& 0x55) ++ src.map (fun (v : Byte) => v &&& 0x55)

/-- `MFM_DECOE` on a byte sequence of even length (R124). -/
def oddEvenDecode (src : List Byte) : List Byte :=
  List.zipWith (fun (o e : Byte) => ((o &&& 0x55) <<< 1) ||| (e &&& 0x55)) (src.take (src.length / 2))
    (src.drop (src.length / 2))

/-- `MFM_CLK` on a byte sequence that follows the encoded byte `prev` (R125). -/
def addClocks (prev : Byte) : List Byte → List Byte
  | [] => []
  | v :: rest => addClock v prev :: addClocks (addClock v prev) rest

/-- `MFM_ENC` (R121). -/
def execMfmEnc (src : List Byte) (s : State) : Outcome := s.finish (.bytes (mfmEncode src))

/-- `MFM_DEC` (R122). -/
def execMfmDec (src : List Byte) (s : State) : Outcome :=
  if src.length % 2 ≠ 0 then s.raise .badOperand else s.finish (.bytes (mfmDecode src))

/-- `MFM_ENCOE` (R123). -/
def execMfmEncoe (src : List Byte) (s : State) : Outcome := s.finish (.bytes (oddEvenEncode src))

/-- `MFM_DECOE` (R124). -/
def execMfmDecoe (src : List Byte) (s : State) : Outcome :=
  if src.length % 2 ≠ 0 then s.raise .badOperand else s.finish (.bytes (oddEvenDecode src))

/-- `MFM_CLK` (R125). -/
def execMfmClk (prev : Nat) (buf : List Byte) (s : State) : Outcome :=
  if 255 < prev then s.raise .badOperand else s.finish (.bytes (addClocks (BitVec.ofNat 8 prev) buf))

end Sys2Proof.Machine
end

