-- ==== Sys2Proof/Syntax.lean ====
section
/-! DEFINITION. The commands, one constructor per row of spec/opcode_table.json (30_encoding.md R105). An operand
is a number at face value, zero-extended (R101), so it is a `Nat`; an operand outside its type is a legal packet
whose meaning raises `E_BAD_OPERAND` (R103 (3)), so no operand is typed more narrowly here. A payload is the list
of its bytes in index order. A command whose row demands a payload of 0 bytes carries none: the decoder reports a
payload there (R103 (2)). -/

namespace Sys2Proof

/-- A command of the block, or the scheduler's `TICK`. -/
inductive Instr where
  -- MFM codec (40_mfm_codec.md)
  | mfmEnc (src : List Byte)
  | mfmDec (src : List Byte)
  | mfmEncoe (src : List Byte)
  | mfmDecoe (src : List Byte)
  | mfmClk (prev : Nat) (buf : List Byte)
  -- track storage (41_track_storage.md)
  | trkInit (diameter density wp : Nat)
  | trkClear (sel : Nat)
  | trkRdbit (sel track bitOffset : Nat)
  | trkWrbit (sel track bitOffset value : Nat)
  | trkRd8 (sel track byteOffset : Nat)
  | trkWr8 (sel track byteOffset value : Nat)
  | trkView (sel track : Nat)
  | trkSect (sel track sector : Nat)
  | trkCsum (sel : Nat)
  | trkCsumt (sel track : Nat)
  | trkStat (sel : Nat)
  | trkSetflags (sel modified wp : Nat)
  -- floppy drive (42_drive_mechanics.md)
  | fddMotor (on : Nat)
  | fddSpeed
  | fddStep (dir : Nat)
  | fddRdyup
  | fddRdydn
  | fddPolls
  | fddSide (head : Nat)
  | fddRot
  | fddRd8r
  | fddWr8r (value : Nat)
  | fddIns (delay : Nat)
  | fddEj (delay : Nat)
  | fddSync
  | fddStat
  | fddPos
  -- hard disk (43_hard_disk.md)
  | hddInit (cylinders heads sectors bsize : Nat) (image : List Byte)
  | hddDisc
  | hddRead (offset length addr : Nat)
  | hddWrite (offset length addr : Nat)
  | hddRdblk (block : Nat)
  | hddWrblk (block : Nat) (data : List Byte)
  | hddChgeo (cylinders heads sectors bsize : Nat)
  | hddFmt (fsType : Nat) (name : List Byte)
  | hddStat
  | hddStat2
  | hddSetflags (modified wp : Nat)
  | hddDirty (block : Nat)
  | hddClrdirty (block : Nat)
  | hddSetpt (plist : List Byte)
  | hddGeo
  -- geometry (44_geometry.md)
  | geoNtrk (gsel : Nat)
  | geoNsec (gsel track : Nat)
  | geoB2ts (gsel block : Nat)
  | geoTs2b (gsel track sector : Nat)
  | geoB2chs (gsel block : Nat)
  | geoChs2b (gsel cyl head sector : Nat)
  | geoZone (track : Nat)
  | geoNext (gsel track sector : Nat)
  | geoCheck (gsel : Nat)
  | geoNblk (gsel : Nat)
  -- the scheduler (42_drive_mechanics.md R200)
  | tick
  deriving DecidableEq, Repr

end Sys2Proof
end

