-- ==== Sys2Proof/WellFormed.lean ====
section
/-! DEFINITION. When a command can be written as a packet (30_encoding.md R101): every operand fits its 32-bit
field and the number of payload bytes fits the 32-bit `plen`. Nothing else is ill-formed: an operand outside its
type is a legal packet. -/

namespace Sys2Proof

/-- A number that fits a 32-bit operand field (R101). -/
def fitsField (n : Nat) : Bool := decide (n < 2 ^ 32)

/-- A payload whose length fits `plen` (R101). -/
def fitsPlen (p : List Byte) : Bool := decide (p.length < 2 ^ 32)

/-- The command has a packet. -/
def Instr.wellFormed : Instr → Bool
  | .mfmEnc src => fitsPlen src
  | .mfmDec src => fitsPlen src
  | .mfmEncoe src => fitsPlen src
  | .mfmDecoe src => fitsPlen src
  | .mfmClk prev buf => fitsField prev && fitsPlen buf
  | .trkInit diameter density wp => fitsField diameter && fitsField density && fitsField wp
  | .trkClear sel => fitsField sel
  | .trkRdbit sel track o => fitsField sel && fitsField track && fitsField o
  | .trkWrbit sel track o v => fitsField sel && fitsField track && fitsField o && fitsField v
  | .trkRd8 sel track o => fitsField sel && fitsField track && fitsField o
  | .trkWr8 sel track o v => fitsField sel && fitsField track && fitsField o && fitsField v
  | .trkView sel track => fitsField sel && fitsField track
  | .trkSect sel track sector => fitsField sel && fitsField track && fitsField sector
  | .trkCsum sel => fitsField sel
  | .trkCsumt sel track => fitsField sel && fitsField track
  | .trkStat sel => fitsField sel
  | .trkSetflags sel m wp => fitsField sel && fitsField m && fitsField wp
  | .fddMotor on => fitsField on
  | .fddSpeed => true
  | .fddStep dir => fitsField dir
  | .fddRdyup => true
  | .fddRdydn => true
  | .fddPolls => true
  | .fddSide head => fitsField head
  | .fddRot => true
  | .fddRd8r => true
  | .fddWr8r v => fitsField v
  | .fddIns delay => fitsField delay
  | .fddEj delay => fitsField delay
  | .fddSync => true
  | .fddStat => true
  | .fddPos => true
  | .hddInit c h n b image => fitsField c && fitsField h && fitsField n && fitsField b && fitsPlen image
  | .hddDisc => true
  | .hddRead offset length addr => fitsField offset && fitsField length && fitsField addr
  | .hddWrite offset length addr => fitsField offset && fitsField length && fitsField addr
  | .hddRdblk block => fitsField block
  | .hddWrblk block data => fitsField block && fitsPlen data
  | .hddChgeo c h n b => fitsField c && fitsField h && fitsField n && fitsField b
  | .hddFmt fsType name => fitsField fsType && fitsPlen name
  | .hddStat => true
  | .hddStat2 => true
  | .hddSetflags m wp => fitsField m && fitsField wp
  | .hddDirty block => fitsField block
  | .hddClrdirty block => fitsField block
  | .hddSetpt plist => fitsPlen plist
  | .hddGeo => true
  | .geoNtrk gsel => fitsField gsel
  | .geoNsec gsel track => fitsField gsel && fitsField track
  | .geoB2ts gsel block => fitsField gsel && fitsField block
  | .geoTs2b gsel track sector => fitsField gsel && fitsField track && fitsField sector
  | .geoB2chs gsel block => fitsField gsel && fitsField block
  | .geoChs2b gsel cyl head sector => fitsField gsel && fitsField cyl && fitsField head && fitsField sector
  | .geoZone track => fitsField track
  | .geoNext gsel track sector => fitsField gsel && fitsField track && fitsField sector
  | .geoCheck gsel => fitsField gsel
  | .geoNblk gsel => fitsField gsel
  | .tick => true

end Sys2Proof
end

