-- ==== Sys2Proof/Decode.lean ====
section
/-! DEFINITION. The packet format (30_encoding.md R101 to R105): the decoder, total on any bytes, and after it the
encoder. A packet is a 21-byte header, most significant byte first (`op`, then `a`, `b`, `c`, `d`, `plen` of 4
bytes each), then `plen` payload bytes. A packet is decoded by its `op` byte alone (R102). -/

namespace Sys2Proof

/-- Why bytes are no command. -/
inductive DecodeError where
  /-- Fewer than 21 bytes: no header, so no packet (R101). -/
  | shortHeader
  /-- Fewer payload bytes than `plen` announces: no packet (R101). -/
  | shortPayload
  /-- Bytes after the payload of a packet that was handed over alone (R101). -/
  | trailingBytes
  /-- A reserved `op` (R104): the block answers `E_UNKNOWN_CMD`. -/
  | unknownCmd
  /-- A payload where the row demands none (R103 (2)): the block answers `E_BAD_OPERAND`. -/
  | payloadNotEmpty
  deriving DecidableEq, Repr

/-- The number that bytes spell, most significant byte first (R101, R107). -/
def beNat (bytes : List Byte) : Nat := bytes.foldl (fun n b => n * 256 + b.toNat) 0

/-- The 4-byte number at byte `k` of a packet. -/
def be32At (bytes : List Byte) (k : Nat) : Nat := beNat ((bytes.drop k).take 4)

/-- A command whose row demands a payload of 0 bytes (R103 (2)). -/
def withoutPayload (payload : List Byte) (i : Instr) : Except DecodeError Instr :=
  match payload with
  | [] => .ok i
  | _ :: _ => .error .payloadNotEmpty

/-- The opcode map (R105). An operand field a command does not use is ignored (R101). -/
def instrOf (op a b c d : Nat) (payload : List Byte) : Except DecodeError Instr :=
  match op with
  | 0x01 => .ok (.mfmEnc payload)
  | 0x02 => .ok (.mfmDec payload)
  | 0x03 => .ok (.mfmEncoe payload)
  | 0x04 => .ok (.mfmDecoe payload)
  | 0x05 => .ok (.mfmClk a payload)
  | 0x10 => withoutPayload payload (.trkInit a b c)
  | 0x11 => withoutPayload payload (.trkClear a)
  | 0x12 => withoutPayload payload (.trkRdbit a b c)
  | 0x13 => withoutPayload payload (.trkWrbit a b c d)
  | 0x14 => withoutPayload payload (.trkRd8 a b c)
  | 0x15 => withoutPayload payload (.trkWr8 a b c d)
  | 0x16 => withoutPayload payload (.trkView a b)
  | 0x17 => withoutPayload payload (.trkSect a b c)
  | 0x18 => withoutPayload payload (.trkCsum a)
  | 0x19 => withoutPayload payload (.trkCsumt a b)
  | 0x1A => withoutPayload payload (.trkStat a)
  | 0x1B => withoutPayload payload (.trkSetflags a b c)
  | 0x20 => withoutPayload payload (.fddMotor a)
  | 0x21 => withoutPayload payload .fddSpeed
  | 0x22 => withoutPayload payload (.fddStep a)
  | 0x23 => withoutPayload payload .fddRdyup
  | 0x24 => withoutPayload payload .fddRdydn
  | 0x25 => withoutPayload payload .fddPolls
  | 0x26 => withoutPayload payload (.fddSide a)
  | 0x27 => withoutPayload payload .fddRot
  | 0x28 => withoutPayload payload .fddRd8r
  | 0x29 => withoutPayload payload (.fddWr8r a)
  | 0x2A => withoutPayload payload (.fddIns a)
  | 0x2B => withoutPayload payload (.fddEj a)
  | 0x2C => withoutPayload payload .fddSync
  | 0x2D => withoutPayload payload .fddStat
  | 0x2E => withoutPayload payload .fddPos
  | 0x30 => .ok (.hddInit a b c d payload)
  | 0x31 => withoutPayload payload .hddDisc
  | 0x32 => withoutPayload payload (.hddRead a b c)
  | 0x33 => withoutPayload payload (.hddWrite a b c)
  | 0x34 => withoutPayload payload (.hddRdblk a)
  | 0x35 => .ok (.hddWrblk a payload)
  | 0x36 => withoutPayload payload (.hddChgeo a b c d)
  | 0x37 => .ok (.hddFmt a payload)
  | 0x38 => withoutPayload payload .hddStat
  | 0x39 => withoutPayload payload .hddStat2
  | 0x3A => withoutPayload payload (.hddSetflags a b)
  | 0x3B => withoutPayload payload (.hddDirty a)
  | 0x3C => withoutPayload payload (.hddClrdirty a)
  | 0x3D => .ok (.hddSetpt payload)
  | 0x3E => withoutPayload payload .hddGeo
  | 0x40 => withoutPayload payload (.geoNtrk a)
  | 0x41 => withoutPayload payload (.geoNsec a b)
  | 0x42 => withoutPayload payload (.geoB2ts a b)
  | 0x43 => withoutPayload payload (.geoTs2b a b c)
  | 0x44 => withoutPayload payload (.geoB2chs a b)
  | 0x45 => withoutPayload payload (.geoChs2b a b c d)
  | 0x46 => withoutPayload payload (.geoZone b)
  | 0x47 => withoutPayload payload (.geoNext a b c)
  | 0x48 => withoutPayload payload (.geoCheck a)
  | 0x49 => withoutPayload payload (.geoNblk a)
  | 0xF0 => withoutPayload payload .tick
  | _ => .error .unknownCmd

/-- The length of a packet's header in bytes (R101). -/
def headerBytes : Nat := 21

/-- The decoder: the first command of a stream of bytes and the bytes after its packet. -/
def decode (bytes : List Byte) : Except DecodeError (Instr × List Byte) :=
  if bytes.length < headerBytes then .error .shortHeader
  else
    let plen := be32At bytes 17
    let body := bytes.drop headerBytes
    if body.length < plen then .error .shortPayload
    else
      match instrOf (beNat (bytes.take 1)) (be32At bytes 1) (be32At bytes 5) (be32At bytes 9) (be32At bytes 13)
          (body.take plen) with
      | .ok i => .ok (i, body.drop plen)
      | .error e => .error e

/-- The command of a packet that is handed over alone: nothing may follow its payload (R101). -/
def decodePacket (bytes : List Byte) : Except DecodeError Instr :=
  match decode bytes with
  | .error e => .error e
  | .ok (i, []) => .ok i
  | .ok (_, _ :: _) => .error .trailingBytes

/-- The packet bytes of an instruction whose bits are `w`, numbered as spec/opcode_table.json numbers them: byte
`k` of the packet is bits `8k+7 .. 8k` of `w`. Every bit above `nbits` is 0: the header is filled up to its 21
bytes and the payload to the `plen` the header then holds. -/
def tableBytes (nbits w : Nat) : List Byte :=
  let header := (List.range headerBytes).map
    (fun k => if 8 * k < nbits then BitVec.ofNat 8 (w / 2 ^ (8 * k)) else 0)
  let payload := (List.range (be32At header 17)).map
    (fun k => if 8 * (headerBytes + k) < nbits then BitVec.ofNat 8 (w / 2 ^ (8 * (headerBytes + k))) else 0)
  header ++ payload

/-- The instruction this decoder reads from a row's word of spec/opcode_table.json. -/
def decodeTableWord (nbits w : Nat) : Option Instr :=
  match decodePacket (tableBytes nbits w) with
  | .ok i => some i
  | .error _ => none

/-- The 4 bytes of a 32-bit field, most significant first (R101). -/
def be32Bytes (n : Nat) : List Byte :=
  [BitVec.ofNat 8 (n / 2 ^ 24), BitVec.ofNat 8 (n / 2 ^ 16), BitVec.ofNat 8 (n / 2 ^ 8), BitVec.ofNat 8 n]

/-- A packet: header, then payload (R101). -/
def packet (op a b c d : Nat) (payload : List Byte) : List Byte :=
  BitVec.ofNat 8 op ::
    (be32Bytes a ++ (be32Bytes b ++ (be32Bytes c ++ (be32Bytes d ++ (be32Bytes payload.length ++ payload)))))

/-- The encoder. An operand field a command does not use is written as 0 (R101). -/
def encode : Instr → List Byte
  | .mfmEnc src => packet 0x01 0 0 0 0 src
  | .mfmDec src => packet 0x02 0 0 0 0 src
  | .mfmEncoe src => packet 0x03 0 0 0 0 src
  | .mfmDecoe src => packet 0x04 0 0 0 0 src
  | .mfmClk prev buf => packet 0x05 prev 0 0 0 buf
  | .trkInit diameter density wp => packet 0x10 diameter density wp 0 []
  | .trkClear sel => packet 0x11 sel 0 0 0 []
  | .trkRdbit sel track o => packet 0x12 sel track o 0 []
  | .trkWrbit sel track o v => packet 0x13 sel track o v []
  | .trkRd8 sel track o => packet 0x14 sel track o 0 []
  | .trkWr8 sel track o v => packet 0x15 sel track o v []
  | .trkView sel track => packet 0x16 sel track 0 0 []
  | .trkSect sel track sector => packet 0x17 sel track sector 0 []
  | .trkCsum sel => packet 0x18 sel 0 0 0 []
  | .trkCsumt sel track => packet 0x19 sel track 0 0 []
  | .trkStat sel => packet 0x1A sel 0 0 0 []
  | .trkSetflags sel m wp => packet 0x1B sel m wp 0 []
  | .fddMotor on => packet 0x20 on 0 0 0 []
  | .fddSpeed => packet 0x21 0 0 0 0 []
  | .fddStep dir => packet 0x22 dir 0 0 0 []
  | .fddRdyup => packet 0x23 0 0 0 0 []
  | .fddRdydn => packet 0x24 0 0 0 0 []
  | .fddPolls => packet 0x25 0 0 0 0 []
  | .fddSide head => packet 0x26 head 0 0 0 []
  | .fddRot => packet 0x27 0 0 0 0 []
  | .fddRd8r => packet 0x28 0 0 0 0 []
  | .fddWr8r v => packet 0x29 v 0 0 0 []
  | .fddIns delay => packet 0x2A delay 0 0 0 []
  | .fddEj delay => packet 0x2B delay 0 0 0 []
  | .fddSync => packet 0x2C 0 0 0 0 []
  | .fddStat => packet 0x2D 0 0 0 0 []
  | .fddPos => packet 0x2E 0 0 0 0 []
  | .hddInit c h n b image => packet 0x30 c h n b image
  | .hddDisc => packet 0x31 0 0 0 0 []
  | .hddRead offset length addr => packet 0x32 offset length addr 0 []
  | .hddWrite offset length addr => packet 0x33 offset length addr 0 []
  | .hddRdblk block => packet 0x34 block 0 0 0 []
  | .hddWrblk block data => packet 0x35 block 0 0 0 data
  | .hddChgeo c h n b => packet 0x36 c h n b []
  | .hddFmt fsType name => packet 0x37 fsType 0 0 0 name
  | .hddStat => packet 0x38 0 0 0 0 []
  | .hddStat2 => packet 0x39 0 0 0 0 []
  | .hddSetflags m wp => packet 0x3A m wp 0 0 []
  | .hddDirty block => packet 0x3B block 0 0 0 []
  | .hddClrdirty block => packet 0x3C block 0 0 0 []
  | .hddSetpt plist => packet 0x3D 0 0 0 0 plist
  | .hddGeo => packet 0x3E 0 0 0 0 []
  | .geoNtrk gsel => packet 0x40 gsel 0 0 0 []
  | .geoNsec gsel track => packet 0x41 gsel track 0 0 []
  | .geoB2ts gsel block => packet 0x42 gsel block 0 0 []
  | .geoTs2b gsel track sector => packet 0x43 gsel track sector 0 []
  | .geoB2chs gsel block => packet 0x44 gsel block 0 0 []
  | .geoChs2b gsel cyl head sector => packet 0x45 gsel cyl head sector []
  | .geoZone track => packet 0x46 0 track 0 0 []
  | .geoNext gsel track sector => packet 0x47 gsel track sector 0 []
  | .geoCheck gsel => packet 0x48 gsel 0 0 0 []
  | .geoNblk gsel => packet 0x49 gsel 0 0 0 []
  | .tick => packet 0xF0 0 0 0 0 []

end Sys2Proof
end

