-- ==== Sys2Proof/Machine/Scheduler.lean ====
section
/-! DEFINITION. The scheduler's step `TICK` (42_drive_mechanics.md R200) and the answers to packets that are no
command (30_encoding.md R103, R104). -/

namespace Sys2Proof.Machine

/-- `TICK` (42_drive_mechanics.md R200): the time first, then the disk change, then the return to Idle
(60_exceptions.md R306). Its result is always `Ok`. -/
def execTick (s : State) : Outcome :=
  (((s.setNow (s.now + 1)).setFdd (s.fdd.fireChange (s.now + 1))).setHd
    (s.hd.map (fun h => h.fireIdle (s.now + 1)))).finish .none

/-- What a packet that is no command leads to: the error results of 30_encoding.md R103 (1), (2) and R104, and a
refusal where the bytes are no packet at all. -/
def answerUndecoded (e : DecodeError) (s : State) : Outcome :=
  match e with
  | .unknownCmd => s.raise .unknownCmd
  | .payloadNotEmpty => s.raise .badOperand
  | .shortHeader => .refused .malformedPacket
  | .shortPayload => .refused .malformedPacket
  | .trailingBytes => .refused .malformedPacket

/-- The host writes a byte of its own memory between two commands (10_state.md R63 (e), 93 U19). -/
def hostWrite (addr : Nat) (v : Byte) (s : State) : State := s.setHostMem (s.hostMem.write zeroByte addr v)

end Sys2Proof.Machine
end

