-- ==== Sys2Proof/Machine/Track.lean ====
section
/-! DEFINITION. Track storage (41_track_storage.md): the `TRK_*` commands. -/

namespace Sys2Proof.Machine

/-- A new Disk (R144): the cleared Disk's bytes, not modified. -/
def newDisk (d : Diameter) (n : Density) (len : Nat) (wp : Bool) : Disk :=
  { Disk.clear { diameter := d, density := n, trackLen := len, data := { cells := [] }, modified := false,
                 writeProtected := wp } with modified := false }

/-- `TRK_INIT` (R144). -/
def execTrkInit (diameter density wp : Nat) (s : State) : Outcome :=
  match asBool wp with
  | none => s.raise .badOperand
  | some p =>
    match asLayout diameter density with
    | none => s.raise .invalidLayout
    | some (d, n, len) => (s.setStage (some (newDisk d n len p))).finish .none

/-- `TRK_CLEAR` (R145). -/
def execTrkClear (sel : Nat) (s : State) : Outcome :=
  withDisk s sel (fun slot D => (s.putDisk slot D.clear).finish .none)

/-- `TRK_RDBIT` (R146). -/
def execTrkRdbit (sel track o : Nat) (s : State) : Outcome :=
  withTrack s sel track (fun _ D =>
    if 8 * D.trackLen ≤ o then s.raise .range
    else s.finish (.bit (streamBit (D.read s.cfg track (o / 8)) o)))

/-- `TRK_WRBIT` (R147). -/
def execTrkWrbit (sel track o value : Nat) (s : State) : Outcome :=
  match asBool value with
  | none => s.raise .badOperand
  | some v =>
    withTrack s sel track (fun slot D =>
      if 8 * D.trackLen ≤ o then s.raise .range
      else
        let old := D.read s.cfg track (o / 8)
        (s.putDisk slot (D.write s.cfg track (o / 8) (withStreamBit old o v))).finish .none)

/-- `TRK_RD8` (R148). -/
def execTrkRd8 (sel track i : Nat) (s : State) : Outcome :=
  withTrack s sel track (fun _ D =>
    if D.trackLen ≤ i then s.raise .range else s.finish (.byte (D.read s.cfg track i)))

/-- `TRK_WR8` (R149). The Disk's write protection is not consulted. -/
def execTrkWr8 (sel track i value : Nat) (s : State) : Outcome :=
  match asByte value with
  | none => s.raise .badOperand
  | some v =>
    withTrack s sel track (fun slot D =>
      if D.trackLen ≤ i then s.raise .range
      else (s.putDisk slot (D.write s.cfg track i v)).finish .none)

/-- `TRK_VIEW` (R150). -/
def execTrkView (sel track : Nat) (s : State) : Outcome :=
  withTrack s sel track (fun _ D => s.finish (.bytes (D.slice s.cfg track 0 D.trackLen)))

/-- `TRK_SECT` (R151). -/
def execTrkSect (sel track sector : Nat) (s : State) : Outcome :=
  withTrack s sel track (fun _ D =>
    if D.trackLen < (sector + 1) * s.cfg.sectorStride then s.raise .range
    else s.finish (.bytes (D.slice s.cfg track (sector * s.cfg.sectorStride) s.cfg.sectorStride)))

/-- `TRK_CSUM` (R153). -/
def execTrkCsum (sel : Nat) (s : State) : Outcome :=
  withDisk s sel (fun _ D => s.finish (.num (fnv1a s.cfg.hashWidth (D.usedBytes s.cfg))))

/-- `TRK_CSUMT` (R152). -/
def execTrkCsumt (sel track : Nat) (s : State) : Outcome :=
  withTrack s sel track (fun _ D => s.finish (.num (fnv1a s.cfg.hashWidth (D.slice s.cfg track 0 D.trackLen))))

/-- `TRK_STAT` (R155). -/
def execTrkStat (sel : Nat) (s : State) : Outcome :=
  withDisk s sel (fun _ D => s.finish (.byte D.status))

/-- `TRK_SETFLAGS` (R156). -/
def execTrkSetflags (sel modified wp : Nat) (s : State) : Outcome :=
  match asBool modified, asBool wp with
  | some m, some p =>
    withDisk s sel (fun slot D => (s.putDisk slot { D with modified := m, writeProtected := p }).finish .none)
  | _, _ => s.raise .badOperand

end Sys2Proof.Machine
end

