-- ==== Sys2Proof/Machine/Dispatch.lean ====
section
/-! DEFINITION. The meaning of every command, one arm per constructor of Instr. -/

namespace Sys2Proof.Machine

-- The meaning of a command in a state (30_encoding.md R105).
def exec (i : Instr) (s : State) : Host.Outcome State Fault Refusal :=
  match i with
  | .mfmEnc src => Sys2Proof.Machine.execMfmEnc src s
  | .mfmDec src => Sys2Proof.Machine.execMfmDec src s
  | .mfmEncoe src => Sys2Proof.Machine.execMfmEncoe src s
  | .mfmDecoe src => Sys2Proof.Machine.execMfmDecoe src s
  | .mfmClk prev buf => Sys2Proof.Machine.execMfmClk prev buf s
  | .trkInit diameter density wp => Sys2Proof.Machine.execTrkInit diameter density wp s
  | .trkClear sel => Sys2Proof.Machine.execTrkClear sel s
  | .trkRdbit sel track bitOffset => Sys2Proof.Machine.execTrkRdbit sel track bitOffset s
  | .trkWrbit sel track bitOffset value => Sys2Proof.Machine.execTrkWrbit sel track bitOffset value s
  | .trkRd8 sel track byteOffset => Sys2Proof.Machine.execTrkRd8 sel track byteOffset s
  | .trkWr8 sel track byteOffset value => Sys2Proof.Machine.execTrkWr8 sel track byteOffset value s
  | .trkView sel track => Sys2Proof.Machine.execTrkView sel track s
  | .trkSect sel track sector => Sys2Proof.Machine.execTrkSect sel track sector s
  | .trkCsum sel => Sys2Proof.Machine.execTrkCsum sel s
  | .trkCsumt sel track => Sys2Proof.Machine.execTrkCsumt sel track s
  | .trkStat sel => Sys2Proof.Machine.execTrkStat sel s
  | .trkSetflags sel modified wp => Sys2Proof.Machine.execTrkSetflags sel modified wp s
  | .fddMotor on => Sys2Proof.Machine.execFddMotor on s
  | .fddSpeed => Sys2Proof.Machine.execFddSpeed s
  | .fddStep dir => Sys2Proof.Machine.execFddStep dir s
  | .fddRdyup => Sys2Proof.Machine.execFddRdyup s
  | .fddRdydn => Sys2Proof.Machine.execFddRdydn s
  | .fddPolls => Sys2Proof.Machine.execFddPolls s
  | .fddSide head => Sys2Proof.Machine.execFddSide head s
  | .fddRot => Sys2Proof.Machine.execFddRot s
  | .fddRd8r => Sys2Proof.Machine.execFddRd8r s
  | .fddWr8r value => Sys2Proof.Machine.execFddWr8r value s
  | .fddIns delay => Sys2Proof.Machine.execFddIns delay s
  | .fddEj delay => Sys2Proof.Machine.execFddEj delay s
  | .fddSync => Sys2Proof.Machine.execFddSync s
  | .fddStat => Sys2Proof.Machine.execFddStat s
  | .fddPos => Sys2Proof.Machine.execFddPos s
  | .hddInit cylinders heads sectors bsize image => Sys2Proof.Machine.execHddInit cylinders heads sectors bsize image s
  | .hddDisc => Sys2Proof.Machine.execHddDisc s
  | .hddRead offset length addr => Sys2Proof.Machine.execHddRead offset length addr s
  | .hddWrite offset length addr => Sys2Proof.Machine.execHddWrite offset length addr s
  | .hddRdblk block => Sys2Proof.Machine.execHddRdblk block s
  | .hddWrblk block data => Sys2Proof.Machine.execHddWrblk block data s
  | .hddChgeo cylinders heads sectors bsize => Sys2Proof.Machine.execHddChgeo cylinders heads sectors bsize s
  | .hddFmt fsType name => Sys2Proof.Machine.execHddFmt fsType name s
  | .hddStat => Sys2Proof.Machine.execHddStat s
  | .hddStat2 => Sys2Proof.Machine.execHddStat2 s
  | .hddSetflags modified wp => Sys2Proof.Machine.execHddSetflags modified wp s
  | .hddDirty block => Sys2Proof.Machine.execHddDirty block s
  | .hddClrdirty block => Sys2Proof.Machine.execHddClrdirty block s
  | .hddSetpt plist => Sys2Proof.Machine.execHddSetpt plist s
  | .hddGeo => Sys2Proof.Machine.execHddGeo s
  | .geoNtrk gsel => Sys2Proof.Machine.execGeoNtrk gsel s
  | .geoNsec gsel track => Sys2Proof.Machine.execGeoNsec gsel track s
  | .geoB2ts gsel block => Sys2Proof.Machine.execGeoB2ts gsel block s
  | .geoTs2b gsel track sector => Sys2Proof.Machine.execGeoTs2b gsel track sector s
  | .geoB2chs gsel block => Sys2Proof.Machine.execGeoB2chs gsel block s
  | .geoChs2b gsel cyl head sector => Sys2Proof.Machine.execGeoChs2b gsel cyl head sector s
  | .geoZone track => Sys2Proof.Machine.execGeoZone track s
  | .geoNext gsel track sector => Sys2Proof.Machine.execGeoNext gsel track sector s
  | .geoCheck gsel => Sys2Proof.Machine.execGeoCheck gsel s
  | .geoNblk gsel => Sys2Proof.Machine.execGeoNblk gsel s
  | .tick => Sys2Proof.Machine.execTick s

end Sys2Proof.Machine
end

