-- ==== Sys2Proof/Machine/Step.lean ====
section
/-! DEFINITION. One step of the block. There is no program and no program counter (10_state.md R21): the next
instruction is the host's next packet, the head of `inbox`. When the host has nothing pending, the scheduler ticks:
`TICK` is always enabled (42_drive_mechanics.md R200; notes/assumptions/3.md). -/

namespace Sys2Proof.Machine

/-- One step: take the host's next event, or let the scheduler tick. -/
def step (s : State) : Host.Outcome State Fault Refusal :=
  if s.cfg.wf then
    match s.inbox with
    | [] => exec .tick s
    | .memWrite addr v :: rest => .next (hostWrite addr v (s.setInbox rest))
    | .packet bytes :: rest =>
      match decodePacket bytes with
      | .ok i => exec i (s.setInbox rest)
      | .error e => answerUndecoded e (s.setInbox rest)
  else .refused .configurationRefused

/-- The state with a packet as the host's next event: the instruction whose bits spec/opcode_table.json numbers as
`w`, so that the next step runs exactly it. -/
def State.withFetchWord (s : State) (nbits w : Nat) : State :=
  s.setInbox (.packet (tableBytes nbits w) :: s.inbox)

end Sys2Proof.Machine
end

