-- ==== Sys2Proof/Safety.lean ====
section
/-! DEFINITION. What counts as a good state: the invariants of 10_state.md R61 and the canonical form of every
memory. Then the terms the claims use: commands in sequence, the unit a command belongs to, the commands that only
answer, the serialised partition list and the bits of a stream. -/

namespace Sys2Proof.Machine

/-- A well-formed Disk (10_state.md R31, R32): the track length is its layout's, the arena is in canonical form and
lists offsets of its `168 × trackLen` bytes only. -/
structure Disk.Wf (c : Config) (D : Disk) : Prop where
  layout : trackBytes D.diameter D.density = some D.trackLen
  canonical : D.data.wf (D.cleared c) = true
  bounded : D.data.below (trackSlots * D.trackLen) = true

/-- A well-formed hard disk: 10_state.md R51 (positive numbers, block size 512), R61 (I4), (I5), (I6), and the
buffer in canonical form. -/
structure HardDisk.Wf (h : HardDisk) : Prop where
  cylinders_pos : 0 < h.geometry.cylinders
  heads_pos : 0 < h.geometry.heads
  sectors_pos : 0 < h.geometry.sectors
  bsize_eq : h.geometry.bsize = hdBlockSize
  buf_len : h.buf.len = h.geometry.numBytes
  dirty_len : h.dirty.length = h.geometry.numBlocks
  buf_canonical : h.buf.mem.wf zeroByte = true
  buf_bounded : h.buf.mem.below h.buf.len = true
  idle_iff : h.idleDue = none ↔ h.state = .idle
  ptable_valid : validPtable h.ptable h.geometry = true

/-- A good state (10_state.md R61). (I7) holds by construction: a Disk is a value in the place that holds it.
(I8) holds by construction: a pending insertion carries its Disk. -/
structure State.Inv (s : State) : Prop where
  /-- (I1) -/
  cyl_lt : s.fdd.head.cyl < cylinderCount s.cfg.driveDiameter
  /-- (I1) -/
  head_le : s.fdd.head.head ≤ 1
  /-- (I2) -/
  drive_disk : ∀ D, s.fdd.disk = some D → s.fdd.head.offset < D.trackLen ∧ D.diameter = s.cfg.driveDiameter
  /-- (I3) -/
  history : s.fdd.cylHistory.length ≤ s.cfg.histDepth
  /-- (I4), (I5), (I6) -/
  hard_disk : ∀ h, s.hd = some h → h.Wf
  stage_wf : ∀ D, s.stage = some D → D.Wf s.cfg
  drive_wf : ∀ D, s.fdd.disk = some D → D.Wf s.cfg
  pending_wf : ∀ D due, s.fdd.pending = some { change := .insert D, dueAt := due } →
    D.Wf s.cfg ∧ D.diameter = s.cfg.driveDiameter
  host_canonical : s.hostMem.wf zeroByte = true
  /-- 42_drive_mechanics.md R171: a motor that is on has been switched. -/
  motor : s.fdd.motorOn = true → s.fdd.motorSwitchTs ≠ none
  /-- 10_state.md R22: every time stamp is a value of `now`. -/
  stamps : ∀ t, (s.fdd.motorSwitchTs = some t ∨ s.fdd.latestStepUp = some t ∨ s.fdd.latestStepDown = some t) →
    t ≤ s.now

/-- The host's next event, if it is a packet, is one that 30_encoding.md R101 allows: header and payload, and
nothing after them. -/
def State.NextPacketFramed (s : State) : Prop :=
  ∀ bytes rest, s.inbox = .packet bytes :: rest →
    headerBytes ≤ bytes.length ∧ bytes.length = headerBytes + be32At bytes 17

/-- Commands one after another, up to the first fault or refusal. -/
def execAll : List Instr → State → Outcome
  | [], s => .next s
  | i :: rest, s =>
    match exec i s with
    | .next t => execAll rest t
    | .fault f => .fault f
    | .refused r => .refused r

/-- The operand that selects a slot (10_state.md R23). -/
def Sel.code : Sel → Nat
  | .stage => 0
  | .drive => 1

/-- The operand that selects a direction (10_state.md R23). -/
def Dir.code : Dir → Nat
  | .down => 0
  | .up => 1

/-- A time stamp of an accepted step pulse, in either direction (10_state.md R44). -/
def Fdd.StepStamp (f : Fdd) (t : Nat) : Prop := f.latestStepUp = some t ∨ f.latestStepDown = some t

/-- No accepted step pulse lies less than `STEP_DELAY` cycles back (42_drive_mechanics.md R182). -/
def State.StepSpaced (s : State) : Prop := ∀ t, s.fdd.StepStamp t → s.cfg.stepDelay ≤ s.now - t

/-- The units of the block, by the opcode ranges of 30_encoding.md R104. -/
inductive BlockUnit where
  | codec
  | track
  | drive
  | hardDisk
  | geometry
  | scheduler
  deriving DecidableEq, Repr

/-- The unit a command belongs to. -/
def unitOf : Instr → BlockUnit
  | .mfmEnc _ | .mfmDec _ | .mfmEncoe _ | .mfmDecoe _ | .mfmClk _ _ => .codec
  | .trkInit _ _ _ | .trkClear _ | .trkRdbit _ _ _ | .trkWrbit _ _ _ _ | .trkRd8 _ _ _ | .trkWr8 _ _ _ _
  | .trkView _ _ | .trkSect _ _ _ | .trkCsum _ | .trkCsumt _ _ | .trkStat _ | .trkSetflags _ _ _ => .track
  | .fddMotor _ | .fddSpeed | .fddStep _ | .fddRdyup | .fddRdydn | .fddPolls | .fddSide _ | .fddRot | .fddRd8r
  | .fddWr8r _ | .fddIns _ | .fddEj _ | .fddSync | .fddStat | .fddPos => .drive
  | .hddInit _ _ _ _ _ | .hddDisc | .hddRead _ _ _ | .hddWrite _ _ _ | .hddRdblk _ | .hddWrblk _ _
  | .hddChgeo _ _ _ _ | .hddFmt _ _ | .hddStat | .hddStat2 | .hddSetflags _ _ | .hddDirty _ | .hddClrdirty _
  | .hddSetpt _ | .hddGeo => .hardDisk
  | .geoNtrk _ | .geoNsec _ _ | .geoB2ts _ _ | .geoTs2b _ _ _ | .geoB2chs _ _ | .geoChs2b _ _ _ _ | .geoZone _
  | .geoNext _ _ _ | .geoCheck _ | .geoNblk _ => .geometry
  | .tick => .scheduler

/-- The commands that only answer: the pure reads of 20_memory.md R82, and the pure commands of 40_mfm_codec.md and
44_geometry.md. -/
def onlyAnswers : Instr → Bool
  | .mfmEnc _ | .mfmDec _ | .mfmEncoe _ | .mfmDecoe _ | .mfmClk _ _ => true
  | .trkRdbit _ _ _ | .trkRd8 _ _ _ | .trkView _ _ | .trkSect _ _ _ | .trkCsum _ | .trkCsumt _ _
  | .trkStat _ => true
  | .trkInit _ _ _ | .trkClear _ | .trkWrbit _ _ _ _ | .trkWr8 _ _ _ _ | .trkSetflags _ _ _ => false
  | .fddSpeed | .fddRdyup | .fddRdydn | .fddPolls | .fddStat | .fddPos => true
  | .fddMotor _ | .fddStep _ | .fddSide _ | .fddRot | .fddRd8r | .fddWr8r _ | .fddIns _ | .fddEj _
  | .fddSync => false
  | .hddRdblk _ | .hddStat | .hddStat2 | .hddDirty _ | .hddGeo => true
  | .hddInit _ _ _ _ _ | .hddDisc | .hddRead _ _ _ | .hddWrite _ _ _ | .hddWrblk _ _ | .hddChgeo _ _ _ _
  | .hddFmt _ _ | .hddSetflags _ _ | .hddClrdirty _ | .hddSetpt _ => false
  | .geoNtrk _ | .geoNsec _ _ | .geoB2ts _ _ | .geoTs2b _ _ _ | .geoB2chs _ _ | .geoChs2b _ _ _ _ | .geoZone _
  | .geoNext _ _ _ | .geoCheck _ | .geoNblk _ => true
  | .tick => false

/-- The opcodes of 30_encoding.md R104's ranges: every other `op` is reserved. -/
def assignedOps : List Nat :=
  List.range' 0x01 5 ++ List.range' 0x10 12 ++ List.range' 0x20 15 ++ List.range' 0x30 15 ++ List.range' 0x40 10
    ++ [0xF0]

/-- The opcodes whose row of 30_encoding.md R105 demands a payload of 0 bytes. -/
def payloadlessOps : List Nat :=
  List.range' 0x10 12 ++ List.range' 0x20 15 ++ [0x31, 0x32, 0x33, 0x34, 0x36, 0x38, 0x39, 0x3A, 0x3B, 0x3C, 0x3E]
    ++ List.range' 0x40 10 ++ [0xF0]

/-- The bits of bytes in stream order: the most significant bit of each byte first (20_memory.md R74). -/
def streamBits (bytes : List Byte) : List Bool :=
  bytes.flatMap (fun b => (List.range 8).map (fun k => b.getLsbD (7 - k)))

/-- An entry fits the serialised form of 30_encoding.md R107. -/
def Partition.Fits (p : Partition) : Prop :=
  p.lowCylinder < 2 ^ 32 ∧ p.highCylinder < 2 ^ 32 ∧ p.name.length < 256

/-- An entry of a serialised partition list (30_encoding.md R107). -/
def Partition.bytes (p : Partition) : List Byte :=
  be32Bytes p.lowCylinder ++ be32Bytes p.highCylinder ++ be32Bytes p.dosType.toNat
    ++ [if p.bootable then 1 else 0, BitVec.ofNat 8 p.name.length] ++ p.name

/-- A serialised partition list (30_encoding.md R107): the entries, with no count field. -/
def ptableBytes (pt : List Partition) : List Byte := pt.flatMap Partition.bytes

/-- Sectors of CBM track `t`, written out from 44_geometry.md R260; 0 for a track that no CBM disk has. -/
def cbmTrackSectors (t : Nat) : Nat :=
  if t = 0 then 0 else if t ≤ 17 then 21 else if t ≤ 24 then 19 else if t ≤ 30 then 18 else if t ≤ 42 then 17 else 0

/-- First block of CBM track `t`, written out from 44_geometry.md R252's table. -/
def cbmTrackStart (t : Nat) : Nat :=
  if t ≤ 17 then 21 * (t - 1)
  else if t ≤ 24 then 357 + 19 * (t - 18)
  else if t ≤ 30 then 490 + 18 * (t - 25)
  else 598 + 17 * (t - 31)

/-- The CBM descriptors a command can select: `gsel` and its number of tracks (44_geometry.md R257). -/
def cbmSelectors : List (Nat × Nat) := [(1, 35), (2, 40), (3, 42)]

end Sys2Proof.Machine
end

