-- ==== Sys2Proof/Certificates/Slice0/Obligations.lean ====
section
/-! DEFINITION. The statements for the provers. Each docstring names the rules of spec/ the statement formalises; a
statement that rests on one of the spec's own decisions (92_eei_decisions.md) or on a choice of this model says so. -/

open Sys2Proof Sys2Proof.Machine

/-! ### Packets and the step -/

/-- The step at a packet that decodes is the meaning of its instruction, run on the state without the packet
(30_encoding.md R100, R102). The inbox is the model's (notes/assumptions/3.md), and which configurations are accepted
is read as notes/assumptions/17.md says. -/
def Obligations.StepRunsDecodedInstruction : Prop :=
  ∀ (s : State) (bytes : List Byte) (rest : List HostEvent) (i : Instr),
    s.cfg.wf = true → s.inbox = .packet bytes :: rest → decodePacket bytes = .ok i →
      step s = exec i (s.setInbox rest)

/-- With nothing pending the scheduler ticks, and a host write of its own memory changes that byte only. Both are the
model's way to interleave the agents (notes/assumptions/3.md, 6.md), under a configuration that is accepted as
notes/assumptions/17.md reads it. -/
def Obligations.StepTicksOrTakesHostWrite : Prop :=
  (∀ s : State, s.cfg.wf = true → s.inbox = [] → step s = exec .tick s) ∧
  ∀ (s : State) (a : Nat) (v : Byte) (rest : List HostEvent),
    s.cfg.wf = true → s.inbox = .memWrite a v :: rest →
      ∃ m, step s = .next ((s.setInbox rest).setHostMem m) ∧ m.read zeroByte a = v ∧
        ∀ b, b ≠ a → m.read zeroByte b = s.hostMem.read zeroByte b

/-- A packet with a reserved opcode answers `E_UNKNOWN_CMD`, and one with a payload whose row demands none answers
`E_BAD_OPERAND`, whatever the operands; neither changes anything (30_encoding.md R103 (1), (2), R104, R105). Rests on
the spec's decision D1; which configurations are accepted is read as notes/assumptions/17.md says. -/
def Obligations.UndecodablePacketsAnswerErrors : Prop :=
  ∀ (s : State) (rest : List HostEvent) (op a b c d : Nat) (payload : List Byte),
    s.cfg.wf = true → payload.length < 2 ^ 32 → s.inbox = .packet (packet op a b c d payload) :: rest →
      (op < 256 → op ∉ assignedOps → step s = .next ((s.setInbox rest).setRet (.err .unknownCmd))) ∧
      (op ∈ payloadlessOps → payload ≠ [] → step s = .next ((s.setInbox rest).setRet (.err .badOperand)))

/-- Decoding the packet of a well-formed instruction gives the instruction back and leaves what follows it
(30_encoding.md R101, R102, R105). -/
def Obligations.DecodeReadsBackEveryEncoding : Prop :=
  ∀ i : Instr, i.wellFormed = true →
    decodePacket (encode i) = .ok i ∧ ∀ rest, decode (encode i ++ rest) = .ok (i, rest)

/-- Four packets written out from 30_encoding.md R101 and R105 decode to their instructions. -/
def Obligations.SpecPacketsDecodeAsWritten : Prop :=
  decodePacket [0x15, 0, 0, 0, 1, 0, 0, 0, 2, 0, 0, 0, 100, 0, 0, 0, 0x44, 0, 0, 0, 0] = .ok (.trkWr8 1 2 100 0x44) ∧
  decodePacket [0x32, 0, 0, 4, 0, 0, 0, 2, 0, 0, 0, 0x20, 0, 0, 0, 0, 0, 0, 0, 0, 0] = .ok (.hddRead 1024 512 0x2000) ∧
  decodePacket [0x05, 0, 0, 0, 1, 0, 0, 0, 0, 0, 0, 0, 0, 0, 0, 0, 0, 0, 0, 0, 2, 0x44, 0x01]
    = .ok (.mfmClk 1 [0x44, 0x01]) ∧
  decodePacket [0xF0, 0, 0, 0, 0, 0, 0, 0, 0, 0, 0, 0, 0, 0, 0, 0, 0, 0, 0, 0, 0] = .ok .tick

/-! ### The machine as a whole -/

/-- After a launch the block's state is the table of 10_state.md R62, for every configuration, and it is a good state
(10_state.md R61). All values but the latch's rest on the spec's decision D60. -/
def Obligations.LaunchHasResetValuesAndIsGood : Prop :=
  ∀ c : Config,
    let s := State.launch c
    s.cfg = c ∧ s.now = 0 ∧ s.stage = none ∧ s.fdd.disk = none ∧ s.fdd.head = { cyl := 0, head := 0, offset := 0 } ∧
    s.fdd.motorOn = false ∧ s.fdd.motorSwitchTs = none ∧ s.fdd.latestStepUp = none ∧ s.fdd.latestStepDown = none ∧
    s.fdd.cylHistory = [] ∧ s.fdd.dskChange = false ∧ s.fdd.pending = none ∧ s.hd = none ∧ s.Inv

/-- A step from a good state that answers a next state leads to a good state (10_state.md R61). -/
def Obligations.EveryStepKeepsGoodState : Prop :=
  ∀ s t : State, s.Inv → step s = .next t → t.Inv

/-- In a good state, with an accepted configuration and a host that sends whole packets, the step answers a next
state: no command ends a run (00_scope.md R16, 60_exceptions.md R307; the model's faults, notes/assumptions/10.md,
are unreachable). Two of the hypotheses are the model's own readings: which configurations are accepted (`Config.wf`, whose
stride of the directory table is notes/assumptions/17.md), and that bytes which are no packet are refused
(notes/assumptions/5.md). -/
def Obligations.GoodStateAlwaysSteps : Prop :=
  ∀ s : State, s.Inv → s.cfg.wf = true → s.NextPacketFramed → ∃ t, step s = .next t

/-- A command that ends with an error leaves the whole state as it was; only the returned value differs
(60_exceptions.md R300). -/
def Obligations.ErrorChangesNoState : Prop :=
  ∀ (i : Instr) (s t : State) (e : ErrCode),
    exec i s = .next t → t.ret = some (.err e) → t = s.setRet (.err e)

/-- No drive command changes a byte or the modified mark of a write-protected Disk in the drive
(42_drive_mechanics.md R202 (5)), and no request changes the buffer, the dirty bits or the modified mark of a
write-protected hard disk (43_hard_disk.md R231 (2)). Both rules are the spec's own derivations. -/
def Obligations.ProtectedMediaSurviveCommands : Prop :=
  ∀ (i : Instr) (s t : State), exec i s = .next t →
    (∀ D : Disk, unitOf i = .drive → s.fdd.disk = some D → D.writeProtected = true → t.fdd.disk = some D) ∧
    (∀ h : HardDisk, s.hd = some h → h.writeProtected = true →
      ((∃ o n a, i = .hddRead o n a ∨ i = .hddWrite o n a) ∨ (∃ b, i = .hddRdblk b) ∨ ∃ b v, i = .hddWrblk b v) →
      ∃ h', t.hd = some h' ∧ h'.buf = h.buf ∧ h'.dirty = h.dirty ∧ h'.modified = h.modified ∧
        h'.writeProtected = true)

/-- No command returns a code of the format codecs, nor the decoder's `E_UNKNOWN_CMD`; the code of an `Ok` result is 0,
each error has the number of 60_exceptions.md R301's table, and no two errors share one (60_exceptions.md R301). The
numbers are the spec's decision D4. -/
def Obligations.CommandsReturnNoFormatCode : Prop :=
  (∀ (i : Instr) (s t : State) (e : ErrCode), exec i s = .next t → t.ret = some (.err e) →
    e.code ∉ [0, 11, 12, 13, 14] ∧ e.code ≤ 16) ∧
  (∀ v : Value, (CmdResult.ok v).code = 0) ∧ (∀ e : ErrCode, (CmdResult.err e).code = e.code) ∧
  (∀ e : ErrCode, (e.code, e) ∈ [(1, ErrCode.invalidLayout), (2, .geometryUnsupported), (3, .blockSize), (4, .badLength),
    (5, .badOffset), (6, .range), (7, .badMem), (8, .noDevice), (9, .geometryMismatch), (10, .partition),
    (11, .fileType), (12, .corrupted), (13, .unsupportedFeature), (14, .unknownCmd), (15, .incompatible),
    (16, .badOperand)]) ∧
  ∀ (e f : ErrCode), e.code = f.code → e = f

/-- A command changes the state of its own unit only: the codec and the geometry unit none, track storage the two
Disk slots, the drive its own state and the stage, the hard disk itself and (by `HDD_READ` alone) host memory; none
changes the configuration or the host's pending events. Only `TICK` advances the time, by one, and only `FDD_STEP`
moves the head between cylinders, by at most one (60_exceptions.md R310, R311, 20_memory.md R89, 10_state.md R63,
42_drive_mechanics.md R202 (4)). The inbox is the model's (notes/assumptions/3.md). -/
def Obligations.CommandsStayInTheirUnit : Prop :=
  ∀ (i : Instr) (s t : State), exec i s = .next t →
    t.cfg = s.cfg ∧ t.inbox = s.inbox ∧
    (unitOf i ≠ .track → unitOf i ≠ .drive → t.stage = s.stage) ∧
    (unitOf i ≠ .track → unitOf i ≠ .drive → unitOf i ≠ .scheduler → t.fdd = s.fdd) ∧
    (unitOf i = .track → t.fdd = { s.fdd with disk := t.fdd.disk }) ∧
    (unitOf i ≠ .hardDisk → unitOf i ≠ .scheduler → t.hd = s.hd) ∧
    ((∀ o n a, i ≠ .hddRead o n a) → t.hostMem = s.hostMem) ∧
    (i = .tick → t.now = s.now + 1) ∧ (i ≠ .tick → t.now = s.now) ∧
    ((∀ d, i ≠ .fddStep d) → t.fdd.head.cyl = s.fdd.head.cyl) ∧
    t.fdd.head.cyl ≤ s.fdd.head.cyl + 1 ∧ s.fdd.head.cyl ≤ t.fdd.head.cyl + 1

/-- The pure reads, the codec and the geometry commands change nothing but the returned value (20_memory.md R82,
40_mfm_codec.md, 44_geometry.md). -/
def Obligations.PureCommandsOnlyAnswer : Prop :=
  ∀ (i : Instr) (s t : State), onlyAnswers i = true → exec i s = .next t → ∃ r, t = s.setRet r

/-! ### The MFM codec -/

/-- `MFM_ENC` (40_mfm_codec.md R121): two bytes for each data byte, the high nibble's first, every data bit at its
data position and every clock position 0. That the high half comes first is the spec's decision D6. -/
def Obligations.MfmEncodePlacesDataBits : Prop :=
  ∀ (src : List Byte) (s : State), ∃ dst : List Byte,
    exec (.mfmEnc src) s = .next (s.setRet (.ok (.bytes dst))) ∧ dst.length = 2 * src.length ∧
    ∀ (i : Nat) (v : Byte), src[i]? = some v → ∃ hi lo : Byte, dst[2 * i]? = some hi ∧ dst[2 * i + 1]? = some lo ∧
      ∀ k, k < 4 → hi.getLsbD (2 * k) = v.getLsbD (k + 4) ∧ lo.getLsbD (2 * k) = v.getLsbD k ∧
        hi.getLsbD (2 * k + 1) = false ∧ lo.getLsbD (2 * k + 1) = false

/-- `MFM_DEC` (40_mfm_codec.md R122): each data byte from the data positions of its two bytes, clock positions
ignored; an odd payload is refused. The refusal and the missing clock check are the spec's decision D8. -/
def Obligations.MfmDecodeReadsDataBits : Prop :=
  ∀ (src : List Byte) (s : State),
    (src.length % 2 = 1 → exec (.mfmDec src) s = .next (s.setRet (.err .badOperand))) ∧
    (src.length % 2 = 0 → ∃ dst : List Byte,
      exec (.mfmDec src) s = .next (s.setRet (.ok (.bytes dst))) ∧ 2 * dst.length = src.length ∧
      ∀ (i : Nat) (hi lo : Byte), src[2 * i]? = some hi → src[2 * i + 1]? = some lo → ∃ v : Byte, dst[i]? = some v ∧
        ∀ k, k < 4 → v.getLsbD k = lo.getLsbD (2 * k) ∧ v.getLsbD (k + 4) = hi.getLsbD (2 * k))

/-- `MFM_ENCOE` and `MFM_DECOE` (40_mfm_codec.md R123, R124): the odd plane over the whole payload, then the even
plane; decoding joins the two and ignores clock positions; an odd payload is refused. That the odd plane comes first
and is bits 7, 5, 3, 1 is the spec's decision D9. -/
def Obligations.OddEvenPlanesSplitAndJoin : Prop :=
  (∀ (src : List Byte) (s : State), ∃ dst : List Byte,
    exec (.mfmEncoe src) s = .next (s.setRet (.ok (.bytes dst))) ∧ dst.length = 2 * src.length ∧
    ∀ (i : Nat) (v : Byte), src[i]? = some v → ∃ odd even : Byte,
      dst[i]? = some odd ∧ dst[src.length + i]? = some even ∧
      ∀ k, k < 4 → odd.getLsbD (2 * k) = v.getLsbD (2 * k + 1) ∧ even.getLsbD (2 * k) = v.getLsbD (2 * k) ∧
        odd.getLsbD (2 * k + 1) = false ∧ even.getLsbD (2 * k + 1) = false) ∧
  ∀ (src : List Byte) (s : State),
    (src.length % 2 = 1 → exec (.mfmDecoe src) s = .next (s.setRet (.err .badOperand))) ∧
    (∀ n, src.length = 2 * n → ∃ dst : List Byte,
      exec (.mfmDecoe src) s = .next (s.setRet (.ok (.bytes dst))) ∧ dst.length = n ∧
      ∀ (i : Nat) (odd even : Byte), i < n → src[i]? = some odd → src[n + i]? = some even →
        ∃ v : Byte, dst[i]? = some v ∧
          ∀ k, k < 4 → v.getLsbD (2 * k + 1) = odd.getLsbD (2 * k) ∧ v.getLsbD (2 * k) = even.getLsbD (2 * k))

/-- `MFM_CLK` (40_mfm_codec.md R125, R126): data positions are kept; a clock bit is 1 exactly where both neighbouring
data bits are 0, the neighbour of bit 7 being bit 0 of the byte before (of `prev` for the first byte). -/
def Obligations.ClockBitsFollowNeighbours : Prop :=
  ∀ (prev : Nat) (buf : List Byte) (s : State),
    (255 < prev → exec (.mfmClk prev buf) s = .next (s.setRet (.err .badOperand))) ∧
    (prev ≤ 255 → ∃ out : List Byte,
      exec (.mfmClk prev buf) s = .next (s.setRet (.ok (.bytes out))) ∧ out.length = buf.length ∧
      ∀ (i : Nat) (v w : Byte), buf[i]? = some v → out[i]? = some w →
        (∀ k, k < 4 → w.getLsbD (2 * k) = v.getLsbD (2 * k)) ∧
        (∀ k, k < 3 → w.getLsbD (2 * k + 1) = (!v.getLsbD (2 * k) && !v.getLsbD (2 * k + 2))) ∧
        (i = 0 → w.getLsbD 7 = (!v.getLsbD 6 && decide (prev % 2 = 0))) ∧
        (∀ (j : Nat) (u : Byte), i = j + 1 → out[j]? = some u → w.getLsbD 7 = (!v.getLsbD 6 && !u.getLsbD 0)))

/-- The laws of 40_mfm_codec.md R128 (1) to (5) and (7), about what the commands return: decoding undoes encoding with
and without clock bits, both ways of splitting; clock synthesis keeps the data positions and the length, is
idempotent, reads only bit 0 of `prev` and shows it only in bit 7 of its first byte; encoding undoes decoding but for the
clock positions; the two encoders double the length. The rule is the spec's own derivation. -/
def Obligations.MfmCodecsRoundTrip : Prop :=
  (∀ (x : List Byte) (p : Byte) (s : State),
    exec (.mfmEnc x) s = .next (s.setRet (.ok (.bytes (mfmEncode x)))) ∧
    exec (.mfmEncoe x) s = .next (s.setRet (.ok (.bytes (oddEvenEncode x)))) ∧
    exec (.mfmClk p.toNat x) s = .next (s.setRet (.ok (.bytes (addClocks p x)))) ∧
    (x.length % 2 = 0 → exec (.mfmDec x) s = .next (s.setRet (.ok (.bytes (mfmDecode x)))) ∧
      exec (.mfmDecoe x) s = .next (s.setRet (.ok (.bytes (oddEvenDecode x)))))) ∧
  ∀ (x z : List Byte) (p : Byte),
    mfmDecode (mfmEncode x) = x ∧ mfmDecode (addClocks p (mfmEncode x)) = x ∧
    oddEvenDecode (oddEvenEncode x) = x ∧ oddEvenDecode (addClocks p (oddEvenEncode x)) = x ∧
    (addClocks p z).map (fun b => b &&& 0x55) = z.map (fun b => b &&& 0x55) ∧
    addClocks p (addClocks p z) = addClocks p z ∧ addClocks p z = addClocks (p &&& 1) z ∧
    (addClocks p z).length = z.length ∧
    (∀ (q : Byte) (k : Nat) (u v : Byte), (addClocks p z)[k]? = some u → (addClocks q z)[k]? = some v →
      (k ≠ 0 → u = v) ∧ ∀ b, b < 7 → u.getLsbD b = v.getLsbD b) ∧
    (z.length % 2 = 0 → mfmEncode (mfmDecode z) = z.map (fun b => b &&& 0x55)) ∧
    (mfmEncode x).length = 2 * x.length ∧ (oddEvenEncode x).length = 2 * x.length

/-- The output of clock synthesis is self-synchronising (40_mfm_codec.md R128 (6)): in its stream, after the last bit
of the byte before, no two adjacent bits are 1 and no four are 0. The rule is the spec's own derivation. -/
def Obligations.ClockedStreamSelfSynchronises : Prop :=
  ∀ (p : Byte) (z : List Byte) (j : Nat),
    let bits := p.getLsbD 0 :: streamBits (addClocks p z)
    ¬ (bits[j]? = some true ∧ bits[j + 1]? = some true) ∧
    ¬ (bits[j]? = some false ∧ bits[j + 1]? = some false ∧ bits[j + 2]? = some false ∧ bits[j + 3]? = some false)

/-! ### Track storage -/

/-- `TRK_INIT` (41_track_storage.md R144): a new Disk on the stage with the layout's track length, its flags, and the
contents of a cleared Disk; an unknown or invalid layout and a `wp` that is no bool are refused. That a new Disk is a
cleared one is the spec's decision D17. -/
def Obligations.TrkInitStagesFreshDisk : Prop :=
  (∀ (s : State) (diameter density wp : Nat) (d : Diameter) (n : Density) (len : Nat),
    (diameter, density, d, n, len) ∈ [(0, 0, Diameter.inch35, Density.dd, 12668), (0, 1, .inch35, .hd, 24636),
      (1, 0, .inch525, .dd, 12668)] → wp ≤ 1 →
    ∃ D : Disk, exec (.trkInit diameter density wp) s = .next ((s.setStage (some D)).setRet (.ok .none)) ∧
      D.diameter = d ∧ D.density = n ∧ D.trackLen = len ∧ D.modified = false ∧ (D.writeProtected = true ↔ wp = 1) ∧
      ∀ t i, t < 168 → i < len → D.read s.cfg t i =
        if (d, n) ∈ s.cfg.magicSet ∧ i = 0 then s.cfg.magic0
        else if (d, n) ∈ s.cfg.magicSet ∧ i = 1 then s.cfg.magic1 else s.cfg.fill t i) ∧
  (∀ (s : State) (diameter density wp : Nat), 1 < wp →
    exec (.trkInit diameter density wp) s = .next (s.setRet (.err .badOperand))) ∧
  ∀ (s : State) (diameter density wp : Nat), wp ≤ 1 → (diameter, density) ∉ [(0, 0), (0, 1), (1, 0)] →
    exec (.trkInit diameter density wp) s = .next (s.setRet (.err .invalidLayout))

/-- `TRK_CLEAR` (41_track_storage.md R145): every byte of all 168 slots becomes `FILL`, the two magic bytes are
stamped for a Disk in `MAGIC_SET`, the Disk is marked modified, and nothing else of it changes. The mark is the spec's
decision D18. -/
def Obligations.TrkClearFillsEveryTrack : Prop :=
  ∀ (s : State) (slot : Sel) (D : Disk), s.diskAt slot = some D →
    ∃ D', exec (.trkClear slot.code) s = .next ((s.putDisk slot D').setRet (.ok .none)) ∧
      D' = { D with data := D'.data, modified := true } ∧
      ∀ t i, t < 168 → i < D.trackLen → D'.read s.cfg t i =
        if (D.diameter, D.density) ∈ s.cfg.magicSet ∧ i = 0 then s.cfg.magic0
        else if (D.diameter, D.density) ∈ s.cfg.magicSet ∧ i = 1 then s.cfg.magic1 else s.cfg.fill t i

/-- `TRK_RD8` (41_track_storage.md R148): the byte of a track at a byte offset; `E_RANGE` beyond the track. -/
def Obligations.TrkRd8ReturnsByte : Prop :=
  ∀ (s : State) (slot : Sel) (D : Disk) (t i : Nat), s.diskAt slot = some D →
    (t < D.numTracks → i < D.trackLen →
      exec (.trkRd8 slot.code t i) s = .next (s.setRet (.ok (.byte (D.read s.cfg t i))))) ∧
    (D.numTracks ≤ t ∨ D.trackLen ≤ i → exec (.trkRd8 slot.code t i) s = .next (s.setRet (.err .range)))

/-- `TRK_WR8` (41_track_storage.md R149, R143, R158 (2)): one byte of the selected Disk changes, and its modified mark,
whether or not it is write-protected; a value above 255 is refused first. That write protection is not consulted is
the spec's decision D16. -/
def Obligations.TrkWr8ChangesOneByte : Prop :=
  ∀ (s : State) (slot : Sel) (D : Disk) (t i v : Nat), s.diskAt slot = some D →
    (t < D.numTracks → i < D.trackLen → v ≤ 255 →
      ∃ D', exec (.trkWr8 slot.code t i v) s = .next ((s.putDisk slot D').setRet (.ok .none)) ∧
        D' = { D with data := D'.data, modified := true } ∧ (D'.read s.cfg t i).toNat = v ∧
        ∀ t' i', i' < D.trackLen → (t' ≠ t ∨ i' ≠ i) → D'.read s.cfg t' i' = D.read s.cfg t' i') ∧
    (255 < v → exec (.trkWr8 slot.code t i v) s = .next (s.setRet (.err .badOperand))) ∧
    (v ≤ 255 → (D.numTracks ≤ t ∨ D.trackLen ≤ i) →
      exec (.trkWr8 slot.code t i v) s = .next (s.setRet (.err .range)))

/-- `TRK_RDBIT` (41_track_storage.md R146): the bit at a stream offset, the most significant bit of a byte first
(20_memory.md R74, the spec's decision D5); `E_RANGE` beyond the track. -/
def Obligations.TrkRdbitReturnsStreamBit : Prop :=
  ∀ (s : State) (slot : Sel) (D : Disk) (t o : Nat), s.diskAt slot = some D →
    (t < D.numTracks → o < 8 * D.trackLen → ∃ b : BitVec 1,
      exec (.trkRdbit slot.code t o) s = .next (s.setRet (.ok (.bit b))) ∧
      b.getLsbD 0 = (D.read s.cfg t (o / 8)).getLsbD (7 - o % 8)) ∧
    (D.numTracks ≤ t ∨ 8 * D.trackLen ≤ o → exec (.trkRdbit slot.code t o) s = .next (s.setRet (.err .range)))

/-- `TRK_WRBIT` (41_track_storage.md R147): exactly the addressed bit gets the value; the other seven bits of its byte
and every other byte are kept; the modified mark is set. The bit order is the spec's decision D5. -/
def Obligations.TrkWrbitChangesOneBit : Prop :=
  ∀ (s : State) (slot : Sel) (D : Disk) (t o v : Nat), s.diskAt slot = some D →
    (t < D.numTracks → o < 8 * D.trackLen → v ≤ 1 →
      ∃ D', exec (.trkWrbit slot.code t o v) s = .next ((s.putDisk slot D').setRet (.ok .none)) ∧
        D' = { D with data := D'.data, modified := true } ∧
        (∀ k, k < 8 → (D'.read s.cfg t (o / 8)).getLsbD k =
          if k = 7 - o % 8 then decide (v = 1) else (D.read s.cfg t (o / 8)).getLsbD k) ∧
        ∀ t' i', i' < D.trackLen → (t' ≠ t ∨ i' ≠ o / 8) → D'.read s.cfg t' i' = D.read s.cfg t' i') ∧
    (1 < v → exec (.trkWrbit slot.code t o v) s = .next (s.setRet (.err .badOperand))) ∧
    (v ≤ 1 → (D.numTracks ≤ t ∨ 8 * D.trackLen ≤ o) →
      exec (.trkWrbit slot.code t o v) s = .next (s.setRet (.err .range)))

/-- `TRK_VIEW` and `TRK_SECT` (41_track_storage.md R150, R151): the bytes of a whole track, and of the sector window
of `SECTOR_STRIDE` bytes; a window that ends beyond the track is `E_RANGE`. -/
def Obligations.TrackViewsReturnWindows : Prop :=
  ∀ (s : State) (slot : Sel) (D : Disk) (t n : Nat), s.diskAt slot = some D →
    (t < D.numTracks → ∃ l : List Byte,
      exec (.trkView slot.code t) s = .next (s.setRet (.ok (.bytes l))) ∧ l.length = D.trackLen ∧
      ∀ k, k < D.trackLen → l[k]? = some (D.read s.cfg t k)) ∧
    (t < D.numTracks → (n + 1) * s.cfg.sectorStride ≤ D.trackLen → ∃ l : List Byte,
      exec (.trkSect slot.code t n) s = .next (s.setRet (.ok (.bytes l))) ∧ l.length = s.cfg.sectorStride ∧
      ∀ k, k < s.cfg.sectorStride → l[k]? = some (D.read s.cfg t (n * s.cfg.sectorStride + k))) ∧
    (D.numTracks ≤ t → exec (.trkView slot.code t) s = .next (s.setRet (.err .range)) ∧
      exec (.trkSect slot.code t n) s = .next (s.setRet (.err .range))) ∧
    (D.trackLen < (n + 1) * s.cfg.sectorStride → exec (.trkSect slot.code t n) s = .next (s.setRet (.err .range)))

/-- `TRK_CSUM`, `TRK_CSUMT` (41_track_storage.md R152, R153, R154): FNV-1a over the bytes of the addressable tracks in
track order, and over one track; the hash is the published recurrence. The width and what is hashed are the spec's
decision D13. -/
def Obligations.ChecksumsHashTracksInOrder : Prop :=
  (∀ (s : State) (slot : Sel) (D : Disk), s.diskAt slot = some D →
    ∃ l : List Byte, l.length = D.numTracks * D.trackLen ∧
      (∀ t i, t < D.numTracks → i < D.trackLen → l[t * D.trackLen + i]? = some (D.read s.cfg t i)) ∧
      exec (.trkCsum slot.code) s = .next (s.setRet (.ok (.num (fnv1a s.cfg.hashWidth l))))) ∧
  (∀ (s : State) (slot : Sel) (D : Disk) (t : Nat), s.diskAt slot = some D →
    (t < D.numTracks → ∃ l : List Byte, l.length = D.trackLen ∧
      (∀ i, i < D.trackLen → l[i]? = some (D.read s.cfg t i)) ∧
      exec (.trkCsumt slot.code t) s = .next (s.setRet (.ok (.num (fnv1a s.cfg.hashWidth l))))) ∧
    (D.numTracks ≤ t → exec (.trkCsumt slot.code t) s = .next (s.setRet (.err .range)))) ∧
  fnv1a .w64 [] = 0xCBF29CE484222325 ∧ fnv1a .w32 [] = 0x811C9DC5 ∧
  ∀ (l : List Byte) (x : Byte),
    fnv1a .w64 (l ++ [x]) = ((fnv1a .w64 l ^^^ x.toNat) * 0x100000001B3) % 2 ^ 64 ∧
    fnv1a .w32 (l ++ [x]) = ((fnv1a .w32 l ^^^ x.toNat) * 0x01000193) % 2 ^ 32

/-- `TRK_STAT` and `TRK_SETFLAGS` (41_track_storage.md R155, R156): the status byte holds the two flags, and the two
flags are set to the operands, with no other part of the Disk changed; an operand that is no bool, and a slot with no
Disk, are refused. -/
def Obligations.TrackFlagsReadAndSet : Prop :=
  ∀ (s : State) (slot : Sel) (m p : Nat),
    (∀ D, s.diskAt slot = some D →
      (∃ v : Byte, exec (.trkStat slot.code) s = .next (s.setRet (.ok (.byte v))) ∧
        v.getLsbD 0 = D.modified ∧ v.getLsbD 1 = D.writeProtected ∧ ∀ k, 2 ≤ k → v.getLsbD k = false) ∧
      (m ≤ 1 → p ≤ 1 → exec (.trkSetflags slot.code m p) s =
        .next ((s.putDisk slot { D with modified := decide (m = 1), writeProtected := decide (p = 1) }).setRet
          (.ok .none)))) ∧
    (1 < m ∨ 1 < p → exec (.trkSetflags slot.code m p) s = .next (s.setRet (.err .badOperand))) ∧
    (s.diskAt slot = none → exec (.trkStat slot.code) s = .next (s.setRet (.err .noDevice)) ∧
      (m ≤ 1 → p ≤ 1 → exec (.trkSetflags slot.code m p) s = .next (s.setRet (.err .noDevice))))

/-- Every command of track storage that selects a Disk answers `E_NO_DEVICE` when the slot is empty, before its
addressing checks (41_track_storage.md R140, 60_exceptions.md R303 (2)), and `E_BAD_OPERAND` for a selector that is no
slot (30_encoding.md R103 (3)); a 3.5 inch Disk has 168 addressable tracks, a 5.25 inch one 84 (41_track_storage.md
R141, the spec's decision D19). -/
def Obligations.EmptySlotAnswersNoDevice : Prop :=
  (∀ (s : State) (slot : Sel) (t i v : Nat), s.diskAt slot = none →
    (∀ c ∈ [Instr.trkClear slot.code, .trkRdbit slot.code t i, .trkRd8 slot.code t i, .trkView slot.code t,
      .trkSect slot.code t i, .trkCsum slot.code, .trkCsumt slot.code t, .trkStat slot.code],
      exec c s = .next (s.setRet (.err .noDevice))) ∧
    (v ≤ 1 → exec (.trkWrbit slot.code t i v) s = .next (s.setRet (.err .noDevice))) ∧
    (v ≤ 255 → exec (.trkWr8 slot.code t i v) s = .next (s.setRet (.err .noDevice)))) ∧
  (∀ (s : State) (n t i v : Nat), 1 < n →
    ∀ c ∈ [Instr.trkClear n, .trkRdbit n t i, .trkWrbit n t i v, .trkRd8 n t i, .trkWr8 n t i v, .trkView n t,
      .trkSect n t i, .trkCsum n, .trkCsumt n t, .trkStat n, .trkSetflags n i v],
      exec c s = .next (s.setRet (.err .badOperand))) ∧
  ∀ D : Disk, (D.diameter = .inch35 → D.numTracks = 168) ∧ (D.diameter = .inch525 → D.numTracks = 84)

/-! ### The floppy drive -/

/-- `FDD_MOTOR` (42_drive_mechanics.md R171): a transition sets the motor and stamps the time; a command that changes
nothing leaves the stamp (the spec's decision D26); an operand that is no bool is refused. `FDD_SPEED` (R172): a linear
ramp from the last transition, in whole percent, 100 exactly when the ramp-up time has passed and 0 exactly when the
ramp-down time has (decision D20). -/
def Obligations.MotorStampsTransitionsAndSpeedRamps : Prop :=
  (∀ (s : State) (on : Nat),
    (on ≤ 1 → s.fdd.motorOn ≠ decide (on = 1) → exec (.fddMotor on) s =
      .next ((s.setFdd { s.fdd with motorOn := decide (on = 1), motorSwitchTs := some s.now }).setRet (.ok .none))) ∧
    (on ≤ 1 → s.fdd.motorOn = decide (on = 1) → exec (.fddMotor on) s = .next (s.setRet (.ok .none))) ∧
    (1 < on → exec (.fddMotor on) s = .next (s.setRet (.err .badOperand)))) ∧
  ∀ s : State,
    (s.fdd.motorOn = false → s.fdd.motorSwitchTs = none → exec .fddSpeed s = .next (s.setRet (.ok (.num 0)))) ∧
    ∀ ts, s.fdd.motorSwitchTs = some ts → ts ≤ s.now → 0 < s.cfg.rampUp → 0 < s.cfg.rampDown →
      ∃ n, exec .fddSpeed s = .next (s.setRet (.ok (.num n))) ∧ n ≤ 100 ∧
        (s.fdd.motorOn = true → n = min 100 (100 * (s.now - ts) / s.cfg.rampUp) ∧
          (n = 100 ↔ ts + s.cfg.rampUp ≤ s.now)) ∧
        (s.fdd.motorOn = false → n = 100 - min 100 (100 * (s.now - ts) / s.cfg.rampDown) ∧
          (n = 0 ↔ ts + s.cfg.rampDown ≤ s.now))

/-- `FDD_STEP` (42_drive_mechanics.md R180, R181, R184, R185): every pulse updates the latch; an early pulse does
nothing else; an accepted one is stamped and moves the head one cylinder within the limits, recording the new cylinder
in the history. The limits and the order of the latch update are the spec's decision D29. That an early pulse stamps
nothing is the model's choice of R180 against the wording of 60_exceptions.md, which calls such a pulse accepted
(notes/assumptions/16.md). -/
def Obligations.StepPulseMovesHeadAndLatch : Prop :=
  (∀ (s : State) (n : Nat), 1 < n → exec (.fddStep n) s = .next (s.setRet (.err .badOperand))) ∧
  ∀ s : State,
    let f := s.fdd
    let latch := f.dskChange && f.disk.isSome && s.cfg.pollPattern f.cylHistory
    (¬ s.StepSpaced → ∀ d : Dir,
      exec (.fddStep d.code) s = .next ((s.setFdd { f with dskChange := latch }).setRet (.ok (.bool false)))) ∧
    (s.StepSpaced → f.head.cyl < s.cfg.maxCyl → exec (.fddStep 1) s =
      .next ((s.setFdd { f with
        dskChange := latch, latestStepUp := some s.now, head := { f.head with cyl := f.head.cyl + 1 },
        cylHistory := ((f.head.cyl + 1) :: f.cylHistory).take s.cfg.histDepth }).setRet (.ok (.bool true)))) ∧
    (s.StepSpaced → s.cfg.maxCyl ≤ f.head.cyl → exec (.fddStep 1) s =
      .next ((s.setFdd { f with dskChange := latch, latestStepUp := some s.now }).setRet (.ok (.bool false)))) ∧
    (∀ c, s.StepSpaced → f.head.cyl = c + 1 → exec (.fddStep 0) s =
      .next ((s.setFdd { f with
        dskChange := latch, latestStepDown := some s.now, head := { f.head with cyl := c },
        cylHistory := (c :: f.cylHistory).take s.cfg.histDepth }).setRet (.ok (.bool true)))) ∧
    (s.StepSpaced → f.head.cyl = 0 → exec (.fddStep 0) s =
      .next ((s.setFdd { f with dskChange := latch, latestStepDown := some s.now }).setRet (.ok (.bool false))))

/-- `FDD_RDYUP`, `FDD_RDYDN`, `FDD_POLLS` (42_drive_mechanics.md R182, R183, R186): ready exactly when no accepted
pulse of either direction lies less than `STEP_DELAY` cycles back (decision D21); polling exactly when the history
shows the configured pattern, by default four visits that alternate between two neighbours (decision D23). -/
def Obligations.ReadinessAndPollingAnswer : Prop :=
  ∀ s : State,
    (∃ b, exec .fddRdyup s = .next (s.setRet (.ok (.bool b))) ∧ exec .fddRdydn s = .next (s.setRet (.ok (.bool b))) ∧
      (b = true ↔ s.StepSpaced)) ∧
    ∃ p, exec .fddPolls s = .next (s.setRet (.ok (.bool p))) ∧
      (s.cfg.pollTable = none → (p = true ↔ ∃ (x y : Nat) (rest : List Nat),
        s.fdd.cylHistory = x :: y :: x :: y :: rest ∧ (x = y + 1 ∨ y = x + 1))) ∧
      ∀ table, s.cfg.pollTable = some table → (p = true ↔ s.fdd.cylHistory ∈ table)

/-- `FDD_SIDE` and `FDD_POS` (42_drive_mechanics.md R188, R187): the side is set and nothing else, a side above 1 is
refused, and the position is returned as it stands. `FDD_SIDE` is the spec's decision D25. -/
def Obligations.SideSelectsHeadAndPosReads : Prop :=
  ∀ (s : State) (n : Nat),
    (n ≤ 1 → exec (.fddSide n) s =
      .next ((s.setFdd { s.fdd with head := { s.fdd.head with head := n } }).setRet (.ok .none))) ∧
    (1 < n → exec (.fddSide n) s = .next (s.setRet (.err .badOperand))) ∧
    exec .fddPos s = .next (s.setRet (.ok (.triple s.fdd.head.cyl s.fdd.head.head s.fdd.head.offset)))

/-- `FDD_STAT` (42_drive_mechanics.md R199, 10_state.md R60): each bit of the status byte; bits 2 and 4 are 0 on an
empty drive, bits 6 and 7 always. -/
def Obligations.DriveStatusBits : Prop :=
  ∀ s : State, ∃ v : Byte, exec .fddStat s = .next (s.setRet (.ok (.byte v))) ∧
    v.getLsbD 0 = s.fdd.disk.isSome ∧ v.getLsbD 1 = s.fdd.dskChange ∧
    v.getLsbD 2 = s.fdd.disk.any (fun D => D.writeProtected) ∧ v.getLsbD 3 = s.fdd.motorOn ∧
    v.getLsbD 4 = s.fdd.disk.any (fun D => D.modified) ∧ v.getLsbD 5 = s.fdd.pending.isSome ∧
    ∀ k, 6 ≤ k → v.getLsbD k = false

/-- `FDD_ROT` (42_drive_mechanics.md R189, R202 (1)): the cursor goes one byte on and wraps at the end of the inserted
Disk's track; as many rotations as the track has bytes bring it back; an empty drive answers `E_NO_DEVICE` (decision
D28). -/
def Obligations.RotationWrapsAtTrackEnd : Prop :=
  ∀ s : State,
    (s.fdd.disk = none → exec .fddRot s = .next (s.setRet (.err .noDevice))) ∧
    ∀ D, s.fdd.disk = some D →
      exec .fddRot s = .next ((s.setFdd { s.fdd with
        head := { s.fdd.head with offset := (s.fdd.head.offset + 1) % D.trackLen } }).setRet (.ok .none)) ∧
      (s.fdd.head.offset < D.trackLen →
        execAll (List.replicate D.trackLen .fddRot) s = .next (s.setRet (.ok .none)))

/-- `FDD_RD8R` (42_drive_mechanics.md R191): the byte under the head, then the cursor one byte on with wrap. -/
def Obligations.DriveReadReturnsByteThenAdvances : Prop :=
  ∀ s : State, s.Inv →
    (s.fdd.disk = none → exec .fddRd8r s = .next (s.setRet (.err .noDevice))) ∧
    ∀ D, s.fdd.disk = some D →
      exec .fddRd8r s = .next ((s.setFdd { s.fdd with
        head := { s.fdd.head with offset := (s.fdd.head.offset + 1) % D.trackLen } }).setRet
          (.ok (.byte (D.read s.cfg (2 * s.fdd.head.cyl + s.fdd.head.head) s.fdd.head.offset))))

/-- `FDD_WR8R` (42_drive_mechanics.md R192): on an unprotected Disk the byte under the head changes and the Disk is
marked; on a protected one nothing of it changes; in both cases the cursor advances and the answer is `Ok`. -/
def Obligations.DriveWriteHonoursProtection : Prop :=
  ∀ (s : State) (v : Nat), s.Inv →
    (255 < v → exec (.fddWr8r v) s = .next (s.setRet (.err .badOperand))) ∧
    (v ≤ 255 → s.fdd.disk = none → exec (.fddWr8r v) s = .next (s.setRet (.err .noDevice))) ∧
    (v ≤ 255 → ∀ D, s.fdd.disk = some D → ∃ D',
      exec (.fddWr8r v) s = .next ((s.setFdd { s.fdd with
        disk := some D'
        head := { s.fdd.head with offset := (s.fdd.head.offset + 1) % D.trackLen } }).setRet (.ok .none)) ∧
      (D.writeProtected = true → D' = D) ∧
      (D.writeProtected = false → D' = { D with data := D'.data, modified := true } ∧
        (D'.read s.cfg (2 * s.fdd.head.cyl + s.fdd.head.head) s.fdd.head.offset).toNat = v ∧
        ∀ t i, i < D.trackLen → (t ≠ 2 * s.fdd.head.cyl + s.fdd.head.head ∨ i ≠ s.fdd.head.offset) →
          D'.read s.cfg t i = D.read s.cfg t i))

/-- `FDD_SYNC` (42_drive_mechanics.md R193): the cursor goes behind the first sync mark found within one turn from the
cursor, the mark being allowed to straddle the track's end; with no mark on the track nothing changes. The mark's
bytes and the cursor's end place are the spec's decision D24. -/
def Obligations.SyncFindsFirstMarkWithinOneTurn : Prop :=
  ∀ s : State, s.Inv →
    (s.fdd.disk = none → exec .fddSync s = .next (s.setRet (.err .noDevice))) ∧
    ∀ D, s.fdd.disk = some D →
      let t := 2 * s.fdd.head.cyl + s.fdd.head.head
      let mark := fun k => D.read s.cfg t ((s.fdd.head.offset + k) % D.trackLen) = s.cfg.syncHi ∧
        D.read s.cfg t ((s.fdd.head.offset + k + 1) % D.trackLen) = s.cfg.syncLo
      (∀ k, k < D.trackLen → mark k → (∀ j, j < k → ¬ mark j) →
        exec .fddSync s = .next ((s.setFdd { s.fdd with
          head := { s.fdd.head with offset := (s.fdd.head.offset + k + 2) % D.trackLen } }).setRet
            (.ok (.bool true)))) ∧
      ((∀ k, k < D.trackLen → ¬ mark k) → exec .fddSync s = .next (s.setRet (.ok (.bool false))))

/-- `FDD_INS` and `FDD_EJ` (42_drive_mechanics.md R194, R195, R196): the one pending slot holds the new request,
whatever it held, and the staged Disk leaves the stage; an empty stage and a Disk of the other diameter are refused
(decisions D22, D38). -/
def Obligations.DiskChangeRequestsReplacePending : Prop :=
  ∀ (s : State) (delay : Nat),
    (s.stage = none → exec (.fddIns delay) s = .next (s.setRet (.err .noDevice))) ∧
    (∀ D, s.stage = some D → D.diameter ≠ s.cfg.driveDiameter →
      exec (.fddIns delay) s = .next (s.setRet (.err .incompatible))) ∧
    (∀ D, s.stage = some D → D.diameter = s.cfg.driveDiameter →
      exec (.fddIns delay) s = .next (((s.setFdd { s.fdd with
        pending := some { change := .insert D, dueAt := s.now + delay } }).setStage none).setRet (.ok .none))) ∧
    exec (.fddEj delay) s = .next ((s.setFdd { s.fdd with
      pending := some { change := .eject, dueAt := s.now + delay } }).setRet (.ok .none))

/-- `TICK` (42_drive_mechanics.md R200, R197, R198, 43_hard_disk.md R219): the time advances by one; a pending change
fires exactly when it is due; the hard disk returns to Idle exactly when it is due; nothing else changes (decisions D2,
D38). -/
def Obligations.TickFiresDueEvents : Prop :=
  ∀ s : State, ∃ (f' : Fdd) (h' : Option HardDisk),
    exec .tick s = .next ((((s.setNow (s.now + 1)).setFdd f').setHd h').setRet (.ok .none)) ∧
    (s.fdd.pending = none → f' = s.fdd) ∧
    (∀ p, s.fdd.pending = some p → s.now + 1 < p.dueAt → f' = s.fdd) ∧
    (∀ D due, s.fdd.pending = some { change := .insert D, dueAt := due } → due ≤ s.now + 1 →
      f' = { s.fdd with
        disk := some D, dskChange := s.fdd.dskChange || s.fdd.disk.isSome, pending := none,
        head := { s.fdd.head with offset := if s.fdd.head.offset < D.trackLen then s.fdd.head.offset else 0 } }) ∧
    (∀ due, s.fdd.pending = some { change := .eject, dueAt := due } → due ≤ s.now + 1 →
      f' = { s.fdd with disk := none, dskChange := s.fdd.dskChange || s.fdd.disk.isSome, pending := none }) ∧
    (s.hd = none → h' = none) ∧
    ∀ h, s.hd = some h →
      (∀ due, h.idleDue = some due → due ≤ s.now + 1 → h' = some { h with state := .idle, idleDue := none }) ∧
      ((∀ due, h.idleDue = some due → s.now + 1 < due) → h' = some h)

/-- A requested insertion completes at the `TICK` at which its delay has passed, at the next one for delay 0, and not
before (42_drive_mechanics.md R200, R194, R197; 20_memory.md R86 (b)). -/
def Obligations.InsertionCompletesWhenDue : Prop :=
  ∀ (s : State) (D : Disk) (delay m : Nat), s.stage = some D → D.diameter = s.cfg.driveDiameter →
    ∃ t, execAll (.fddIns delay :: List.replicate m .tick) s = .next t ∧ t.now = s.now + m ∧ t.stage = none ∧
      (m < max 1 delay → t.fdd.disk = s.fdd.disk ∧ t.fdd.dskChange = s.fdd.dskChange ∧
        t.fdd.pending = some { change := .insert D, dueAt := s.now + delay }) ∧
      (max 1 delay ≤ m → t.fdd.disk = some D ∧ t.fdd.pending = none ∧
        t.fdd.dskChange = (s.fdd.dskChange || s.fdd.disk.isSome))

/-! ### The hard disk -/

/-- `HDD_INIT` (43_hard_disk.md R210, R232): a store of the given geometry, with the image's bytes or zeros, one
default partition, all blocks dirty, Idle; the checks in their order. Zero fill and the default partition's fields
are the spec's decisions D42 and D39. -/
def Obligations.HddInitBuildsStore : Prop :=
  ∀ (s : State) (c n k b : Nat) (image : List Byte),
    let g : HdGeometry := { cylinders := c, heads := n, sectors := k, bsize := b }
    (c = 0 ∨ n = 0 ∨ k = 0 ∨ b = 0 → exec (.hddInit c n k b image) s = .next (s.setRet (.err .badOperand))) ∧
    (c ≠ 0 → n ≠ 0 → k ≠ 0 → b ≠ 0 →
      (b ≠ 512 → exec (.hddInit c n k b image) s = .next (s.setRet (.err .blockSize))) ∧
      (b = 512 → s.cfg.geometryOk g = false →
        exec (.hddInit c n k b image) s = .next (s.setRet (.err .geometryUnsupported))) ∧
      (b = 512 → s.cfg.geometryOk g = true → image ≠ [] → image.length ≠ c * n * k * b →
        exec (.hddInit c n k b image) s = .next (s.setRet (.err .badOperand))) ∧
      (b = 512 → s.cfg.geometryOk g = true → (image = [] ∨ image.length = c * n * k * b) → ∃ h : HardDisk,
        exec (.hddInit c n k b image) s = .next ((s.setHd (some h)).setRet (.ok .none)) ∧
        h.geometry = g ∧ h.drivers = [] ∧ h.state = .idle ∧ h.idleDue = none ∧
        h.ptable = [{ name := [], dosType := 0, lowCylinder := 0, highCylinder := c - 1, bootable := false }] ∧
        h.head = { cyl := 0, head := 0, offset := 0 } ∧ h.writeProtected = false ∧ h.modified = false ∧
        h.dirty.length = c * n * k ∧ (∀ j, j < c * n * k → h.dirty[j]? = some true) ∧
        h.buf.len = c * n * k * b ∧ ∀ a, a < c * n * k * b → h.buf.byte a = image.getD a 0))

/-- `HDD_DISC` (43_hard_disk.md R211) drops the hard disk; and with none connected every command of the unit but
`HDD_INIT` and `HDD_STAT` answers `E_NO_DEVICE`, once its operands and payload are of their types (43_hard_disk.md
R209, 60_exceptions.md R303). `HDD_FMT` and `HDD_SETPT` answer so for every payload, a malformed partition list too
(notes/assumptions/12.md); a payload of `HDD_WRBLK` that is not 512 bytes is refused before the device is looked for
(notes/assumptions/7.md). -/
def Obligations.DisconnectedHardDiskAnswersNoDevice : Prop :=
  (∀ (s : State) (h : HardDisk), s.hd = some h →
    exec .hddDisc s = .next ((s.setHd none).setRet (.ok .none))) ∧
  ∀ s : State, s.hd = none →
    (∀ (o n a b m p : Nat) (v w : List Byte), m ≤ 1 → p ≤ 1 → v.length = 512 →
      ∀ i ∈ [Instr.hddDisc, .hddRead o n a, .hddWrite o n a, .hddRdblk b, .hddWrblk b v, .hddChgeo o n a b,
        .hddFmt b w, .hddStat2, .hddSetflags m p, .hddDirty b, .hddClrdirty b, .hddSetpt w, .hddGeo],
        exec i s = .next (s.setRet (.err .noDevice))) ∧
    (∀ (b : Nat) (v : List Byte), v.length ≠ 512 → exec (.hddWrblk b v) s = .next (s.setRet (.err .badOperand))) ∧
    exec .hddStat s = .next (s.setRet (.ok (.byte 0)))

/-- Request verification (43_hard_disk.md R212): the four checks in their order, for reads and writes alike, and a
request that fails one changes nothing. The order is the spec's decision D32. -/
def Obligations.RequestsAreVerifiedInOrder : Prop :=
  ∀ (s : State) (h : HardDisk) (o n a : Nat) (i : Instr), s.hd = some h →
    (i = .hddRead o n a ∨ i = .hddWrite o n a) →
    (n % h.geometry.bsize ≠ 0 → exec i s = .next (s.setRet (.err .badLength))) ∧
    (n % h.geometry.bsize = 0 → o % h.geometry.bsize ≠ 0 → exec i s = .next (s.setRet (.err .badOffset))) ∧
    (n % h.geometry.bsize = 0 → o % h.geometry.bsize = 0 → h.geometry.numBytes < o + n →
      exec i s = .next (s.setRet (.err .range))) ∧
    (n % h.geometry.bsize = 0 → o % h.geometry.bsize = 0 → o + n ≤ h.geometry.numBytes →
      s.cfg.hostMemValid a n = false → exec i s = .next (s.setRet (.err .badMem)))

/-- `HDD_READ` (43_hard_disk.md R215, R213, R219): the bytes of the range go to host memory in order, no other byte of
it changes, the state is Reading with a fresh settle delay, and the head shows the first block. The head is the spec's
decision D49. -/
def Obligations.HddReadCopiesToHostMemory : Prop :=
  ∀ (s : State) (h : HardDisk) (o n a : Nat), s.hd = some h → h.Wf → n % 512 = 0 → o % 512 = 0 →
    o + n ≤ h.geometry.numBytes → s.cfg.hostMemValid a n = true →
    ∃ (m : Memory) (head : DriveHead),
      exec (.hddRead o n a) s = .next (((s.setHostMem m).setHd (some { h with
        state := .reading, idleDue := some (s.now + s.cfg.hdSettle), head := head })).setRet (.ok .none)) ∧
      (∀ k, k < n → m.read zeroByte (a + k) = h.buf.byte (o + k)) ∧
      (∀ x, (x < a ∨ a + n ≤ x) → m.read zeroByte x = s.hostMem.read zeroByte x) ∧
      (o < h.geometry.numBytes → head =
        { cyl := o / 512 / h.geometry.sectors / h.geometry.heads
          head := o / 512 / h.geometry.sectors % h.geometry.heads
          offset := o / 512 % h.geometry.sectors }) ∧
      (h.geometry.numBytes ≤ o → head = h.head)

/-- `HDD_WRITE` (43_hard_disk.md R216, R214, R213, R219): a real write stores the host's bytes, marks the covered
blocks and the device, and changes no other byte or mark; an empty request and one on a write-protected device change
none; the state is Writing with a fresh settle delay in every accepted case. The head is the spec's decision D49. -/
def Obligations.HddWriteStoresRealWritesOnly : Prop :=
  ∀ (s : State) (h : HardDisk) (o n a : Nat), s.hd = some h → h.Wf → n % 512 = 0 → o % 512 = 0 →
    o + n ≤ h.geometry.numBytes → s.cfg.hostMemValid a n = true →
    ∃ (buf : Buffer) (dirty : List Bool) (modified : Bool) (head : DriveHead),
      exec (.hddWrite o n a) s = .next ((s.setHd (some { h with
        buf := buf, dirty := dirty, modified := modified, state := .writing
        idleDue := some (s.now + s.cfg.hdSettle), head := head })).setRet (.ok .none)) ∧
      (h.writeProtected = true ∨ n = 0 → buf = h.buf ∧ dirty = h.dirty ∧ modified = h.modified) ∧
      (h.writeProtected = false → 0 < n → modified = true ∧ buf.len = h.buf.len ∧
        (∀ k, k < n → buf.byte (o + k) = s.hostMem.read zeroByte (a + k)) ∧
        (∀ x, (x < o ∨ o + n ≤ x) → buf.byte x = h.buf.byte x) ∧
        dirty.length = h.dirty.length ∧
        ∀ blk, blk < h.dirty.length →
          dirty[blk]? = if o / 512 ≤ blk ∧ blk < (o + n) / 512 then some true else h.dirty[blk]?) ∧
      (o < h.geometry.numBytes → head =
        { cyl := o / 512 / h.geometry.sectors / h.geometry.heads
          head := o / 512 / h.geometry.sectors % h.geometry.heads
          offset := o / 512 % h.geometry.sectors }) ∧
      (h.geometry.numBytes ≤ o → head = h.head)

/-- `HDD_RDBLK` and `HDD_WRBLK` (43_hard_disk.md R217, R218): one block of the buffer, outside the state machine; a
write marks its block and the device, and is skipped on a write-protected device; a block outside the device is
`E_RANGE`, a payload of another length than 512 `E_BAD_OPERAND` before that. That neither passes through the state
machine is the spec's decision D37. -/
def Obligations.BlockAccessBypassesStateMachine : Prop :=
  ∀ (s : State) (h : HardDisk) (blk : Nat) (v : List Byte), s.hd = some h → h.Wf →
    (blk < h.geometry.numBlocks → ∃ l : List Byte,
      exec (.hddRdblk blk) s = .next (s.setRet (.ok (.bytes l))) ∧ l.length = 512 ∧
      ∀ k, k < 512 → l[k]? = some (h.buf.byte (blk * 512 + k))) ∧
    (h.geometry.numBlocks ≤ blk → exec (.hddRdblk blk) s = .next (s.setRet (.err .range))) ∧
    (v.length ≠ 512 → exec (.hddWrblk blk v) s = .next (s.setRet (.err .badOperand))) ∧
    (v.length = 512 → h.geometry.numBlocks ≤ blk → exec (.hddWrblk blk v) s = .next (s.setRet (.err .range))) ∧
    (v.length = 512 → blk < h.geometry.numBlocks → h.writeProtected = true →
      exec (.hddWrblk blk v) s = .next (s.setRet (.ok .none))) ∧
    (v.length = 512 → blk < h.geometry.numBlocks → h.writeProtected = false →
      ∃ (buf : Buffer) (dirty : List Bool),
        exec (.hddWrblk blk v) s = .next ((s.setHd (some { h with
          buf := buf, dirty := dirty, modified := true })).setRet (.ok .none)) ∧
        buf.len = h.buf.len ∧ (∀ k, k < 512 → v[k]? = some (buf.byte (blk * 512 + k))) ∧
        (∀ x, (x < blk * 512 ∨ blk * 512 + 512 ≤ x) → buf.byte x = h.buf.byte x) ∧
        dirty.length = h.dirty.length ∧
        ∀ j, j < h.dirty.length → dirty[j]? = if j = blk then some true else h.dirty[j]?)

/-- What an accepted write stored, a read of the same range delivers (43_hard_disk.md R231 (3)). -/
def Obligations.ReadDeliversWhatWriteStored : Prop :=
  ∀ (s : State) (h : HardDisk) (o n a a' : Nat), s.hd = some h → h.Wf → h.writeProtected = false →
    n % 512 = 0 → o % 512 = 0 → o + n ≤ h.geometry.numBytes →
    s.cfg.hostMemValid a n = true → s.cfg.hostMemValid a' n = true →
    ∃ t, execAll [.hddWrite o n a, .hddRead o n a'] s = .next t ∧
      ∀ k, k < n → t.hostMem.read zeroByte (a' + k) = s.hostMem.read zeroByte (a + k)

/-- `HDD_CHGEO` (43_hard_disk.md R220): the geometry, one default partition and the zeroed head, and nothing else,
when the capacity stays; the checks in their order. The table's and the head's reset are the spec's decision D39. -/
def Obligations.GeometryChangeKeepsCapacityAndData : Prop :=
  ∀ (s : State) (h : HardDisk) (c n k b : Nat), s.hd = some h →
    let g : HdGeometry := { cylinders := c, heads := n, sectors := k, bsize := b }
    (c = 0 ∨ n = 0 ∨ k = 0 ∨ b = 0 → exec (.hddChgeo c n k b) s = .next (s.setRet (.err .badOperand))) ∧
    (c ≠ 0 → n ≠ 0 → k ≠ 0 → b ≠ 0 →
      (b ≠ 512 → exec (.hddChgeo c n k b) s = .next (s.setRet (.err .blockSize))) ∧
      (b = 512 → c * n * k * b ≠ h.geometry.numBytes →
        exec (.hddChgeo c n k b) s = .next (s.setRet (.err .geometryMismatch))) ∧
      (b = 512 → c * n * k * b = h.geometry.numBytes → s.cfg.geometryOk g = false →
        exec (.hddChgeo c n k b) s = .next (s.setRet (.err .geometryUnsupported))) ∧
      (b = 512 → c * n * k * b = h.geometry.numBytes → s.cfg.geometryOk g = true →
        exec (.hddChgeo c n k b) s = .next ((s.setHd (some { h with
          geometry := g, head := { cyl := 0, head := 0, offset := 0 }
          ptable := [{ name := [], dosType := 0, lowCylinder := 0, highCylinder := c - 1,
                       bootable := false }] })).setRet (.ok .none))))

/-- `HDD_FMT` (43_hard_disk.md R221): `NODOS` changes nothing; a file system whose empty image fits replaces the whole
buffer and marks every block and the device, write-protected or not; any other is refused. That write protection and
the state machine are not consulted is the spec's decision D36. -/
def Obligations.FormatReplacesBuffer : Prop :=
  ∀ (s : State) (h : HardDisk) (fs : Nat) (name : List Byte), s.hd = some h →
    (fs = 0 → exec (.hddFmt fs name) s = .next (s.setRet (.ok .none))) ∧
    (fs ≠ 0 → (∀ img, s.cfg.emptyFsImage fs name h.geometry = some img → img.length ≠ h.geometry.numBytes) →
      exec (.hddFmt fs name) s = .next (s.setRet (.err .badOperand))) ∧
    (∀ img, fs ≠ 0 → s.cfg.emptyFsImage fs name h.geometry = some img → img.length = h.geometry.numBytes →
      ∃ (buf : Buffer) (dirty : List Bool),
        exec (.hddFmt fs name) s = .next ((s.setHd (some { h with
          buf := buf, dirty := dirty, modified := true })).setRet (.ok .none)) ∧
        buf.len = h.geometry.numBytes ∧ (∀ k, k < img.length → img[k]? = some (buf.byte k)) ∧
        dirty.length = h.dirty.length ∧ ∀ j, j < h.dirty.length → dirty[j]? = some true)

/-- `HDD_STAT`, `HDD_STAT2`, `HDD_GEO`, `HDD_SETFLAGS` (43_hard_disk.md R222, R223, R229, R224) on a connected hard
disk: the bits of the status byte, the head, the geometry, and the two flags set to the operands; an operand that is no
bool is refused, connected or not. -/
def Obligations.HardDiskStatusAndFlags : Prop :=
  (∀ (s : State) (h : HardDisk), s.hd = some h →
    (∃ v : Byte, exec .hddStat s = .next (s.setRet (.ok (.byte v))) ∧
      v.getLsbD 0 = decide (h.state = .reading) ∧ v.getLsbD 1 = decide (h.state = .writing) ∧
      v.getLsbD 2 = h.writeProtected ∧ v.getLsbD 3 = h.modified ∧ v.getLsbD 4 = true ∧
      ∀ k, 5 ≤ k → v.getLsbD k = false) ∧
    exec .hddStat2 s = .next (s.setRet (.ok (.triple h.head.cyl h.head.head h.head.offset))) ∧
    exec .hddGeo s = .next (s.setRet (.ok
      (.quad h.geometry.cylinders h.geometry.heads h.geometry.sectors h.geometry.bsize))) ∧
    ∀ m p, m ≤ 1 → p ≤ 1 → exec (.hddSetflags m p) s = .next ((s.setHd (some { h with
      modified := decide (m = 1), writeProtected := decide (p = 1) })).setRet (.ok .none))) ∧
  (∀ s : State, s.hd = none → exec .hddStat s = .next (s.setRet (.ok (.byte 0))) ∧
    exec .hddStat2 s = .next (s.setRet (.err .noDevice)) ∧ exec .hddGeo s = .next (s.setRet (.err .noDevice)) ∧
    ∀ m p, m ≤ 1 → p ≤ 1 → exec (.hddSetflags m p) s = .next (s.setRet (.err .noDevice))) ∧
  ∀ (s : State) (m p : Nat), 1 < m ∨ 1 < p → exec (.hddSetflags m p) s = .next (s.setRet (.err .badOperand))

/-- `HDD_DIRTY` and `HDD_CLRDIRTY` (43_hard_disk.md R227, R228): one dirty bit is read; one is cleared, or all with the
operand `0xFFFFFFFF`, and nothing else changes; a block outside the device is `E_RANGE`, no hard disk
`E_NO_DEVICE`. -/
def Obligations.DirtyBitsReadAndCleared : Prop :=
  (∀ (s : State) (b : Nat), s.hd = none → exec (.hddDirty b) s = .next (s.setRet (.err .noDevice)) ∧
    exec (.hddClrdirty b) s = .next (s.setRet (.err .noDevice))) ∧
  ∀ (s : State) (h : HardDisk) (b : Nat), s.hd = some h → h.Wf →
    (b < h.geometry.numBlocks → ∃ x, h.dirty[b]? = some x ∧ exec (.hddDirty b) s = .next (s.setRet (.ok (.bool x)))) ∧
    (h.geometry.numBlocks ≤ b → exec (.hddDirty b) s = .next (s.setRet (.err .range))) ∧
    (h.geometry.numBlocks ≤ b → b ≠ 0xFFFFFFFF → exec (.hddClrdirty b) s = .next (s.setRet (.err .range))) ∧
    (b < h.geometry.numBlocks ∨ b = 0xFFFFFFFF → ∃ dirty : List Bool,
      exec (.hddClrdirty b) s = .next ((s.setHd (some { h with dirty := dirty })).setRet (.ok .none)) ∧
      dirty.length = h.dirty.length ∧
      ∀ j, j < h.dirty.length →
        dirty[j]? = if j = b ∨ b = 0xFFFFFFFF then some false else h.dirty[j]?)

/-- `HDD_SETPT` (43_hard_disk.md R225, R226; 30_encoding.md R107, the spec's decision D1): a serialised table is
installed when every entry lies inside the device and no two share a cylinder, and is refused with `E_PARTITION`
otherwise; a payload that, after whole entries, ends inside an entry or has an entry with a flag above 1 is refused
with `E_BAD_OPERAND`. -/
def Obligations.PartitionTableIsParsedAndValidated : Prop :=
  ∀ (s : State) (h : HardDisk) (pt : List Partition), s.hd = some h → (∀ p ∈ pt, p.Fits) →
    ((∀ p ∈ pt, p.lowCylinder ≤ p.highCylinder ∧ p.highCylinder < h.geometry.cylinders) →
      pt.Pairwise (fun p q => ∀ c, ¬ (p.lowCylinder ≤ c ∧ c ≤ p.highCylinder ∧ q.lowCylinder ≤ c ∧
        c ≤ q.highCylinder)) →
      exec (.hddSetpt (ptableBytes pt)) s = .next ((s.setHd (some { h with ptable := pt })).setRet (.ok .none))) ∧
    ((∃ p ∈ pt, p.highCylinder < p.lowCylinder ∨ h.geometry.cylinders ≤ p.highCylinder) →
      exec (.hddSetpt (ptableBytes pt)) s = .next (s.setRet (.err .partition))) ∧
    (¬ pt.Pairwise (fun p q => ∀ c, ¬ (p.lowCylinder ≤ c ∧ c ≤ p.highCylinder ∧ q.lowCylinder ≤ c ∧
        c ≤ q.highCylinder)) →
      exec (.hddSetpt (ptableBytes pt)) s = .next (s.setRet (.err .partition))) ∧
    (∀ (p : Partition) (k : Nat), p.Fits → 0 < k → k < p.bytes.length →
      exec (.hddSetpt (ptableBytes pt ++ p.bytes.take k)) s = .next (s.setRet (.err .badOperand))) ∧
    ∀ (ranges rest : List Byte) (flag : Byte), ranges.length = 12 → 1 < flag.toNat →
      exec (.hddSetpt (ptableBytes pt ++ (ranges ++ flag :: rest))) s = .next (s.setRet (.err .badOperand))

/-- The state machine of 43_hard_disk.md R219: after an accepted request the hard disk stays Reading or Writing until
the `TICK` at which the settle delay has passed (the next `TICK` for a delay of 0), and is Idle from then on. -/
def Obligations.RequestSettlesAfterDelay : Prop :=
  ∀ (s t : State) (i : Instr) (busy : HdState) (o n a m : Nat),
    (i = .hddRead o n a ∧ busy = .reading ∨ i = .hddWrite o n a ∧ busy = .writing) →
    exec i s = .next t → t.ret = some (.ok .none) →
    ∃ (u : State) (h : HardDisk), execAll (List.replicate m .tick) t = .next u ∧ u.hd = some h ∧
      (m < max 1 s.cfg.hdSettle → h.state = busy ∧ h.idleDue = some (s.now + s.cfg.hdSettle)) ∧
      (max 1 s.cfg.hdSettle ≤ m → h.state = .idle ∧ h.idleDue = none)

/-! ### Geometry -/

/-- `GEO_NTRK`, `GEO_NBLK`, `GEO_NSEC`, `GEO_ZONE`, `GEO_CHECK` (44_geometry.md R251, R250, R260, R259, R262, R257): the
sizes of the hard disk and of the three CBM disks, the sectors and zone of a track, and the check. Track numbering and
the range errors are the spec's decisions D43 and D44. -/
def Obligations.GeometrySizesAndZones : Prop :=
  ∀ (s : State) (t : Nat),
    (∀ h, s.hd = some h →
      exec (.geoNtrk 0) s = .next (s.setRet (.ok (.num (h.geometry.cylinders * h.geometry.heads)))) ∧
      exec (.geoNblk 0) s = .next (s.setRet (.ok (.pair
        (h.geometry.cylinders * h.geometry.heads * h.geometry.sectors)
        (h.geometry.cylinders * h.geometry.heads * h.geometry.sectors * h.geometry.bsize)))) ∧
      (t < h.geometry.cylinders * h.geometry.heads →
        exec (.geoNsec 0 t) s = .next (s.setRet (.ok (.num h.geometry.sectors)))) ∧
      (h.geometry.cylinders * h.geometry.heads ≤ t → exec (.geoNsec 0 t) s = .next (s.setRet (.err .range))) ∧
      (h.geometry.bsize ≠ 512 → exec (.geoCheck 0) s = .next (s.setRet (.err .blockSize))) ∧
      (h.geometry.bsize = 512 → s.cfg.geometryOk h.geometry = true →
        exec (.geoCheck 0) s = .next (s.setRet (.ok .none))) ∧
      (h.geometry.bsize = 512 → s.cfg.geometryOk h.geometry = false →
        exec (.geoCheck 0) s = .next (s.setRet (.err .geometryUnsupported)))) ∧
    (∀ g n, (g, n) ∈ cbmSelectors →
      exec (.geoNtrk g) s = .next (s.setRet (.ok (.num n))) ∧
      exec (.geoCheck g) s = .next (s.setRet (.ok .none)) ∧
      (1 ≤ t → t ≤ n → exec (.geoNsec g t) s = .next (s.setRet (.ok (.num (cbmTrackSectors t))))) ∧
      (t = 0 ∨ n < t → exec (.geoNsec g t) s = .next (s.setRet (.err .range)))) ∧
    exec (.geoNblk 1) s = .next (s.setRet (.ok (.pair 683 174848))) ∧
    exec (.geoNblk 2) s = .next (s.setRet (.ok (.pair 768 196608))) ∧
    exec (.geoNblk 3) s = .next (s.setRet (.ok (.pair 802 205312))) ∧
    (∀ z, (1 ≤ t ∧ t ≤ 17 ∧ z = 3 ∨ 18 ≤ t ∧ t ≤ 24 ∧ z = 2 ∨ 25 ≤ t ∧ t ≤ 30 ∧ z = 1 ∨ 31 ≤ t ∧ t ≤ 42 ∧ z = 0) →
      exec (.geoZone t) s = .next (s.setRet (.ok (.num z)))) ∧
    (t = 0 ∨ 42 < t → exec (.geoZone t) s = .next (s.setRet (.err .range))) ∧
    (∀ g, 3 < g → ∀ i ∈ [Instr.geoNtrk g, .geoNblk g, .geoNsec g t, .geoCheck g],
      exec i s = .next (s.setRet (.err .badOperand))) ∧
    (s.hd = none → ∀ i ∈ [Instr.geoNtrk 0, .geoNblk 0, .geoNsec 0 t, .geoCheck 0],
      exec i s = .next (s.setRet (.err .noDevice)))

/-- `GEO_B2TS`, `GEO_TS2B`, `GEO_B2CHS`, `GEO_CHS2B` on a CBM disk (44_geometry.md R252 to R256): the block of a track
and sector is the track's first block plus the sector, and back; cylinder `c` is track `c + 1`, with one head
(decision D43); a block outside the disk is `E_RANGE`, an address outside it `None`. -/
def Obligations.CbmAddressesTranslate : Prop :=
  ∀ (s : State) (g n t k : Nat), (g, n) ∈ cbmSelectors →
    (1 ≤ t → t ≤ n → k < cbmTrackSectors t →
      exec (.geoTs2b g t k) s = .next (s.setRet (.ok (.optNum (some (cbmTrackStart t + k))))) ∧
      exec (.geoB2ts g (cbmTrackStart t + k)) s = .next (s.setRet (.ok (.pair t k))) ∧
      exec (.geoB2chs g (cbmTrackStart t + k)) s = .next (s.setRet (.ok (.triple (t - 1) 0 k))) ∧
      exec (.geoChs2b g (t - 1) 0 k) s = .next (s.setRet (.ok (.optNum (some (cbmTrackStart t + k)))))) ∧
    (t = 0 ∨ n < t ∨ cbmTrackSectors t ≤ k →
      exec (.geoTs2b g t k) s = .next (s.setRet (.ok (.optNum none)))) ∧
    (∀ c hd, n ≤ c ∨ 0 < hd ∨ cbmTrackSectors (c + 1) ≤ k →
      exec (.geoChs2b g c hd k) s = .next (s.setRet (.ok (.optNum none)))) ∧
    (∀ b, cbmTrackStart (n + 1) ≤ b → exec (.geoB2ts g b) s = .next (s.setRet (.err .range)) ∧
      exec (.geoB2chs g b) s = .next (s.setRet (.err .range)))

/-- The same four commands on the hard disk (44_geometry.md R252 to R256), with `Track = Cylinder × HeadCount + Head`;
and all four refuse a selector above 3, and selector 0 with no hard disk (R257). -/
def Obligations.HardDiskAddressesTranslate : Prop :=
  (∀ (s : State) (h : HardDisk) (b c n k : Nat), s.hd = some h →
    (b < h.geometry.numBlocks →
      exec (.geoB2ts 0 b) s = .next (s.setRet (.ok (.pair (b / h.geometry.sectors) (b % h.geometry.sectors)))) ∧
      exec (.geoB2chs 0 b) s = .next (s.setRet (.ok (.triple (b / h.geometry.sectors / h.geometry.heads)
        (b / h.geometry.sectors % h.geometry.heads) (b % h.geometry.sectors))))) ∧
    (h.geometry.numBlocks ≤ b → exec (.geoB2ts 0 b) s = .next (s.setRet (.err .range)) ∧
      exec (.geoB2chs 0 b) s = .next (s.setRet (.err .range))) ∧
    (c < h.geometry.cylinders * h.geometry.heads → k < h.geometry.sectors →
      exec (.geoTs2b 0 c k) s = .next (s.setRet (.ok (.optNum (some (c * h.geometry.sectors + k)))))) ∧
    (h.geometry.cylinders * h.geometry.heads ≤ c ∨ h.geometry.sectors ≤ k →
      exec (.geoTs2b 0 c k) s = .next (s.setRet (.ok (.optNum none)))) ∧
    (c < h.geometry.cylinders → n < h.geometry.heads → k < h.geometry.sectors →
      exec (.geoChs2b 0 c n k) s =
        .next (s.setRet (.ok (.optNum (some ((c * h.geometry.heads + n) * h.geometry.sectors + k)))))) ∧
    (h.geometry.cylinders ≤ c ∨ h.geometry.heads ≤ n ∨ h.geometry.sectors ≤ k →
      exec (.geoChs2b 0 c n k) s = .next (s.setRet (.ok (.optNum none))))) ∧
  ∀ (s : State) (g b c n k : Nat) (i : Instr),
    i ∈ [Instr.geoB2ts g b, .geoTs2b g c k, .geoB2chs g b, .geoChs2b g c n k] →
    (3 < g → exec i s = .next (s.setRet (.err .badOperand))) ∧
    (g = 0 → s.hd = none → exec i s = .next (s.setRet (.err .noDevice)))

/-- Block addresses and (track, sector) and (cylinder, head, sector) addresses correspond one to one on every
descriptor that `GEO_NBLK` answers for, over exactly the blocks it counts (44_geometry.md R258, the spec's own
derivation). -/
def Obligations.BlockAddressesAreBijective : Prop :=
  ∀ (s : State) (g total size : Nat), exec (.geoNblk g) s = .next (s.setRet (.ok (.pair total size))) →
    (∀ b, b < total →
      (∃ t k, exec (.geoB2ts g b) s = .next (s.setRet (.ok (.pair t k))) ∧
        exec (.geoTs2b g t k) s = .next (s.setRet (.ok (.optNum (some b))))) ∧
      ∃ c n k, exec (.geoB2chs g b) s = .next (s.setRet (.ok (.triple c n k))) ∧
        exec (.geoChs2b g c n k) s = .next (s.setRet (.ok (.optNum (some b))))) ∧
    (∀ t k b, exec (.geoTs2b g t k) s = .next (s.setRet (.ok (.optNum (some b)))) →
      b < total ∧ exec (.geoB2ts g b) s = .next (s.setRet (.ok (.pair t k)))) ∧
    ∀ c n k b, exec (.geoChs2b g c n k) s = .next (s.setRet (.ok (.optNum (some b)))) →
      b < total ∧ exec (.geoB2chs g b) s = .next (s.setRet (.ok (.triple c n k)))

/-- `GEO_NEXT` (44_geometry.md R261): the interleave's next sector on the track, the first sector of the next track
(skipping track 18) when the interleave is back at sector 0, the sentinel after the last track; an invalid reference
is `E_RANGE`, selector 0 and one above 3 `E_BAD_OPERAND`. The reading of "wraps" and of the directory track's end are
the spec's decisions D41 and D45. -/
def Obligations.NextBlockFollowsInterleave : Prop :=
  ∀ (s : State) (g t k : Nat),
    (g = 0 ∨ 3 < g → exec (.geoNext g t k) s = .next (s.setRet (.err .badOperand))) ∧
    ∀ n, (g, n) ∈ cbmSelectors →
      (t = 0 ∨ n < t ∨ cbmTrackSectors t ≤ k → exec (.geoNext g t k) s = .next (s.setRet (.err .range))) ∧
      (1 ≤ t → t ≤ n → k < cbmTrackSectors t →
        let table := if t = 18 then s.cfg.cbmDirNext else if t ≤ 17 then s.cfg.cbmNext3
          else if t ≤ 24 then s.cfg.cbmNext2 else if t ≤ 30 then s.cfg.cbmNext1 else s.cfg.cbmNext0
        let next := table.getD k 0
        (next ≠ 0 → exec (.geoNext g t k) s = .next (s.setRet (.ok (.pair t next)))) ∧
        (next = 0 → t = n → exec (.geoNext g t k) s = .next (s.setRet (.ok (.pair 0 0)))) ∧
        (next = 0 → t = 17 → exec (.geoNext g t k) s = .next (s.setRet (.ok (.pair 19 0)))) ∧
        (next = 0 → t ≠ n → t ≠ 17 → exec (.geoNext g t k) s = .next (s.setRet (.ok (.pair (t + 1) 0)))))

/-- With every interleave table that `Config.wf` accepts (44_geometry.md R263; its stride 3 is read as
notes/assumptions/17.md says), the walk of `GEO_NEXT` from track 1, sector 0 visits
every sector of every track but the directory track exactly once and ends at the sentinel (44_geometry.md R261, the
spec's own derivation). -/
def Obligations.InterleaveWalkVisitsEverySectorOnce : Prop :=
  ∀ (s : State) (g n : Nat), s.cfg.wf = true → (g, n) ∈ cbmSelectors →
    ∃ refs : List (Nat × Nat), refs.head? = some (1, 0) ∧ refs.Nodup ∧
      (∀ t k, (t, k) ∈ refs ↔ 1 ≤ t ∧ t ≤ n ∧ t ≠ 18 ∧ k < cbmTrackSectors t) ∧
      (∀ j p q, refs[j]? = some p → refs[j + 1]? = some q →
        exec (.geoNext g p.1 p.2) s = .next (s.setRet (.ok (.pair q.1 q.2)))) ∧
      ∀ p, refs.getLast? = some p → exec (.geoNext g p.1 p.2) s = .next (s.setRet (.ok (.pair 0 0)))
end

