-- ==== Sys2Proof/Laws/Claims.lean ====
section
/-! SUPPORT. Lemmas about the terms the claims use: commands in sequence, the spacing of step pulses, the bits of a
status byte. -/

namespace Sys2Proof.Machine

/-- Commands in sequence: the second list runs on what the first leaves. -/
theorem execAll_append (l1 l2 : List Instr) {s t : State} (h : execAll l1 s = .next t) :
    execAll (l1 ++ l2) s = execAll l2 t := by
  induction l1 generalizing s with
  | nil => cases h; rfl
  | cons i r ih =>
    simp only [execAll, List.cons_append] at h ⊢
    cases he : exec i s with
    | next u => rw [he] at h; exact ih h
    | fault f => rw [he] at h; cases h
    | refused r => rw [he] at h; cases h

/-- `ReadyUp()` (42_drive_mechanics.md R182): every accepted pulse lies `STEP_DELAY` cycles back. -/
theorem State.readyUp_iff (s : State) : s.readyUp = true ↔ s.StepSpaced := by
  unfold State.readyUp State.StepSpaced Fdd.latestStep Fdd.StepStamp
  cases s.fdd.latestStepUp <;> cases s.fdd.latestStepDown <;> simp
  constructor
  · rintro h t (rfl | rfl) <;> omega
  · intro h
    have h1 := h _ (.inl rfl)
    have h2 := h _ (.inr rfl)
    omega

/-- `ReadyDown()` (42_drive_mechanics.md R183) is `ReadyUp()`. -/
theorem State.readyDown_iff (s : State) : s.readyDown = true ↔ s.StepSpaced := s.readyUp_iff

/-- The bits of a status word (10_state.md R60). -/
theorem statusByte_bits (b0 b1 b2 b3 b4 b5 : Bool) :
    let v := statusByte b0 b1 b2 b3 b4 b5
    v.getLsbD 0 = b0 ∧ v.getLsbD 1 = b1 ∧ v.getLsbD 2 = b2 ∧ v.getLsbD 3 = b3 ∧ v.getLsbD 4 = b4 ∧
      v.getLsbD 5 = b5 ∧ ∀ k, 6 ≤ k → v.getLsbD k = false := by
  refine ⟨?_, ?_, ?_, ?_, ?_, ?_, ?_⟩
  all_goals try (revert b0 b1 b2 b3 b4 b5; decide)
  intro k hk
  by_cases h8 : k < 8
  · obtain rfl | rfl : k = 6 ∨ k = 7 := by omega
    all_goals (revert b0 b1 b2 b3 b4 b5; decide)
  · exact BitVec.getLsbD_of_ge _ _ (by omega)

end Sys2Proof.Machine
end

