-- ==== Sys2Proof/Laws/Decode.lean ====
section
/-! SUPPORT. What the decoder answers on a packet (30_encoding.md R101 to R105): the header's fields, each modulo its
width, and the payload. -/

namespace Sys2Proof

/-- A 4-byte field reads back as its number modulo `2^32`. -/
theorem beNat_be32Bytes (n : Nat) : beNat (be32Bytes n) = n % 2 ^ 32 := by
  simp [beNat, be32Bytes]
  omega

/-- The decoder on a packet that more bytes may follow. -/
theorem decode_packet (op a b c d : Nat) (payload rest : List Byte) (h : payload.length < 2 ^ 32) :
    decode (packet op a b c d payload ++ rest) =
      match instrOf (op % 256) (a % 2 ^ 32) (b % 2 ^ 32) (c % 2 ^ 32) (d % 2 ^ 32) payload with
      | .ok i => .ok (i, rest)
      | .error e => .error e := by
  have field : ∀ k, be32At (packet op a b c d payload ++ rest) k
      = beNat (((packet op a b c d payload ++ rest).drop k).take 4) := fun _ => rfl
  have e0 : beNat ((packet op a b c d payload ++ rest).take 1) = op % 256 := by simp [packet, beNat]
  have e1 : be32At (packet op a b c d payload ++ rest) 1 = a % 2 ^ 32 := by rw [field, ← beNat_be32Bytes a]; rfl
  have e2 : be32At (packet op a b c d payload ++ rest) 5 = b % 2 ^ 32 := by rw [field, ← beNat_be32Bytes b]; rfl
  have e3 : be32At (packet op a b c d payload ++ rest) 9 = c % 2 ^ 32 := by rw [field, ← beNat_be32Bytes c]; rfl
  have e4 : be32At (packet op a b c d payload ++ rest) 13 = d % 2 ^ 32 := by rw [field, ← beNat_be32Bytes d]; rfl
  have e5 : be32At (packet op a b c d payload ++ rest) 17 = payload.length := by
    have : be32At (packet op a b c d payload ++ rest) 17 = payload.length % 2 ^ 32 := by
      rw [field, ← beNat_be32Bytes payload.length]; rfl
    rw [this, Nat.mod_eq_of_lt h]
  have e6 : (packet op a b c d payload ++ rest).drop headerBytes = payload ++ rest := rfl
  have e7 : ¬ (packet op a b c d payload ++ rest).length < headerBytes := by simp [packet, be32Bytes, headerBytes]
  unfold decode
  rw [if_neg e7]
  simp only [e0, e1, e2, e3, e4, e5, e6]
  cases hi : instrOf (op % 256) (a % 2 ^ 32) (b % 2 ^ 32) (c % 2 ^ 32) (d % 2 ^ 32) payload <;>
    simp [-Nat.reducePow, hi]

/-- The decoder on a packet alone. -/
theorem decodePacket_packet (op a b c d : Nat) (payload : List Byte) (h : payload.length < 2 ^ 32) :
    decodePacket (packet op a b c d payload) =
      instrOf (op % 256) (a % 2 ^ 32) (b % 2 ^ 32) (c % 2 ^ 32) (d % 2 ^ 32) payload := by
  have e := decode_packet op a b c d payload [] h
  rw [List.append_nil] at e
  unfold decodePacket
  rw [e]
  all_goals cases instrOf (op % 256) (a % 2 ^ 32) (b % 2 ^ 32) (c % 2 ^ 32) (d % 2 ^ 32) payload <;> rfl

/-- A packet is a header and its payload (R101). -/
theorem length_packet (op a b c d : Nat) (payload : List Byte) :
    (packet op a b c d payload).length = headerBytes + payload.length := by
  simp [packet, be32Bytes, headerBytes]
  omega

end Sys2Proof
end

