-- ==== Sys2Proof/Laws/Geometry.lean ====
section
/-! SUPPORT. The address functions of 44_geometry.md in closed form, and the walk of an interleave table. -/

namespace Sys2Proof.Machine

/-- The sectors of a CBM track (44_geometry.md R260). -/
theorem cbmSectors_eq (t : Nat) : cbmSectors t = cbmTrackSectors t := by
  unfold cbmSectors speedZone cbmTrackSectors
  by_cases h0 : t = 0
  · subst h0; rfl
  by_cases h1 : t ≤ 17
  · rw [if_pos (by omega), if_neg h0, if_pos h1]; rfl
  by_cases h2 : t ≤ 24
  · rw [if_neg (by omega), if_pos (by omega), if_neg h0, if_neg h1, if_pos h2]; rfl
  by_cases h3 : t ≤ 30
  · rw [if_neg (by omega), if_neg (by omega), if_pos (by omega), if_neg h0, if_neg h1, if_neg h2, if_pos h3]; rfl
  by_cases h4 : t ≤ 42
  · rw [if_neg (by omega), if_neg (by omega), if_neg (by omega), if_pos (by omega), if_neg h0, if_neg h1, if_neg h2,
      if_neg h3, if_pos h4]; rfl
  · rw [if_neg (by omega), if_neg (by omega), if_neg (by omega), if_neg (by omega), if_neg h0, if_neg h1, if_neg h2,
      if_neg h3, if_neg h4]

/-- The valid tracks of a CBM disk (44_geometry.md R257). -/
theorem GeoDesc.validTrack_cbm (n t : Nat) : (GeoDesc.cbm n).validTrack t = true ↔ 1 ≤ t ∧ t ≤ n := by
  simp only [GeoDesc.validTrack, Bool.and_eq_true, decide_eq_true_eq]
  show 1 ≤ t ∧ t < 1 + n * 1 ↔ _
  omega

/-- The valid tracks of a hard disk (44_geometry.md R257). -/
theorem GeoDesc.validTrack_hd (g : HdGeometry) (t : Nat) :
    (GeoDesc.hd g).validTrack t = true ↔ t < g.cylinders * g.heads := by
  simp only [GeoDesc.validTrack, Bool.and_eq_true, decide_eq_true_eq]
  show 0 ≤ t ∧ t < 0 + g.cylinders * g.heads ↔ _
  rw [Nat.zero_add]
  exact ⟨fun h => h.2, fun h => ⟨Nat.zero_le _, h⟩⟩

/-- `numBlocks` of a hard disk's descriptor (44_geometry.md R250). -/
theorem GeoDesc.numBlocks_hd (g : HdGeometry) : (GeoDesc.hd g).numBlocks = g.numBlocks := by
  simp [GeoDesc.numBlocks, GeoDesc.firstBlock, GeoDesc.firstTrack, GeoDesc.numTracks, GeoDesc.cylinders,
    GeoDesc.heads, HdGeometry.numBlocks]

/-- The three CBM selectors. -/
theorem cbmSelectors_cases {g n : Nat} (h : (g, n) ∈ cbmSelectors) :
    (g = 1 ∧ n = 35) ∨ (g = 2 ∧ n = 40) ∨ (g = 3 ∧ n = 42) := by
  simpa [cbmSelectors] using h

/-- No CBM disk has more than 42 tracks. -/
theorem cbmSelectors_le {g n : Nat} (h : (g, n) ∈ cbmSelectors) : n ≤ 42 := by
  rcases cbmSelectors_cases h with ⟨rfl, rfl⟩ | ⟨rfl, rfl⟩ | ⟨rfl, rfl⟩ <;> omega

/-- `firstBlock` of a CBM track (44_geometry.md R252). -/
theorem GeoDesc.firstBlock_cbm (n : Nat) {t : Nat} (h1 : 1 ≤ t) (h2 : t ≤ 43) :
    (GeoDesc.cbm n).firstBlock t = cbmTrackStart t := by
  obtain ⟨k, rfl⟩ : ∃ k, t = k + 1 := ⟨t - 1, by omega⟩
  have table : ∀ k : Fin 43,
      ((List.range k.val).map (fun k => cbmSectors (k + 1))).sum = cbmTrackStart (k.val + 1) := by decide
  exact table ⟨k, by omega⟩

/-- Each CBM track starts where the one before ends (44_geometry.md R252). -/
theorem cbmTrackStart_succ {t : Nat} (h1 : 1 ≤ t) (h2 : t ≤ 42) :
    cbmTrackStart (t + 1) = cbmTrackStart t + cbmTrackSectors t := by
  have table : ∀ k : Fin 42,
      cbmTrackStart (k.val + 1 + 1) = cbmTrackStart (k.val + 1) + cbmTrackSectors (k.val + 1) := by decide
  simpa [Nat.sub_add_cancel h1] using table ⟨t - 1, by omega⟩

/-- CBM tracks start at rising blocks. -/
theorem cbmTrackStart_mono {a b : Nat} (ha : 1 ≤ a) (hab : a ≤ b) (hb : b ≤ 43) :
    cbmTrackStart a ≤ cbmTrackStart b := by
  unfold cbmTrackStart
  split <;> split <;> (try split) <;> (try split) <;> (try split) <;> (try split) <;> omega

/-- `numBlocks` of a CBM disk (44_geometry.md R250). -/
theorem GeoDesc.numBlocks_cbm {g n : Nat} (h : (g, n) ∈ cbmSelectors) :
    (GeoDesc.cbm n).numBlocks = cbmTrackStart (n + 1) := by
  rcases cbmSelectors_cases h with ⟨rfl, rfl⟩ | ⟨rfl, rfl⟩ | ⟨rfl, rfl⟩ <;> rfl

/-- A sector of a CBM track lies on the disk. -/
theorem cbmTrackStart_add_lt {n t k : Nat} (hn : n ≤ 42) (h1 : 1 ≤ t) (h2 : t ≤ n) (h3 : k < cbmTrackSectors t) :
    cbmTrackStart t + k < cbmTrackStart (n + 1) := by
  have e1 := cbmTrackStart_succ h1 (h2.trans hn)
  have e2 := cbmTrackStart_mono (a := t + 1) (b := n + 1) (by omega) (by omega) (by omega)
  omega

/-- Every block of a CBM disk is a sector of one of its tracks. -/
theorem exists_cbmTrackStart_add {n : Nat} (hn : n ≤ 42) {b : Nat} (hb : b < cbmTrackStart (n + 1)) :
    ∃ t k, 1 ≤ t ∧ t ≤ n ∧ k < cbmTrackSectors t ∧ b = cbmTrackStart t + k := by
  induction n with
  | zero => simp [cbmTrackStart] at hb
  | succ n ih =>
    by_cases h : b < cbmTrackStart (n + 1)
    · obtain ⟨t, k, a1, a2, a3, a4⟩ := ih (by omega) h
      exact ⟨t, k, a1, by omega, a3, a4⟩
    · rw [cbmTrackStart_succ (by omega) hn] at hb
      exact ⟨n + 1, b - cbmTrackStart (n + 1), by omega, le_refl _, by omega, by omega⟩

/-- The search for a CBM track finds the track that holds the block. -/
theorem cbmLocate_eq (m : Nat) {t0 t k : Nat} (h1 : t0 ≤ t) (h2 : t ≤ t0 + m) (h3 : 1 ≤ t0) (h4 : t ≤ 42)
    (h5 : k < cbmTrackSectors t) : cbmLocate m t0 (cbmTrackStart t + k - cbmTrackStart t0) = (t, k) := by
  induction m generalizing t0 with
  | zero =>
    obtain rfl : t = t0 := by omega
    simp [cbmLocate]
  | succ m ih =>
    simp only [cbmLocate, cbmSectors_eq]
    by_cases he : t = t0
    · subst he
      rw [if_pos (by omega)]
      simp
    · have e1 := cbmTrackStart_succ h3 (by omega : t0 ≤ 42)
      have e2 := cbmTrackStart_mono (a := t0 + 1) (b := t) (by omega) (by omega) (by omega)
      rw [if_neg (by omega), ← ih (t0 := t0 + 1) (by omega) (by omega) (by omega), e1]
      congr 1
      omega

/-- `blockToTrackSector` on a CBM disk (44_geometry.md R253). -/
theorem GeoDesc.blockToTs_cbm {g n t k : Nat} (hg : (g, n) ∈ cbmSelectors) (h1 : 1 ≤ t) (h2 : t ≤ n)
    (h3 : k < cbmTrackSectors t) : (GeoDesc.cbm n).blockToTs (cbmTrackStart t + k) = some (t, k) := by
  have hn := cbmSelectors_le hg
  have hlt := cbmTrackStart_add_lt hn h1 h2 h3
  have e := cbmLocate_eq n h1 (by omega) (le_refl 1) (by omega) h3
  rw [show cbmTrackStart 1 = 0 from rfl, Nat.sub_zero] at e
  unfold GeoDesc.blockToTs
  rw [GeoDesc.numBlocks_cbm hg, if_neg (by omega)]
  simp only [e]

/-- `trackSectorToBlock` on a CBM disk (44_geometry.md R254). -/
theorem GeoDesc.tsToBlock_cbm {n : Nat} (hn : n ≤ 42) (t k : Nat) :
    (GeoDesc.cbm n).tsToBlock t k =
      if (1 ≤ t ∧ t ≤ n) ∧ k < cbmTrackSectors t then some (cbmTrackStart t + k) else none := by
  unfold GeoDesc.tsToBlock
  simp only [Bool.and_eq_true, decide_eq_true_eq, GeoDesc.validTrack_cbm, GeoDesc.spt, cbmSectors_eq]
  split
  · next h => rw [GeoDesc.firstBlock_cbm n h.1.1 (by omega)]
  · rfl

/-- `trackSectorToBlock` on a hard disk (44_geometry.md R254). -/
theorem GeoDesc.tsToBlock_hd (g : HdGeometry) (t k : Nat) :
    (GeoDesc.hd g).tsToBlock t k =
      if t < g.cylinders * g.heads ∧ k < g.sectors then some (t * g.sectors + k) else none := by
  unfold GeoDesc.tsToBlock
  simp only [Bool.and_eq_true, decide_eq_true_eq, GeoDesc.validTrack_hd]
  rfl

/-- `blockToTrackSector` on a hard disk (44_geometry.md R253). -/
theorem GeoDesc.blockToTs_hd (g : HdGeometry) (b : Nat) :
    (GeoDesc.hd g).blockToTs b = if g.numBlocks ≤ b then none else some (b / g.sectors, b % g.sectors) := by
  unfold GeoDesc.blockToTs
  rw [GeoDesc.numBlocks_hd]

/-- `blockToCHS` on a hard disk (44_geometry.md R255). -/
theorem GeoDesc.blockToChs_hd (g : HdGeometry) (b : Nat) :
    (GeoDesc.hd g).blockToChs b =
      if g.numBlocks ≤ b then none
      else some (b / g.sectors / g.heads, b / g.sectors % g.heads, b % g.sectors) := by
  unfold GeoDesc.blockToChs
  rw [GeoDesc.blockToTs_hd]
  split <;> simp_all [GeoDesc.firstTrack, GeoDesc.heads]

/-- `chsToBlock` on a hard disk (44_geometry.md R256). -/
theorem GeoDesc.chsToBlock_hd (g : HdGeometry) (c n k : Nat) :
    (GeoDesc.hd g).chsToBlock c n k =
      if c < g.cylinders ∧ n < g.heads ∧ k < g.sectors then some ((c * g.heads + n) * g.sectors + k) else none := by
  unfold GeoDesc.chsToBlock
  rw [GeoDesc.tsToBlock_hd]
  show (if g.cylinders ≤ c ∨ g.heads ≤ n then none
    else if 0 + c * g.heads + n < g.cylinders * g.heads ∧ k < g.sectors then
      some ((0 + c * g.heads + n) * g.sectors + k) else none) = _
  by_cases h : g.cylinders ≤ c ∨ g.heads ≤ n
  · rw [if_pos h, if_neg (by omega)]
  · rw [if_neg h]
    have h1 : c * g.heads + n < g.cylinders * g.heads := by
      calc c * g.heads + n < c * g.heads + g.heads := by omega
        _ = (c + 1) * g.heads := by rw [Nat.add_mul, Nat.one_mul]
        _ ≤ _ := Nat.mul_le_mul_right _ (by omega)
    simp only [Nat.zero_add, h1, true_and]
    by_cases hk : k < g.sectors
    · rw [if_pos hk, if_pos (by omega)]
    · rw [if_neg hk, if_neg (by omega)]

/-! ### The walk of an interleave table -/

/-- A walk has as many entries as steps. -/
theorem length_tableWalk (table : List Nat) (n s : Nat) : (tableWalk table n s).length = n := by
  induction n generalizing s with
  | zero => rfl
  | succ n ih => simp [tableWalk, ih]

/-- Each entry of a walk is the table's entry for the one before. -/
theorem getElem?_tableWalk_succ (table : List Nat) {n j : Nat} (s : Nat) (h : j + 1 < n) :
    (tableWalk table n s)[j + 1]? = ((tableWalk table n s)[j]?).map (fun x => table.getD x 0) := by
  induction n generalizing s j with
  | zero => omega
  | succ n ih =>
    obtain ⟨n, rfl⟩ : ∃ m, n = m + 1 := ⟨n - 1, by omega⟩
    cases j with
    | zero => simp [tableWalk]
    | succ j => simpa [tableWalk] using ih (j := j) (table.getD s 0) (by omega)

/-- A longer walk begins with the shorter one. -/
theorem getElem?_tableWalk_prefix (table : List Nat) {n j : Nat} (s : Nat) (h : j < n) :
    (tableWalk table (n + 1) s)[j]? = (tableWalk table n s)[j]? := by
  induction n generalizing s j with
  | zero => omega
  | succ n ih =>
    cases j with
    | zero => simp [tableWalk]
    | succ j => simpa [tableWalk] using ih (j := j) (table.getD s 0) (by omega)

/-- `W` visits the sectors `0 .. n − 1` once each, from sector 0, as the table links them, and the table leads back to
0 from its last sector and from no other. -/
structure WalkCycle (n : Nat) (table W : List Nat) : Prop where
  len : W.length = n
  hd : W.head? = some 0
  mem : ∀ k, k ∈ W ↔ k < n
  nodup : W.Nodup
  next : ∀ j p q, W[j]? = some p → W[j + 1]? = some q → table.getD p 0 = q ∧ q ≠ 0
  last : ∀ p, W.getLast? = some p → table.getD p 0 = 0

/-- What 44_geometry.md R263 asks of a table, about its walk from sector 0. -/
theorem walkCycle_of_isSingleCycle {n : Nat} {table : List Nat} (hn : 0 < n) (h : isSingleCycle n table = true) :
    WalkCycle n table (tableWalk table n 0) := by
  simp only [isSingleCycle, Bool.and_eq_true, beq_iff_eq, List.all_eq_true, decide_eq_true_eq,
    List.contains_iff_mem, List.mem_range] at h
  obtain ⟨⟨⟨-, h2⟩, h3⟩, h4⟩ := h
  have hlen := length_tableWalk table n 0
  have hmem : ∀ k, k ∈ tableWalk table n 0 ↔ k < n := fun k => ⟨h2 k, h3 k⟩
  have hnd : (tableWalk table n 0).Nodup := by
    have hp : (tableWalk table n 0).toFinset = Finset.range n := by ext k; simp [hmem]
    rw [← Multiset.coe_nodup, ← Multiset.toFinset_card_eq_card_iff_nodup]
    show (tableWalk table n 0).toFinset.card = (tableWalk table n 0).length
    rw [hp, Finset.card_range, hlen]
  have hhd : (tableWalk table n 0).head? = some 0 := by
    obtain ⟨m, rfl⟩ : ∃ m, n = m + 1 := ⟨n - 1, by omega⟩
    simp [tableWalk]
  refine ⟨hlen, hhd, hmem, hnd, ?_, ?_⟩
  · intro j p q e1 e2
    have hj : j + 1 < n := hlen ▸ (List.getElem?_eq_some_iff.1 e2).1
    have e3 := getElem?_tableWalk_succ table 0 hj
    rw [e1, e2] at e3
    refine ⟨by simpa using e3.symm, ?_⟩
    rintro rfl
    have h0 : (tableWalk table n 0)[0]? = some 0 := by rw [← List.head?_eq_getElem?]; exact hhd
    obtain ⟨l0, r0⟩ := List.getElem?_eq_some_iff.1 h0
    obtain ⟨l2, r2⟩ := List.getElem?_eq_some_iff.1 e2
    have := (hnd.getElem_inj_iff (hi := l0) (hj := l2)).1 (r0.trans r2.symm)
    omega
  · intro p e
    rw [List.getLast?_eq_getElem?, hlen] at e
    have e2 := getElem?_tableWalk_succ table (n := n + 1) (j := n - 1) 0 (by omega)
    rw [getElem?_tableWalk_prefix table (n := n) (j := n - 1) 0 (by omega), e, show n - 1 + 1 = n by omega] at e2
    have e3 : (tableWalk table (n + 1) 0)[n]? = some (table.getD p 0) := by simpa using e2
    simpa only [List.getD_eq_getElem?_getD, e3, Option.getD_some, beq_iff_eq] using h4

end Sys2Proof.Machine
end

