-- ==== Sys2Proof/Laws/State.lean ====
section
/-! SUPPORT. What each named update of the state leaves in each field, and the fields of the reset state. -/

namespace Sys2Proof.Machine

@[simp] theorem State.setNow_now (s : State) (n : Nat) : (s.setNow n).now = n := rfl
@[simp] theorem State.setNow_stage (s : State) (n : Nat) : (s.setNow n).stage = s.stage := rfl
@[simp] theorem State.setNow_fdd (s : State) (n : Nat) : (s.setNow n).fdd = s.fdd := rfl
@[simp] theorem State.setNow_hd (s : State) (n : Nat) : (s.setNow n).hd = s.hd := rfl
@[simp] theorem State.setNow_hostMem (s : State) (n : Nat) : (s.setNow n).hostMem = s.hostMem := rfl
@[simp] theorem State.setNow_inbox (s : State) (n : Nat) : (s.setNow n).inbox = s.inbox := rfl
@[simp] theorem State.setNow_ret (s : State) (n : Nat) : (s.setNow n).ret = s.ret := rfl
@[simp] theorem State.setNow_cfg (s : State) (n : Nat) : (s.setNow n).cfg = s.cfg := rfl

@[simp] theorem State.setStage_now (s : State) (d : Option Disk) : (s.setStage d).now = s.now := rfl
@[simp] theorem State.setStage_stage (s : State) (d : Option Disk) : (s.setStage d).stage = d := rfl
@[simp] theorem State.setStage_fdd (s : State) (d : Option Disk) : (s.setStage d).fdd = s.fdd := rfl
@[simp] theorem State.setStage_hd (s : State) (d : Option Disk) : (s.setStage d).hd = s.hd := rfl
@[simp] theorem State.setStage_hostMem (s : State) (d : Option Disk) : (s.setStage d).hostMem = s.hostMem := rfl
@[simp] theorem State.setStage_inbox (s : State) (d : Option Disk) : (s.setStage d).inbox = s.inbox := rfl
@[simp] theorem State.setStage_ret (s : State) (d : Option Disk) : (s.setStage d).ret = s.ret := rfl
@[simp] theorem State.setStage_cfg (s : State) (d : Option Disk) : (s.setStage d).cfg = s.cfg := rfl

@[simp] theorem State.setFdd_now (s : State) (f : Fdd) : (s.setFdd f).now = s.now := rfl
@[simp] theorem State.setFdd_stage (s : State) (f : Fdd) : (s.setFdd f).stage = s.stage := rfl
@[simp] theorem State.setFdd_fdd (s : State) (f : Fdd) : (s.setFdd f).fdd = f := rfl
@[simp] theorem State.setFdd_hd (s : State) (f : Fdd) : (s.setFdd f).hd = s.hd := rfl
@[simp] theorem State.setFdd_hostMem (s : State) (f : Fdd) : (s.setFdd f).hostMem = s.hostMem := rfl
@[simp] theorem State.setFdd_inbox (s : State) (f : Fdd) : (s.setFdd f).inbox = s.inbox := rfl
@[simp] theorem State.setFdd_ret (s : State) (f : Fdd) : (s.setFdd f).ret = s.ret := rfl
@[simp] theorem State.setFdd_cfg (s : State) (f : Fdd) : (s.setFdd f).cfg = s.cfg := rfl

@[simp] theorem State.setHd_now (s : State) (h : Option HardDisk) : (s.setHd h).now = s.now := rfl
@[simp] theorem State.setHd_stage (s : State) (h : Option HardDisk) : (s.setHd h).stage = s.stage := rfl
@[simp] theorem State.setHd_fdd (s : State) (h : Option HardDisk) : (s.setHd h).fdd = s.fdd := rfl
@[simp] theorem State.setHd_hd (s : State) (h : Option HardDisk) : (s.setHd h).hd = h := rfl
@[simp] theorem State.setHd_hostMem (s : State) (h : Option HardDisk) : (s.setHd h).hostMem = s.hostMem := rfl
@[simp] theorem State.setHd_inbox (s : State) (h : Option HardDisk) : (s.setHd h).inbox = s.inbox := rfl
@[simp] theorem State.setHd_ret (s : State) (h : Option HardDisk) : (s.setHd h).ret = s.ret := rfl
@[simp] theorem State.setHd_cfg (s : State) (h : Option HardDisk) : (s.setHd h).cfg = s.cfg := rfl

@[simp] theorem State.setHostMem_now (s : State) (m : Memory) : (s.setHostMem m).now = s.now := rfl
@[simp] theorem State.setHostMem_stage (s : State) (m : Memory) : (s.setHostMem m).stage = s.stage := rfl
@[simp] theorem State.setHostMem_fdd (s : State) (m : Memory) : (s.setHostMem m).fdd = s.fdd := rfl
@[simp] theorem State.setHostMem_hd (s : State) (m : Memory) : (s.setHostMem m).hd = s.hd := rfl
@[simp] theorem State.setHostMem_hostMem (s : State) (m : Memory) : (s.setHostMem m).hostMem = m := rfl
@[simp] theorem State.setHostMem_inbox (s : State) (m : Memory) : (s.setHostMem m).inbox = s.inbox := rfl
@[simp] theorem State.setHostMem_ret (s : State) (m : Memory) : (s.setHostMem m).ret = s.ret := rfl
@[simp] theorem State.setHostMem_cfg (s : State) (m : Memory) : (s.setHostMem m).cfg = s.cfg := rfl

@[simp] theorem State.setInbox_now (s : State) (l : List HostEvent) : (s.setInbox l).now = s.now := rfl
@[simp] theorem State.setInbox_stage (s : State) (l : List HostEvent) : (s.setInbox l).stage = s.stage := rfl
@[simp] theorem State.setInbox_fdd (s : State) (l : List HostEvent) : (s.setInbox l).fdd = s.fdd := rfl
@[simp] theorem State.setInbox_hd (s : State) (l : List HostEvent) : (s.setInbox l).hd = s.hd := rfl
@[simp] theorem State.setInbox_hostMem (s : State) (l : List HostEvent) : (s.setInbox l).hostMem = s.hostMem := rfl
@[simp] theorem State.setInbox_inbox (s : State) (l : List HostEvent) : (s.setInbox l).inbox = l := rfl
@[simp] theorem State.setInbox_ret (s : State) (l : List HostEvent) : (s.setInbox l).ret = s.ret := rfl
@[simp] theorem State.setInbox_cfg (s : State) (l : List HostEvent) : (s.setInbox l).cfg = s.cfg := rfl

@[simp] theorem State.setRet_now (s : State) (r : CmdResult) : (s.setRet r).now = s.now := rfl
@[simp] theorem State.setRet_stage (s : State) (r : CmdResult) : (s.setRet r).stage = s.stage := rfl
@[simp] theorem State.setRet_fdd (s : State) (r : CmdResult) : (s.setRet r).fdd = s.fdd := rfl
@[simp] theorem State.setRet_hd (s : State) (r : CmdResult) : (s.setRet r).hd = s.hd := rfl
@[simp] theorem State.setRet_hostMem (s : State) (r : CmdResult) : (s.setRet r).hostMem = s.hostMem := rfl
@[simp] theorem State.setRet_inbox (s : State) (r : CmdResult) : (s.setRet r).inbox = s.inbox := rfl
@[simp] theorem State.setRet_ret (s : State) (r : CmdResult) : (s.setRet r).ret = some r := rfl
@[simp] theorem State.setRet_cfg (s : State) (r : CmdResult) : (s.setRet r).cfg = s.cfg := rfl

/-- Two updates of the same field: the second stands. -/
@[simp] theorem State.setFdd_setFdd (s : State) (f g : Fdd) : (s.setFdd f).setFdd g = s.setFdd g := rfl

@[simp] theorem State.setHd_setHd (s : State) (h k : Option HardDisk) : (s.setHd h).setHd k = s.setHd k := rfl

@[simp] theorem State.setRet_setRet (s : State) (r q : CmdResult) : (s.setRet r).setRet q = s.setRet q := rfl

@[simp] theorem State.setInbox_setInbox (s : State) (l k : List HostEvent) :
    (s.setInbox l).setInbox k = s.setInbox k := rfl

/-- Putting a field back changes nothing. -/
@[simp] theorem State.setFdd_self (s : State) : s.setFdd s.fdd = s := rfl

@[simp] theorem State.setHd_self (s : State) : s.setHd s.hd = s := rfl

@[simp] theorem State.setHostMem_self (s : State) : s.setHostMem s.hostMem = s := rfl

/-! ### The drive's updates -/

@[simp] theorem Fdd.setOffset_disk (f : Fdd) (o : Nat) : (f.setOffset o).disk = f.disk := rfl

@[simp] theorem Fdd.setOffset_head (f : Fdd) (o : Nat) :
    (f.setOffset o).head = { f.head with offset := o } := rfl

@[simp] theorem Fdd.setOffset_motorOn (f : Fdd) (o : Nat) : (f.setOffset o).motorOn = f.motorOn := rfl

@[simp] theorem Fdd.setOffset_motorSwitchTs (f : Fdd) (o : Nat) :
    (f.setOffset o).motorSwitchTs = f.motorSwitchTs := rfl

@[simp] theorem Fdd.setOffset_latestStepUp (f : Fdd) (o : Nat) :
    (f.setOffset o).latestStepUp = f.latestStepUp := rfl

@[simp] theorem Fdd.setOffset_latestStepDown (f : Fdd) (o : Nat) :
    (f.setOffset o).latestStepDown = f.latestStepDown := rfl

@[simp] theorem Fdd.setOffset_cylHistory (f : Fdd) (o : Nat) : (f.setOffset o).cylHistory = f.cylHistory := rfl

@[simp] theorem Fdd.setOffset_dskChange (f : Fdd) (o : Nat) : (f.setOffset o).dskChange = f.dskChange := rfl

@[simp] theorem Fdd.setOffset_pending (f : Fdd) (o : Nat) : (f.setOffset o).pending = f.pending := rfl

/-- Rotation is a move of the cursor. -/
@[simp] theorem Fdd.rotate_eq (f : Fdd) (n : Nat) : f.rotate n = f.setOffset ((f.head.offset + 1) % n) := rfl

/-! ### A Disk's writes -/

@[simp] theorem Disk.write_diameter (c : Config) (D : Disk) (t i : Nat) (v : Byte) :
    (D.write c t i v).diameter = D.diameter := rfl

@[simp] theorem Disk.write_density (c : Config) (D : Disk) (t i : Nat) (v : Byte) :
    (D.write c t i v).density = D.density := rfl

@[simp] theorem Disk.write_trackLen (c : Config) (D : Disk) (t i : Nat) (v : Byte) :
    (D.write c t i v).trackLen = D.trackLen := rfl

@[simp] theorem Disk.write_modified (c : Config) (D : Disk) (t i : Nat) (v : Byte) :
    (D.write c t i v).modified = true := rfl

@[simp] theorem Disk.write_writeProtected (c : Config) (D : Disk) (t i : Nat) (v : Byte) :
    (D.write c t i v).writeProtected = D.writeProtected := rfl

@[simp] theorem Disk.write_cleared (c : Config) (D : Disk) (t i : Nat) (v : Byte) :
    (D.write c t i v).cleared c = D.cleared c := rfl

/-! ### The reset state -/

@[simp] theorem State.launch_cfg (c : Config) : (State.launch c).cfg = c := rfl

@[simp] theorem State.launch_stage (c : Config) : (State.launch c).stage = none := rfl

@[simp] theorem State.launch_hd (c : Config) : (State.launch c).hd = none := rfl

@[simp] theorem State.launch_fdd (c : Config) : (State.launch c).fdd = Fdd.reset := rfl

@[simp] theorem State.launch_inbox (c : Config) : (State.launch c).inbox = [] := rfl

end Sys2Proof.Machine
end

