-- ==== Sys2Proof/Laws/Memory.lean ====
section
/-! SUPPORT. Bytes by address: what a read gives after a write, and that every operation keeps the canonical form.
Then the same for a Disk's arena and the block buffer. -/

namespace Sys2Proof.Machine

/-! ### One byte -/

theorem lookupCell_insertCell (cells : List Host.Cell) (a b : Nat) (v : Byte) :
    lookupCell (insertCell cells a v) b = if a = b then some v else lookupCell cells b := by
  induction cells with
  | nil => simp [insertCell, lookupCell]
  | cons c rest ih =>
    obtain ⟨d, w⟩ := c
    simp only [insertCell]
    split
    · simp [lookupCell]
    · split
      · subst_vars
        simp only [lookupCell]
        split <;> simp_all
      · simp only [lookupCell, ih]
        split <;> simp_all

theorem lookupCell_eraseCell (cells : List Host.Cell) (a b : Nat) :
    lookupCell (eraseCell cells a) b = if a = b then none else lookupCell cells b := by
  induction cells with
  | nil => simp [eraseCell, lookupCell]
  | cons c rest ih =>
    obtain ⟨d, w⟩ := c
    unfold eraseCell at ih ⊢
    by_cases hd : d = a
    · subst hd
      simp only [List.filter_cons, bne_self_eq_false, Bool.false_eq_true, if_false, ih, lookupCell]
      split <;> simp_all
    · have : ((d, w) :: rest).filter (fun c => c.1 != a) = (d, w) :: rest.filter (fun c => c.1 != a) := by
        simp [hd]
      rw [this]
      simp only [lookupCell, ih]
      by_cases hb : d = b
      · rw [if_pos hb, if_pos hb, if_neg (fun h => hd (hb.trans h.symm))]
      · rw [if_neg hb, if_neg hb]

/-- What a read gives after a write: the value written at its address, and elsewhere what it gave before. -/
theorem Memory.read_write (u : Nat → Byte) (m : Memory) (a b : Nat) (v : Byte) :
    (m.write u a v).read u b = if a = b then v else m.read u b := by
  unfold Memory.write Memory.read
  split
  · rename_i hv
    simp only [lookupCell_eraseCell]
    split
    · subst_vars; simp
    · rfl
  · simp only [lookupCell_insertCell]
    split <;> simp

@[simp] theorem Memory.read_write_self (u : Nat → Byte) (m : Memory) (a : Nat) (v : Byte) :
    (m.write u a v).read u a = v := by simp [Memory.read_write]

theorem Memory.read_write_ne (u : Nat → Byte) (m : Memory) {a b : Nat} (h : a ≠ b) (v : Byte) :
    (m.write u a v).read u b = m.read u b := by simp [Memory.read_write, h]

@[simp] theorem Memory.read_nil (u : Nat → Byte) (a : Nat) : Memory.read u { cells := [] } a = u a := rfl

/-! ### A range of bytes -/

@[simp] theorem Memory.length_readRange (u : Nat → Byte) (m : Memory) (a n : Nat) :
    (m.readRange u a n).length = n := by simp [Memory.readRange]

theorem Memory.getElem?_readRange (u : Nat → Byte) (m : Memory) (a n k : Nat) :
    (m.readRange u a n)[k]? = if k < n then some (m.read u (a + k)) else none := by
  unfold Memory.readRange
  by_cases h : k < n <;> simp [h]

/-- What a read gives after a range write: the byte written where the range covers the address, and elsewhere what
it gave before. -/
theorem Memory.read_writeRange (u : Nat → Byte) (l : List Byte) (m : Memory) (a b : Nat) :
    (m.writeRange u a l).read u b = if a ≤ b ∧ b < a + l.length then l.getD (b - a) 0 else m.read u b := by
  induction l generalizing m a with
  | nil => simp [Memory.writeRange]
  | cons v rest ih =>
    simp only [Memory.writeRange, ih, List.length_cons, Memory.read_write]
    by_cases h1 : a + 1 ≤ b ∧ b < a + 1 + rest.length
    · have h2 : a ≤ b ∧ b < a + (rest.length + 1) := by omega
      have h3 : b - a = (b - (a + 1)) + 1 := by omega
      rw [if_pos h1, if_pos h2, h3]
      simp
    · by_cases h4 : a = b
      · subst h4
        simp
      · have h2 : ¬ (a ≤ b ∧ b < a + (rest.length + 1)) := by omega
        rw [if_neg h1, if_neg h2, if_neg h4]

/-! ### The canonical form -/

theorem Memory.wf_iff (u : Nat → Byte) (m : Memory) :
    m.wf u = true ↔ (m.cells.map Prod.fst).Pairwise (· < ·) ∧ ∀ c ∈ m.cells, c.2 ≠ u c.1 := by
  simp [Memory.wf, List.all_eq_true]

theorem Memory.below_iff (n : Nat) (m : Memory) : m.below n = true ↔ ∀ c ∈ m.cells, c.1 < n := by
  simp [Memory.below, List.all_eq_true]

theorem mem_insertCell {cells : List Host.Cell} {a : Nat} {v : Byte} {c : Host.Cell}
    (h : c ∈ insertCell cells a v) : c = (a, v) ∨ c ∈ cells := by
  induction cells with
  | nil => simpa [insertCell] using h
  | cons d rest ih =>
    obtain ⟨d, w⟩ := d
    simp only [insertCell] at h
    split at h
    · simpa using h
    · split at h
      · rcases List.mem_cons.1 h with h | h
        · exact .inl h
        · exact .inr (List.mem_cons_of_mem _ h)
      · rcases List.mem_cons.1 h with h | h
        · exact .inr (h ▸ List.mem_cons_self ..)
        · rcases ih h with h | h
          · exact .inl h
          · exact .inr (List.mem_cons_of_mem _ h)

theorem insertCell_rising {cells : List Host.Cell} (a : Nat) (v : Byte)
    (h : (cells.map Prod.fst).Pairwise (· < ·)) :
    ((insertCell cells a v).map Prod.fst).Pairwise (· < ·) := by
  induction cells with
  | nil => simp [insertCell]
  | cons d rest ih =>
    obtain ⟨d, w⟩ := d
    simp only [List.map_cons, List.pairwise_cons, List.mem_map] at h
    obtain ⟨h1, h2⟩ := h
    simp only [insertCell]
    split
    · rename_i had
      simp only [List.map_cons, List.pairwise_cons, List.mem_cons, List.mem_map]
      refine ⟨?_, h1, h2⟩
      rintro x (rfl | ⟨y, hy, rfl⟩)
      · exact had
      · exact lt_trans had (h1 _ ⟨y, hy, rfl⟩)
    · split
      · rename_i had
        subst had
        simp only [List.map_cons, List.pairwise_cons, List.mem_map]
        exact ⟨h1, h2⟩
      · rename_i h3 h4
        simp only [List.map_cons, List.pairwise_cons, List.mem_map]
        refine ⟨?_, ih h2⟩
        rintro x ⟨y, hy, rfl⟩
        rcases mem_insertCell hy with rfl | hy
        · exact lt_of_le_of_ne (Nat.not_lt.1 h3) (Ne.symm h4)
        · exact h1 _ ⟨y, hy, rfl⟩

/-- A write keeps the canonical form. -/
theorem Memory.wf_write {u : Nat → Byte} {m : Memory} (h : m.wf u = true) (a : Nat) (v : Byte) :
    (m.write u a v).wf u = true := by
  rw [Memory.wf_iff] at h ⊢
  obtain ⟨h1, h2⟩ := h
  unfold Memory.write
  split
  · refine ⟨?_, fun c hc => h2 c (List.mem_of_mem_filter hc)⟩
    exact List.Pairwise.sublist (List.Sublist.map _ (List.filter_sublist)) h1
  · rename_i hv
    refine ⟨insertCell_rising a v h1, fun c hc => ?_⟩
    rcases mem_insertCell hc with rfl | hc
    · exact hv
    · exact h2 c hc

theorem Memory.below_write {n : Nat} {m : Memory} (h : m.below n = true) (u : Nat → Byte) {a : Nat} (ha : a < n)
    (v : Byte) : (m.write u a v).below n = true := by
  rw [Memory.below_iff] at h ⊢
  unfold Memory.write
  split
  · exact fun c hc => h c (List.mem_of_mem_filter hc)
  · intro c hc
    rcases mem_insertCell hc with rfl | hc
    · exact ha
    · exact h c hc

/-- A range write keeps the canonical form. -/
theorem Memory.wf_writeRange {u : Nat → Byte} (l : List Byte) {m : Memory} (h : m.wf u = true) (a : Nat) :
    (m.writeRange u a l).wf u = true := by
  induction l generalizing m a with
  | nil => exact h
  | cons v rest ih => exact ih (Memory.wf_write h a v) (a + 1)

theorem Memory.below_writeRange {n : Nat} (u : Nat → Byte) (l : List Byte) {m : Memory} (h : m.below n = true)
    {a : Nat} (ha : a + l.length ≤ n) : (m.writeRange u a l).below n = true := by
  induction l generalizing m a with
  | nil => exact h
  | cons v rest ih =>
    simp only [List.length_cons] at ha
    exact ih (Memory.below_write h u (by omega) v) (by omega)

theorem Memory.wf_nil (u : Nat → Byte) : Memory.wf u { cells := [] } = true := by simp [Memory.wf]

theorem Memory.below_nil (n : Nat) : Memory.below n { cells := [] } = true := by simp [Memory.below]

/-! ### The entries of a byte sequence -/

theorem mem_cellsOf {u : Nat → Byte} {l : List Byte} {a : Nat} {c : Host.Cell} (h : c ∈ cellsOf u a l) :
    a ≤ c.1 ∧ c.1 < a + l.length ∧ c.2 ≠ u c.1 := by
  induction l generalizing a with
  | nil => simp [cellsOf] at h
  | cons v rest ih =>
    simp only [cellsOf] at h
    split at h
    · obtain ⟨h1, h2, h3⟩ := ih h
      simp only [List.length_cons]
      exact ⟨by omega, by omega, h3⟩
    · rename_i hv
      rcases List.mem_cons.1 h with rfl | h
      · simp only [List.length_cons]
        exact ⟨le_refl _, by omega, hv⟩
      · obtain ⟨h1, h2, h3⟩ := ih h
        simp only [List.length_cons]
        exact ⟨by omega, by omega, h3⟩

theorem lookupCell_cellsOf (u : Nat → Byte) (l : List Byte) (a b : Nat) :
    (lookupCell (cellsOf u a l) b).getD (u b) = if a ≤ b ∧ b < a + l.length then l.getD (b - a) 0 else u b := by
  induction l generalizing a with
  | nil => simp [cellsOf, lookupCell]
  | cons v rest ih =>
    simp only [cellsOf, List.length_cons]
    by_cases h4 : a = b
    · subst h4
      have h1 : a ≤ a ∧ a < a + (rest.length + 1) := by omega
      rw [if_pos h1]
      split
      · rename_i hv
        rw [ih, if_neg (by omega), ← hv]; simp
      · simp [lookupCell]
    · have key : (if a + 1 ≤ b ∧ b < a + 1 + rest.length then rest.getD (b - (a + 1)) 0 else u b)
          = if a ≤ b ∧ b < a + (rest.length + 1) then (v :: rest).getD (b - a) 0 else u b := by
        by_cases h1 : a + 1 ≤ b ∧ b < a + 1 + rest.length
        · have h3 : b - a = (b - (a + 1)) + 1 := by omega
          rw [if_pos h1, if_pos (by omega), h3]
          simp
        · rw [if_neg h1, if_neg (by omega)]
      split
      · rw [ih, key]
      · simp only [lookupCell, if_neg h4]
        rw [ih, key]

theorem cellsOf_rising (u : Nat → Byte) (l : List Byte) (a : Nat) :
    ((cellsOf u a l).map Prod.fst).Pairwise (· < ·) := by
  induction l generalizing a with
  | nil => simp [cellsOf]
  | cons v rest ih =>
    simp only [cellsOf]
    split
    · exact ih (a + 1)
    · simp only [List.map_cons, List.pairwise_cons, List.mem_map]
      refine ⟨?_, ih (a + 1)⟩
      rintro x ⟨c, hc, rfl⟩
      have := (mem_cellsOf hc).1
      omega

/-- The buffer of a byte sequence reads as the sequence. -/
theorem Buffer.byte_ofBytes (l : List Byte) (k : Nat) : (Buffer.ofBytes l).byte k = l.getD k 0 := by
  have h := lookupCell_cellsOf zeroByte l 0 k
  simp only [Buffer.byte, Buffer.ofBytes, Memory.read]
  rw [h]
  by_cases hk : k < l.length
  · simp [hk]
  · simp [hk, zeroByte]

theorem Buffer.byte_zeros (n k : Nat) : (Buffer.zeros n).byte k = 0 := rfl

theorem Buffer.wf_ofBytes (l : List Byte) :
    (Buffer.ofBytes l).mem.wf zeroByte = true ∧ (Buffer.ofBytes l).mem.below (Buffer.ofBytes l).len = true := by
  refine ⟨?_, ?_⟩
  · rw [Memory.wf_iff]
    exact ⟨cellsOf_rising _ _ _, fun c hc => (mem_cellsOf hc).2.2⟩
  · rw [Memory.below_iff]
    intro c hc
    have := (mem_cellsOf hc).2.1
    simpa [Buffer.ofBytes] using this

/-! ### A Disk's arena -/

theorem Disk.offset_inj {L t i t' i' : Nat} (hi : i < L) (hi' : i' < L) (h : t * L + i = t' * L + i') :
    t = t' ∧ i = i' := by
  have h1 : (t * L + i) / L = t := by
    rw [Nat.mul_comm, Nat.mul_add_div (by omega), Nat.div_eq_of_lt hi, Nat.add_zero]
  have h2 : (t' * L + i') / L = t' := by
    rw [Nat.mul_comm, Nat.mul_add_div (by omega), Nat.div_eq_of_lt hi', Nat.add_zero]
  have ht : t = t' := by rw [← h1, ← h2, h]
  subst ht
  exact ⟨rfl, by omega⟩

/-- A byte of a Disk after a write: the value at its place, and elsewhere what it was. -/
theorem Disk.read_write (c : Config) (D : Disk) {t i t' i' : Nat} (hi : i < D.trackLen) (hi' : i' < D.trackLen)
    (v : Byte) : (D.write c t i v).read c t' i' = if t = t' ∧ i = i' then v else D.read c t' i' := by
  unfold Disk.read
  simp only [Disk.write_cleared]
  simp only [Disk.write, Memory.read_write, Disk.trackOffset]
  by_cases h : t * D.trackLen + i = t' * D.trackLen + i'
  · rw [if_pos h, if_pos (Disk.offset_inj hi hi' h)]
  · rw [if_neg h, if_neg]
    rintro ⟨rfl, rfl⟩
    exact h rfl

/-- A byte of a cleared Disk. -/
theorem Disk.read_clear (c : Config) (D : Disk) (t i : Nat) :
    D.clear.read c t i = D.cleared c (t * D.trackLen + i) := rfl

/-- The cleared byte at a place of a track (41_track_storage.md R145). -/
theorem Disk.cleared_at (c : Config) (D : Disk) {t i : Nat} (hi : i < D.trackLen) :
    D.cleared c (t * D.trackLen + i) =
      if c.isMagic D.diameter D.density ∧ i = 0 then c.magic0
      else if c.isMagic D.diameter D.density ∧ i = 1 then c.magic1 else c.fill t i := by
  have h1 : (t * D.trackLen + i) % D.trackLen = i := by
    rw [Nat.mul_comm, Nat.mul_add_mod, Nat.mod_eq_of_lt hi]
  have h2 : (t * D.trackLen + i) / D.trackLen = t := by
    rw [Nat.mul_comm, Nat.mul_add_div (by omega), Nat.div_eq_of_lt hi, Nat.add_zero]
  simp [Disk.cleared, h1, h2]

@[simp] theorem Disk.length_slice (c : Config) (D : Disk) (t start n : Nat) : (D.slice c t start n).length = n := by
  simp [Disk.slice]

theorem Disk.getElem?_slice (c : Config) (D : Disk) (t start n k : Nat) :
    (D.slice c t start n)[k]? = if k < n then some (D.read c t (start + k)) else none := by
  simp [Disk.slice, Memory.getElem?_readRange, Disk.read, Nat.add_assoc]

/-! ### The buffer and the bitmap -/

/-- A write to the buffer: where it answers, the length stands, the range holds the bytes and the rest is as before. -/
theorem Buffer.write?_spec {b b' : Buffer} {off : Nat} {l : List Byte} (h : b.write? off l = some b') :
    off + l.length ≤ b.len ∧ b'.len = b.len ∧
      ∀ k, b'.byte k = if off ≤ k ∧ k < off + l.length then l.getD (k - off) 0 else b.byte k := by
  unfold Buffer.write? at h
  split at h
  · rename_i hle
    obtain rfl := Option.some.inj h
    refine ⟨hle, rfl, fun k => ?_⟩
    simp [Buffer.byte, Memory.read_writeRange]
  · cases h

/-- A read of the buffer: where it answers, it gives the bytes of the range. -/
theorem Buffer.read?_spec {b : Buffer} {off n : Nat} {l : List Byte} (h : b.read? off n = some l) :
    off + n ≤ b.len ∧ l.length = n ∧ ∀ k, k < n → l[k]? = some (b.byte (off + k)) := by
  unfold Buffer.read? at h
  split at h
  · rename_i hle
    obtain rfl := Option.some.inj h
    refine ⟨hle, by simp, fun k hk => ?_⟩
    rw [Memory.getElem?_readRange, if_pos hk]; rfl
  · cases h

/-- The bits of a range set to one value. -/
theorem setBits?_spec {bits bits' : List Bool} {lo hi : Nat} {v : Bool} (h : setBits? bits lo hi v = some bits') :
    hi ≤ bits.length ∧ bits'.length = bits.length ∧
      ∀ k, bits'[k]? = (bits[k]?).map (fun b => if lo ≤ k ∧ k < hi then v else b) := by
  unfold setBits? at h
  split at h
  · rename_i hle
    obtain rfl := Option.some.inj h
    exact ⟨hle, by simp, fun k => by simp [List.getElem?_mapIdx]⟩
  · cases h

/-! ### Stream bits and the checksum -/

/-- `withStreamBit` sets the addressed bit and keeps the other seven. -/
theorem withStreamBit_getLsbD (v : Byte) (o : Nat) (bit : Bool) {k : Nat} (hk : k < 8) :
    (withStreamBit v o bit).getLsbD k = if k = 7 - o % 8 then bit else v.getLsbD k := by
  have ho : o % 8 < 8 := Nat.mod_lt _ (by decide)
  unfold withStreamBit
  generalize o % 8 = r at ho ⊢
  obtain rfl | rfl | rfl | rfl | rfl | rfl | rfl | rfl :
    r = 0 ∨ r = 1 ∨ r = 2 ∨ r = 3 ∨ r = 4 ∨ r = 5 ∨ r = 6 ∨ r = 7 := by omega
  all_goals
    obtain rfl | rfl | rfl | rfl | rfl | rfl | rfl | rfl :
      k = 0 ∨ k = 1 ∨ k = 2 ∨ k = 3 ∨ k = 4 ∨ k = 5 ∨ k = 6 ∨ k = 7 := by omega
  all_goals cases bit <;> simp

/-- The checksum of one byte more. -/
theorem fnv1a_append (w : HashWidth) (l : List Byte) (x : Byte) :
    fnv1a w (l ++ [x]) = ((fnv1a w l ^^^ x.toNat) * w.prime) % 2 ^ w.bits := by
  simp only [fnv1a, List.foldl_append, List.foldl_cons, List.foldl_nil]

end Sys2Proof.Machine
end

