-- ==== Sys2Proof/Laws/Operands.lean ====
section
/-! SUPPORT. What each shared operation of a command can do: the ends of a command, the operand types, the selection of
a Disk, of the drive's Disk, of the hard disk and of a descriptor, and the hard disk's request operations. -/

namespace Sys2Proof.Machine

/-! ### The end of a command -/

theorem finish_eq (s : State) (v : Value) : s.finish v = .next (s.setRet (.ok v)) := rfl

theorem raise_eq (s : State) (e : ErrCode) : s.raise e = .next (s.setRet (.err e)) := rfl

theorem finish_inv {s t : State} {v : Value} (h : s.finish v = .next t) : t = s.setRet (.ok v) := by
  cases h; rfl

theorem raise_inv {s t : State} {e : ErrCode} (h : s.raise e = .next t) : t = s.setRet (.err e) := by
  cases h; rfl

/-! ### Operand types -/

theorem asBool_eq {n : Nat} (h : n ≤ 1) : asBool n = some (decide (n = 1)) := by
  obtain rfl | rfl : n = 0 ∨ n = 1 := by omega
  · rfl
  · rfl

theorem asBool_none {n : Nat} : asBool n = none ↔ 1 < n := by
  unfold asBool
  split
  · simp; omega
  · split <;> simp <;> omega

theorem asByte_eq {n : Nat} (h : n ≤ 255) : asByte n = some (BitVec.ofNat 8 n) := if_pos (by omega)

theorem asByte_none {n : Nat} : asByte n = none ↔ 255 < n := by
  unfold asByte
  split <;> simp <;> omega

@[simp] theorem asSel_code (slot : Sel) : asSel slot.code = some slot := by cases slot <;> rfl

theorem asSel_none {n : Nat} : asSel n = none ↔ 1 < n := by
  unfold asSel
  split
  · simp; omega
  · split <;> simp <;> omega

@[simp] theorem asDir_code (d : Dir) : asDir d.code = some d := by cases d <;> rfl

theorem asDir_none {n : Nat} : asDir n = none ↔ 1 < n := by
  unfold asDir
  split
  · simp; omega
  · split <;> simp <;> omega

/-- The layouts a command can name are the valid rows of 00_scope.md R7. -/
theorem asLayout_spec {a b : Nat} {r : Diameter × Density × Nat} (h : asLayout a b = some r) :
    trackBytes r.1 r.2.1 = some r.2.2 := by
  unfold asLayout at h
  split at h
  · split at h
    · obtain rfl := Option.some.inj h
      assumption
    · cases h
  · cases h

/-! ### The selected Disk -/

@[simp] theorem State.putDisk_now (s : State) (slot : Sel) (D : Disk) : (s.putDisk slot D).now = s.now := by
  cases slot <;> rfl

@[simp] theorem State.putDisk_hd (s : State) (slot : Sel) (D : Disk) : (s.putDisk slot D).hd = s.hd := by
  cases slot <;> rfl

@[simp] theorem State.putDisk_hostMem (s : State) (slot : Sel) (D : Disk) :
    (s.putDisk slot D).hostMem = s.hostMem := by cases slot <;> rfl

@[simp] theorem State.putDisk_inbox (s : State) (slot : Sel) (D : Disk) : (s.putDisk slot D).inbox = s.inbox := by
  cases slot <;> rfl

@[simp] theorem State.putDisk_cfg (s : State) (slot : Sel) (D : Disk) : (s.putDisk slot D).cfg = s.cfg := by
  cases slot <;> rfl

@[simp] theorem State.putDisk_stage_drive (s : State) (D : Disk) : (s.putDisk .drive D).stage = s.stage := rfl

@[simp] theorem State.putDisk_stage_stage (s : State) (D : Disk) : (s.putDisk .stage D).stage = some D := rfl

@[simp] theorem State.putDisk_fdd_stage (s : State) (D : Disk) : (s.putDisk .stage D).fdd = s.fdd := rfl

@[simp] theorem State.putDisk_fdd_drive (s : State) (D : Disk) :
    (s.putDisk .drive D).fdd = { s.fdd with disk := some D } := rfl

/-- In either slot, the drive keeps everything but its Disk. -/
theorem State.putDisk_fdd (s : State) (slot : Sel) (D : Disk) :
    (s.putDisk slot D).fdd = { s.fdd with disk := (s.putDisk slot D).fdd.disk } := by cases slot <;> rfl

@[simp] theorem State.putDisk_head (s : State) (slot : Sel) (D : Disk) :
    (s.putDisk slot D).fdd.head = s.fdd.head := by cases slot <;> rfl

@[simp] theorem State.diskAt_putDisk (s : State) (slot : Sel) (D : Disk) :
    (s.putDisk slot D).diskAt slot = some D := by cases slot <;> rfl

theorem withDisk_eq {s : State} {slot : Sel} {D : Disk} (h : s.diskAt slot = some D) (k : Sel → Disk → Outcome) :
    withDisk s slot.code k = k slot D := by simp [withDisk, h]

theorem withDisk_empty {s : State} {slot : Sel} (h : s.diskAt slot = none) (k : Sel → Disk → Outcome) :
    withDisk s slot.code k = s.raise .noDevice := by simp [withDisk, h]

theorem withDisk_badSel {n : Nat} (h : 1 < n) (s : State) (k : Sel → Disk → Outcome) :
    withDisk s n k = s.raise .badOperand := by simp [withDisk, asSel_none.2 h]

theorem withDisk_inv {s t : State} {sel : Nat} {k : Sel → Disk → Outcome} (h : withDisk s sel k = .next t) :
    t = s.setRet (.err .badOperand) ∨ t = s.setRet (.err .noDevice) ∨
      ∃ slot D, asSel sel = some slot ∧ s.diskAt slot = some D ∧ k slot D = .next t := by
  unfold withDisk at h
  split at h
  · exact .inl (raise_inv h)
  · split at h
    · exact .inr (.inl (raise_inv h))
    · exact .inr (.inr ⟨_, _, by assumption, by assumption, h⟩)

theorem withTrack_eq {s : State} {slot : Sel} {D : Disk} (h : s.diskAt slot = some D) {t : Nat}
    (ht : t < D.numTracks) (k : Sel → Disk → Outcome) : withTrack s slot.code t k = k slot D := by
  unfold withTrack
  rw [withDisk_eq h, if_neg (by omega)]

theorem withTrack_range {s : State} {slot : Sel} {D : Disk} (h : s.diskAt slot = some D) {t : Nat}
    (ht : D.numTracks ≤ t) (k : Sel → Disk → Outcome) : withTrack s slot.code t k = s.raise .range := by
  unfold withTrack
  rw [withDisk_eq h, if_pos ht]

theorem withTrack_empty {s : State} {slot : Sel} (h : s.diskAt slot = none) (t : Nat) (k : Sel → Disk → Outcome) :
    withTrack s slot.code t k = s.raise .noDevice := withDisk_empty h _

theorem withTrack_badSel {n : Nat} (h : 1 < n) (s : State) (t : Nat) (k : Sel → Disk → Outcome) :
    withTrack s n t k = s.raise .badOperand := withDisk_badSel h s _

theorem withTrack_inv {s t : State} {sel track : Nat} {k : Sel → Disk → Outcome}
    (h : withTrack s sel track k = .next t) :
    (∃ e, t = s.setRet (.err e)) ∨
      ∃ slot D, asSel sel = some slot ∧ s.diskAt slot = some D ∧ track < D.numTracks ∧ k slot D = .next t := by
  rcases withDisk_inv h with h | h | ⟨slot, D, h1, h2, h3⟩
  · exact .inl ⟨_, h⟩
  · exact .inl ⟨_, h⟩
  · split at h3
    · exact .inl ⟨_, raise_inv h3⟩
    · exact .inr ⟨slot, D, h1, h2, by omega, h3⟩

/-! ### The drive's Disk -/

theorem withCurDisk_eq {s : State} {D : Disk} (h : s.fdd.disk = some D) (k : Disk → Outcome) :
    withCurDisk s k = k D := by simp [withCurDisk, h]

theorem withCurDisk_empty {s : State} (h : s.fdd.disk = none) (k : Disk → Outcome) :
    withCurDisk s k = s.raise .noDevice := by simp [withCurDisk, h]

theorem withHead_empty {s : State} (h : s.fdd.disk = none) (k : Disk → Outcome) :
    withHead s k = s.raise .noDevice := withCurDisk_empty h _

theorem withHead_inv {s t : State} {k : Disk → Outcome} (h : withHead s k = .next t) :
    t = s.setRet (.err .noDevice) ∨ ∃ D, s.fdd.disk = some D ∧ s.headInArena D = true ∧ k D = .next t := by
  unfold withHead withCurDisk at h
  split at h
  · exact .inl (raise_inv h)
  · dsimp only at h
    split at h
    · exact .inr ⟨_, by assumption, by assumption, h⟩
    · cases h

theorem cylinderCount_le (d : Diameter) : cylinderCount d ≤ 84 := by cases d <;> decide

/-- In a good state the head is inside the arena of the Disk in the drive (10_state.md R61). -/
theorem State.Inv.headInArena {s : State} (hs : s.Inv) {D : Disk} (h : s.fdd.disk = some D) :
    s.headInArena D = true := by
  have h1 := hs.cyl_lt
  have h2 := hs.head_le
  have h3 := (hs.drive_disk D h).1
  have h4 := cylinderCount_le s.cfg.driveDiameter
  have h5 : s.curTrack < trackSlots := by
    show 2 * s.fdd.head.cyl + s.fdd.head.head < 168
    omega
  simp [State.headInArena, h3, h5]

theorem withHead_eq {s : State} (hs : s.Inv) {D : Disk} (h : s.fdd.disk = some D) (k : Disk → Outcome) :
    withHead s k = k D := by
  unfold withHead
  rw [withCurDisk_eq h, if_pos (hs.headInArena h)]

/-! ### The disk-change event -/

theorem Fdd.fireChange_none {f : Fdd} (h : f.pending = none) (now : Nat) : f.fireChange now = f := by
  simp [Fdd.fireChange, h]

theorem Fdd.fireChange_early {f : Fdd} {p : Pending} (h : f.pending = some p) {now : Nat} (hd : now < p.dueAt) :
    f.fireChange now = f := by
  unfold Fdd.fireChange
  rw [h]
  exact if_neg (by omega)

theorem Fdd.fireChange_insert {f : Fdd} {D : Disk} {due now : Nat}
    (h : f.pending = some { change := .insert D, dueAt := due }) (hd : due ≤ now) :
    f.fireChange now = f.insertDisk D := by
  unfold Fdd.fireChange
  rw [h]
  exact if_pos hd

theorem Fdd.fireChange_eject {f : Fdd} {due now : Nat} (h : f.pending = some { change := .eject, dueAt := due })
    (hd : due ≤ now) : f.fireChange now = f.ejectDisk := by
  unfold Fdd.fireChange
  rw [h]
  exact if_pos hd

/-- All that the disk-change event can do. -/
theorem Fdd.fireChange_cases (f : Fdd) (now : Nat) :
    f.fireChange now = f ∨
      (∃ D due, f.pending = some { change := .insert D, dueAt := due } ∧ due ≤ now ∧
        f.fireChange now = f.insertDisk D) ∨
      (∃ due, f.pending = some { change := .eject, dueAt := due } ∧ due ≤ now ∧ f.fireChange now = f.ejectDisk) := by
  rcases hp : f.pending with _ | ⟨change, due⟩
  · exact .inl (Fdd.fireChange_none hp now)
  · by_cases hd : due ≤ now
    · cases change with
      | insert D => exact .inr (.inl ⟨D, due, rfl, hd, Fdd.fireChange_insert hp hd⟩)
      | eject => exact .inr (.inr ⟨due, rfl, hd, Fdd.fireChange_eject hp hd⟩)
    · exact .inl (Fdd.fireChange_early hp (by show now < due; omega))

@[simp] theorem Fdd.insertDisk_cyl (f : Fdd) (D : Disk) : (f.insertDisk D).head.cyl = f.head.cyl := by
  unfold Fdd.insertDisk
  dsimp only
  split <;> rfl

@[simp] theorem Fdd.fireChange_cyl (f : Fdd) (now : Nat) : (f.fireChange now).head.cyl = f.head.cyl := by
  rcases f.fireChange_cases now with h | ⟨D, due, _, _, h⟩ | ⟨due, _, _, h⟩ <;> rw [h]
  · simp
  · rfl

/-! ### The hard disk and the descriptors -/

theorem withHd_eq {s : State} {h : HardDisk} (hh : s.hd = some h) (k : HardDisk → Outcome) : withHd s k = k h := by
  simp [withHd, hh]

theorem withHd_empty {s : State} (hh : s.hd = none) (k : HardDisk → Outcome) : withHd s k = s.raise .noDevice := by
  simp [withHd, hh]

theorem withHd_inv {s t : State} {k : HardDisk → Outcome} (h : withHd s k = .next t) :
    t = s.setRet (.err .noDevice) ∨ ∃ d, s.hd = some d ∧ k d = .next t := by
  unfold withHd at h
  split at h
  · exact .inl (raise_inv h)
  · exact .inr ⟨_, by assumption, h⟩

theorem withGeo_hd {s : State} {h : HardDisk} (hh : s.hd = some h) (k : GeoDesc → Outcome) :
    withGeo s 0 k = k (.hd h.geometry) := by simp [withGeo, withHd_eq hh]

theorem withGeo_noHd {s : State} (hh : s.hd = none) (k : GeoDesc → Outcome) :
    withGeo s 0 k = s.raise .noDevice := by simp [withGeo, withHd_empty hh]

theorem withGeo_cbm {g n : Nat} (h : (g, n) ∈ cbmSelectors) (s : State) (k : GeoDesc → Outcome) :
    withGeo s g k = k (.cbm n) := by
  simp only [cbmSelectors, List.mem_cons, Prod.mk.injEq, List.not_mem_nil, or_false] at h
  rcases h with ⟨rfl, rfl⟩ | ⟨rfl, rfl⟩ | ⟨rfl, rfl⟩ <;> rfl

theorem withGeo_bad {g : Nat} (h : 3 < g) (s : State) (k : GeoDesc → Outcome) :
    withGeo s g k = s.raise .badOperand := by
  unfold withGeo
  rw [if_neg (by omega), if_neg (by omega), if_neg (by omega), if_neg (by omega)]

/-! ### A request of the hard disk -/

/-- A request passes exactly when the four conditions of 43_hard_disk.md R212 hold. -/
theorem verifyError_none {c : Config} {h : HardDisk} {o n a : Nat} :
    verifyError c h o n a = none ↔ n % h.geometry.bsize = 0 ∧ o % h.geometry.bsize = 0 ∧
      o + n ≤ h.geometry.numBytes ∧ c.hostMemValid a n = true := by
  unfold verifyError
  split
  · simp_all
  · split
    · simp_all
    · split
      · simp_all
      · split
        · simp_all
        · simp_all

/-- A real write: where it answers, the bytes, the dirty bits of the covered blocks and the mark, and nothing else. -/
theorem HardDisk.realWrite_spec {h h' : HardDisk} {o : Nat} {v : List Byte} (e : h.realWrite o v = .ok h') :
    ∃ buf dirty, h.buf.write? o v = some buf ∧
      setBits? h.dirty (o / h.geometry.bsize) ((o + v.length) / h.geometry.bsize) true = some dirty ∧
      h' = { h with buf := buf, dirty := dirty, modified := true } := by
  unfold HardDisk.realWrite at e
  split at e
  · cases e
  · split at e
    · cases e
    · cases e
      exact ⟨_, _, by assumption, by assumption, rfl⟩

/-- A good hard disk takes every write inside its geometry. -/
theorem HardDisk.Wf.realWrite {h : HardDisk} (w : h.Wf) {o : Nat} {v : List Byte}
    (hr : o + v.length ≤ h.geometry.numBytes) : ∃ h', h.realWrite o v = .ok h' := by
  have h1 : h.buf.write? o v = some { h.buf with mem := h.buf.mem.writeRange zeroByte o v } := by
    unfold Buffer.write?
    rw [if_pos (by rw [w.buf_len]; exact hr)]
  have h2 : (o + v.length) / h.geometry.bsize ≤ h.dirty.length := by
    rw [w.dirty_len, w.bsize_eq]
    have : h.geometry.numBytes = h.geometry.numBlocks * 512 := by
      rw [← show h.geometry.bsize = 512 from w.bsize_eq]
      rfl
    simp only [hdBlockSize]
    omega
  unfold HardDisk.realWrite setBits?
  rw [h1]
  simp only [if_pos h2]
  exact ⟨_, rfl⟩

/-- A good hard disk reads every range inside its geometry. -/
theorem HardDisk.Wf.read? {h : HardDisk} (w : h.Wf) {o n : Nat} (hr : o + n ≤ h.geometry.numBytes) :
    h.buf.read? o n = some (h.buf.mem.readRange zeroByte o n) := by
  unfold Buffer.read?
  rw [if_pos (by rw [w.buf_len]; exact hr)]

end Sys2Proof.Machine
end

