-- ==== Sys2Proof/Laws/Wf.lean ====
section
/-! SUPPORT. Every operation on a Disk, on the hard disk and on host memory keeps its canonical form and its
invariants (Safety.lean); the memories of the reset state have theirs. -/

namespace Sys2Proof.Machine

/-! ### Disks -/

theorem trackBytes_pos {d : Diameter} {n : Density} {len : Nat} (h : trackBytes d n = some len) : 0 < len := by
  cases d <;> cases n <;> simp [trackBytes] at h <;> omega

theorem Disk.Wf.trackLen_pos {c : Config} {D : Disk} (w : D.Wf c) : 0 < D.trackLen := trackBytes_pos w.layout

/-- A place of an addressable track lies in the arena. -/
theorem arena_lt {t i L : Nat} (ht : t < trackSlots) (hi : i < L) : t * L + i < trackSlots * L := by
  calc t * L + i < t * L + L := by omega
    _ = (t + 1) * L := by rw [Nat.add_mul, Nat.one_mul]
    _ ≤ trackSlots * L := Nat.mul_le_mul_right L ht

theorem Disk.Wf.write {c : Config} {D : Disk} (w : D.Wf c) {t i : Nat} (ht : t < trackSlots) (hi : i < D.trackLen)
    (v : Byte) : (D.write c t i v).Wf c :=
  ⟨w.layout, Memory.wf_write w.canonical _ v, Memory.below_write w.bounded _ (arena_lt ht hi) v⟩

theorem Disk.Wf.clear {c : Config} {D : Disk} (w : D.Wf c) : D.clear.Wf c :=
  ⟨w.layout, Memory.wf_nil _, Memory.below_nil _⟩

theorem Disk.Wf.setFlags {c : Config} {D : Disk} (w : D.Wf c) (m p : Bool) :
    Disk.Wf c { D with modified := m, writeProtected := p } := ⟨w.layout, w.canonical, w.bounded⟩

theorem newDisk_wf {d : Diameter} {n : Density} {len : Nat} (h : trackBytes d n = some len) (c : Config) (wp : Bool) :
    (newDisk d n len wp).Wf c := ⟨h, Memory.wf_nil _, Memory.below_nil _⟩

theorem Disk.numTracks_le (D : Disk) : D.numTracks ≤ trackSlots := by
  have := cylinderCount_le D.diameter
  unfold Disk.numTracks usedTracks trackSlots
  omega

/-! ### The hard disk -/

theorem validPtable_default {g : HdGeometry} (h : 0 < g.cylinders) : validPtable [defaultPartition g] g = true := by
  have : g.cylinders - 1 < g.cylinders := by omega
  simp [validPtable, Partition.inside, defaultPartition, allDisjoint, this]

/-- The hard disk `HDD_INIT` builds. -/
theorem HardDisk.wf_init {g : HdGeometry} (hc : 0 < g.cylinders) (hh : 0 < g.heads) (hs : 0 < g.sectors)
    (hb : g.bsize = hdBlockSize) {image : List Byte} (hi : image.length = 0 ∨ image.length = g.numBytes) :
    HardDisk.Wf {
      geometry := g, ptable := [defaultPartition g], drivers := []
      buf := if image.length ≠ 0 then Buffer.ofBytes image else Buffer.zeros g.numBytes
      dirty := List.replicate g.numBlocks true, state := .idle, head := { cyl := 0, head := 0, offset := 0 }
      idleDue := none, writeProtected := false, modified := false } where
  cylinders_pos := hc
  heads_pos := hh
  sectors_pos := hs
  bsize_eq := hb
  buf_len := by
    dsimp only
    split
    · exact hi.resolve_left (by assumption)
    · rfl
  dirty_len := by simp
  buf_canonical := by
    dsimp only
    split
    · exact (Buffer.wf_ofBytes image).1
    · exact Memory.wf_nil _
  buf_bounded := by
    dsimp only
    split
    · exact (Buffer.wf_ofBytes image).2
    · exact Memory.below_nil _
  idle_iff := by simp
  ptable_valid := validPtable_default hc

theorem HardDisk.Wf.accept {h : HardDisk} (w : h.Wf) {state : HdState} (hs : state ≠ .idle) (due offset : Nat) :
    (h.accept state due offset).Wf :=
  { w with idle_iff := by simp [HardDisk.accept, hs] }

theorem HardDisk.Wf.fireIdle {h : HardDisk} (w : h.Wf) (now : Nat) : (h.fireIdle now).Wf := by
  unfold HardDisk.fireIdle
  split
  · exact w
  · split
    · exact { w with idle_iff := by simp }
    · exact w

theorem HardDisk.Wf.ofRealWrite {h h' : HardDisk} (w : h.Wf) {o : Nat} {v : List Byte}
    (e : h.realWrite o v = .ok h') : h'.Wf := by
  obtain ⟨buf, dirty, hb, hd, rfl⟩ := HardDisk.realWrite_spec e
  have hl := (Buffer.write?_spec hb).2.1
  have hdl := (setBits?_spec hd).2.1
  unfold Buffer.write? at hb
  split at hb
  · rename_i hle
    obtain rfl := Option.some.inj hb
    exact { w with
      buf_len := w.buf_len
      dirty_len := hdl.trans w.dirty_len
      buf_canonical := Memory.wf_writeRange v w.buf_canonical o
      buf_bounded := Memory.below_writeRange zeroByte v w.buf_bounded hle }
  · cases hb

theorem HardDisk.Wf.setFlags {h : HardDisk} (w : h.Wf) (m p : Bool) :
    HardDisk.Wf { h with modified := m, writeProtected := p } := { w with }

theorem HardDisk.Wf.setDirty {h : HardDisk} (w : h.Wf) {dirty : List Bool} (hd : dirty.length = h.dirty.length) :
    HardDisk.Wf { h with dirty := dirty } := { w with dirty_len := hd.trans w.dirty_len }

theorem HardDisk.Wf.setPtable {h : HardDisk} (w : h.Wf) {pt : List Partition}
    (hp : validPtable pt h.geometry = true) : HardDisk.Wf { h with ptable := pt } := { w with ptable_valid := hp }

/-- A change of geometry at equal capacity and block size keeps the number of blocks. -/
theorem HardDisk.Wf.setGeometry {h : HardDisk} (w : h.Wf) {g : HdGeometry} (hc : 0 < g.cylinders) (hh : 0 < g.heads)
    (hs : 0 < g.sectors) (hb : g.bsize = hdBlockSize) (hn : g.numBytes = h.geometry.numBytes) (head : DriveHead) :
    HardDisk.Wf { h with geometry := g, ptable := [defaultPartition g], head := head } where
  cylinders_pos := hc
  heads_pos := hh
  sectors_pos := hs
  bsize_eq := hb
  buf_len := w.buf_len.trans hn.symm
  dirty_len := by
    have h1 : g.numBlocks * 512 = h.geometry.numBlocks * 512 := by
      have e1 : g.numBytes = g.numBlocks * 512 := congrArg (g.numBlocks * ·) hb
      have e2 : h.geometry.numBytes = h.geometry.numBlocks * 512 := congrArg (h.geometry.numBlocks * ·) w.bsize_eq
      rw [← e1, ← e2, hn]
    show h.dirty.length = g.numBlocks
    rw [w.dirty_len]
    omega
  buf_canonical := w.buf_canonical
  buf_bounded := w.buf_bounded
  idle_iff := w.idle_iff
  ptable_valid := validPtable_default hc

theorem HardDisk.Wf.setImage {h : HardDisk} (w : h.Wf) {image : List Byte}
    (hi : image.length = h.geometry.numBytes) :
    HardDisk.Wf { h with buf := Buffer.ofBytes image, dirty := h.dirty.map (fun _ => true), modified := true } :=
  { w with
    buf_len := hi
    dirty_len := by simpa using w.dirty_len
    buf_canonical := (Buffer.wf_ofBytes image).1
    buf_bounded := (Buffer.wf_ofBytes image).2 }

/-! ### The reset state -/

theorem launch_hostMem_wf (c : Config) : (State.launch c).hostMem.wf zeroByte = true := Memory.wf_nil _

theorem reset_hostMem_wf : State.reset.hostMem.wf zeroByte = true := Memory.wf_nil _

end Sys2Proof.Machine
end

