-- ==== Sys2Proof/Laws/Inv.lean ====
section
/-! SUPPORT. The good states of 10_state.md R61 under the updates of the state: what each update asks for. -/

namespace Sys2Proof.Machine

/-- The part of the invariant that speaks of the floppy drive. -/
structure FddInv (c : Config) (now : Nat) (f : Fdd) : Prop where
  cyl_lt : f.head.cyl < cylinderCount c.driveDiameter
  head_le : f.head.head ≤ 1
  drive_disk : ∀ D, f.disk = some D → f.head.offset < D.trackLen ∧ D.diameter = c.driveDiameter
  history : f.cylHistory.length ≤ c.histDepth
  drive_wf : ∀ D, f.disk = some D → D.Wf c
  pending_wf : ∀ D due, f.pending = some { change := .insert D, dueAt := due } →
    D.Wf c ∧ D.diameter = c.driveDiameter
  motor : f.motorOn = true → f.motorSwitchTs ≠ none
  stamps : ∀ t, (f.motorSwitchTs = some t ∨ f.latestStepUp = some t ∨ f.latestStepDown = some t) → t ≤ now

theorem State.Inv.fdd {s : State} (h : s.Inv) : FddInv s.cfg s.now s.fdd :=
  ⟨h.cyl_lt, h.head_le, h.drive_disk, h.history, h.drive_wf, h.pending_wf, h.motor, h.stamps⟩

theorem State.Inv.setFdd {s : State} (h : s.Inv) {f : Fdd} (hf : FddInv s.cfg s.now f) : (s.setFdd f).Inv :=
  ⟨hf.cyl_lt, hf.head_le, hf.drive_disk, hf.history, h.hard_disk, h.stage_wf, hf.drive_wf, hf.pending_wf,
    h.host_canonical, hf.motor, hf.stamps⟩

theorem State.Inv.setRet {s : State} (h : s.Inv) (r : CmdResult) : (s.setRet r).Inv :=
  ⟨h.cyl_lt, h.head_le, h.drive_disk, h.history, h.hard_disk, h.stage_wf, h.drive_wf, h.pending_wf,
    h.host_canonical, h.motor, h.stamps⟩

theorem State.Inv.setInbox {s : State} (h : s.Inv) (l : List HostEvent) : (s.setInbox l).Inv :=
  ⟨h.cyl_lt, h.head_le, h.drive_disk, h.history, h.hard_disk, h.stage_wf, h.drive_wf, h.pending_wf,
    h.host_canonical, h.motor, h.stamps⟩

theorem State.Inv.setStage {s : State} (h : s.Inv) {d : Option Disk} (hd : ∀ D, d = some D → D.Wf s.cfg) :
    (s.setStage d).Inv :=
  ⟨h.cyl_lt, h.head_le, h.drive_disk, h.history, h.hard_disk, hd, h.drive_wf, h.pending_wf, h.host_canonical,
    h.motor, h.stamps⟩

theorem State.Inv.setHd {s : State} (h : s.Inv) {d : Option HardDisk} (hd : ∀ k, d = some k → k.Wf) :
    (s.setHd d).Inv :=
  ⟨h.cyl_lt, h.head_le, h.drive_disk, h.history, hd, h.stage_wf, h.drive_wf, h.pending_wf, h.host_canonical,
    h.motor, h.stamps⟩

theorem State.Inv.setHostMem {s : State} (h : s.Inv) {m : Memory} (hm : m.wf zeroByte = true) :
    (s.setHostMem m).Inv :=
  ⟨h.cyl_lt, h.head_le, h.drive_disk, h.history, h.hard_disk, h.stage_wf, h.drive_wf, h.pending_wf, hm, h.motor,
    h.stamps⟩

/-- Time only moves forward (10_state.md R22). -/
theorem State.Inv.setNow {s : State} (h : s.Inv) {n : Nat} (hn : s.now ≤ n) : (s.setNow n).Inv :=
  ⟨h.cyl_lt, h.head_le, h.drive_disk, h.history, h.hard_disk, h.stage_wf, h.drive_wf, h.pending_wf,
    h.host_canonical, h.motor, fun t ht => (h.stamps t ht).trans hn⟩

theorem FddInv.later {c : Config} {n m : Nat} {f : Fdd} (h : FddInv c n f) (hm : n ≤ m) : FddInv c m f :=
  ⟨h.cyl_lt, h.head_le, h.drive_disk, h.history, h.drive_wf, h.pending_wf, h.motor,
    fun t ht => (h.stamps t ht).trans hm⟩

/-- A cursor on the track of the Disk in the drive. -/
theorem FddInv.setOffset {c : Config} {n : Nat} {f : Fdd} (h : FddInv c n f) {D : Disk} (hd : f.disk = some D)
    (o : Nat) : FddInv c n (f.setOffset (o % D.trackLen)) := by
  refine ⟨h.cyl_lt, h.head_le, ?_, h.history, h.drive_wf, h.pending_wf, h.motor, h.stamps⟩
  intro D' hD'
  rw [Fdd.setOffset_disk, hd] at hD'
  cases hD'
  exact ⟨Nat.mod_lt _ (h.drive_wf D hd).trackLen_pos, (h.drive_disk D hd).2⟩

/-- Another Disk of the same layout in the drive. -/
theorem FddInv.setDisk {c : Config} {n : Nat} {f : Fdd} (h : FddInv c n f) {D D' : Disk} (hd : f.disk = some D)
    (hw : D'.Wf c) (hl : D'.trackLen = D.trackLen) (hdi : D'.diameter = D.diameter) :
    FddInv c n { f with disk := some D' } := by
  refine ⟨h.cyl_lt, h.head_le, ?_, h.history, ?_, h.pending_wf, h.motor, h.stamps⟩
  · intro D2 h2
    cases h2
    rw [hl, hdi]
    exact h.drive_disk D hd
  · intro D2 h2
    cases h2
    exact hw

/-- The insertion event (42_drive_mechanics.md R197). -/
theorem FddInv.insertDisk {c : Config} {n : Nat} {f : Fdd} (h : FddInv c n f) {D : Disk} {due : Nat}
    (hp : f.pending = some { change := .insert D, dueAt := due }) : FddInv c n (f.insertDisk D) := by
  have hp' := h.pending_wf D due hp
  refine ⟨by simpa using h.cyl_lt, ?_, ?_, h.history, ?_, ?_, h.motor, h.stamps⟩
  · unfold Fdd.insertDisk
    dsimp only
    split <;> exact h.head_le
  · unfold Fdd.insertDisk
    dsimp only
    intro D' hD'
    cases hD'
    refine ⟨?_, hp'.2⟩
    split
    · exact hp'.1.trackLen_pos
    · omega
  · intro D' hD'
    cases hD'
    exact hp'.1
  · intro D' d hD'
    cases hD'

/-- The ejection event (42_drive_mechanics.md R198). -/
theorem FddInv.ejectDisk {c : Config} {n : Nat} {f : Fdd} (h : FddInv c n f) : FddInv c n f.ejectDisk := by
  refine ⟨h.cyl_lt, h.head_le, ?_, h.history, ?_, ?_, h.motor, h.stamps⟩
  · intro D hD
    cases hD
  · intro D hD
    cases hD
  · intro D d hD
    cases hD

/-- The Disk of a slot is well-formed. -/
theorem State.Inv.disk_wf {s : State} (h : s.Inv) {slot : Sel} {D : Disk} (hd : s.diskAt slot = some D) :
    D.Wf s.cfg := by
  cases slot
  · exact h.stage_wf D hd
  · exact h.drive_wf D hd

/-- Another Disk of the same layout in a slot. -/
theorem State.Inv.putDisk {s : State} (h : s.Inv) {slot : Sel} {D D' : Disk} (hd : s.diskAt slot = some D)
    (hw : D'.Wf s.cfg) (hl : D'.trackLen = D.trackLen) (hdi : D'.diameter = D.diameter) : (s.putDisk slot D').Inv := by
  cases slot
  · exact h.setStage (fun D2 h2 => by cases h2; exact hw)
  · exact h.setFdd (h.fdd.setDisk hd hw hl hdi)

end Sys2Proof.Machine
end

