-- ==== Sys2Proof/Laws/Mfm.lean ====
section
/-! SUPPORT. The bits of the codec's bytes, one lemma per byte function, and the codec's functions on lists by
position. -/

namespace Sys2Proof.Machine

/-! ### Bytes -/

/-- The two bytes of the MFM word of `v`: data bits at the even places, the odd places 0. -/
theorem spread_bits (v : Byte) :
    ((spread v).extractLsb' 8 8).getLsbD 0 = v.getLsbD 4 ∧ ((spread v).extractLsb' 8 8).getLsbD 2 = v.getLsbD 5 ∧
    ((spread v).extractLsb' 8 8).getLsbD 4 = v.getLsbD 6 ∧ ((spread v).extractLsb' 8 8).getLsbD 6 = v.getLsbD 7 ∧
    ((spread v).extractLsb' 0 8).getLsbD 0 = v.getLsbD 0 ∧ ((spread v).extractLsb' 0 8).getLsbD 2 = v.getLsbD 1 ∧
    ((spread v).extractLsb' 0 8).getLsbD 4 = v.getLsbD 2 ∧ ((spread v).extractLsb' 0 8).getLsbD 6 = v.getLsbD 3 ∧
    (spread v).extractLsb' 8 8 &&& 0xAA = 0 ∧ (spread v).extractLsb' 0 8 &&& 0xAA = 0 := by
  revert v
  decide

/-- Decoding the word a byte encodes to gives the byte. -/
theorem gather_spread (v : Byte) :
    gather ((spread v).extractLsb' 8 8 ++ (spread v).extractLsb' 0 8) = v := by
  revert v
  decide

theorem orIf_getLsbD (c : Bool) (v m : Byte) (k : Nat) :
    (if c = true then v ||| m else v).getLsbD k = (v.getLsbD k || (c && m.getLsbD k)) := by cases c <;> simp

/-- `gather` takes the even places of its word, low half first. -/
theorem gather_bit (w : MfmWord) {k : Nat} (hk : k < 8) : (gather w).getLsbD k = w.getLsbD (2 * k) := by
  obtain rfl | rfl | rfl | rfl | rfl | rfl | rfl | rfl :
    k = 0 ∨ k = 1 ∨ k = 2 ∨ k = 3 ∨ k = 4 ∨ k = 5 ∨ k = 6 ∨ k = 7 := by omega
  all_goals
    simp only [gather, List.range, List.range.loop, List.foldl_cons, List.foldl_nil, orIf_getLsbD]
    simp

/-- The data positions of a byte are kept by clock synthesis, and the data positions alone decide the result. -/
theorem addClock_data (v p : Byte) : addClock v p &&& 0x55 = v &&& 0x55 := by
  apply BitVec.eq_of_getLsbD_eq
  intro i hi
  obtain rfl | rfl | rfl | rfl | rfl | rfl | rfl | rfl :
    i = 0 ∨ i = 1 ∨ i = 2 ∨ i = 3 ∨ i = 4 ∨ i = 5 ∨ i = 6 ∨ i = 7 := by omega
  all_goals simp [addClock]

theorem addClock_congr {v w p q : Byte} (h : v &&& 0x55 = w &&& 0x55) (hp : p &&& 0x01 = q &&& 0x01) :
    addClock v p = addClock w q := by
  simp only [addClock, h, hp]

/-- Each bit of a clocked byte (40_mfm_codec.md R126): data bits as they were, a clock bit 1 where both neighbours
are 0. -/
theorem addClock_bits (v p : Byte) :
    (addClock v p).getLsbD 0 = v.getLsbD 0 ∧ (addClock v p).getLsbD 2 = v.getLsbD 2 ∧
    (addClock v p).getLsbD 4 = v.getLsbD 4 ∧ (addClock v p).getLsbD 6 = v.getLsbD 6 ∧
    (addClock v p).getLsbD 1 = (!v.getLsbD 0 && !v.getLsbD 2) ∧
    (addClock v p).getLsbD 3 = (!v.getLsbD 2 && !v.getLsbD 4) ∧
    (addClock v p).getLsbD 5 = (!v.getLsbD 4 && !v.getLsbD 6) ∧
    (addClock v p).getLsbD 7 = (!v.getLsbD 6 && !p.getLsbD 0) := by
  simp [addClock, Bool.and_comm, Bool.or_comm]

/-! ### Lists by position -/

@[simp] theorem length_mfmEncode (l : List Byte) : (mfmEncode l).length = 2 * l.length := by
  induction l with
  | nil => rfl
  | cons v rest ih => simp only [mfmEncode, List.length_cons, ih]; omega

/-- The two bytes of the `i`-th data byte. -/
theorem getElem?_mfmEncode (l : List Byte) {i : Nat} {v : Byte} (h : l[i]? = some v) :
    (mfmEncode l)[2 * i]? = some ((spread v).extractLsb' 8 8) ∧
      (mfmEncode l)[2 * i + 1]? = some ((spread v).extractLsb' 0 8) := by
  induction l generalizing i with
  | nil => simp at h
  | cons w rest ih =>
    cases i with
    | zero => simp_all [mfmEncode]
    | succ i =>
      have := ih (i := i) (by simpa using h)
      simpa [mfmEncode, Nat.mul_add] using this

@[simp] theorem length_addClocks (p : Byte) (l : List Byte) : (addClocks p l).length = l.length := by
  induction l generalizing p with
  | nil => rfl
  | cons v rest ih => simp [addClocks, ih]

/-- The first clocked byte follows `p`. -/
theorem getElem?_addClocks_zero (p : Byte) (l : List Byte) :
    (addClocks p l)[0]? = l[0]?.map (fun v => addClock v p) := by cases l <;> simp [addClocks]

/-- Every later one follows the clocked byte before it. -/
theorem getElem?_addClocks_succ (p : Byte) (l : List Byte) {i : Nat} {u : Byte} (h : (addClocks p l)[i]? = some u) :
    (addClocks p l)[i + 1]? = l[i + 1]?.map (fun v => addClock v u) := by
  induction l generalizing p i with
  | nil => simp [addClocks] at h
  | cons v rest ih =>
    cases i with
    | zero =>
      simp only [addClocks, List.getElem?_cons_zero, Option.some.injEq] at h
      subst h
      simp [addClocks, getElem?_addClocks_zero]
    | succ i =>
      simp only [addClocks, List.getElem?_cons_succ] at h ⊢
      exact ih _ h

@[simp] theorem length_oddEvenEncode (l : List Byte) : (oddEvenEncode l).length = 2 * l.length := by
  simp [oddEvenEncode]; omega

/-- The data byte that `MFM_DEC` reads from a pair of bytes (40_mfm_codec.md R122). -/
theorem getElem?_mfmDecode (l : List Byte) {i : Nat} {hi lo : Byte} (h1 : l[2 * i]? = some hi)
    (h2 : l[2 * i + 1]? = some lo) : (mfmDecode l)[i]? = some (gather (hi ++ lo)) := by
  induction l using mfmDecode.induct generalizing i with
  | case1 a b rest ih =>
    cases i with
    | zero => simp at h1 h2; subst h1 h2; simp [mfmDecode]
    | succ i =>
      simp only [mfmDecode, List.getElem?_cons_succ]
      exact ih (by simpa [Nat.mul_add] using h1) (by simpa [Nat.mul_add] using h2)
  | case2 l h =>
    match l, h with
    | [], _ => simp at h1
    | [a], _ => simp at h2
    | a :: b :: r, h => exact absurd rfl (h a b r)

/-- `MFM_DEC` halves the length (40_mfm_codec.md R122). -/
theorem length_mfmDecode (l : List Byte) (h : l.length % 2 = 0) : 2 * (mfmDecode l).length = l.length := by
  induction l using mfmDecode.induct with
  | case1 a b rest ih =>
    simp [mfmDecode] at h ⊢
    have := ih (by omega)
    omega
  | case2 l h' =>
    match l, h' with
    | [], _ => simp [mfmDecode]
    | [a], _ => simp at h
    | a :: b :: r, h' => exact absurd rfl (h' a b r)

end Sys2Proof.Machine
end

