-- ==== Sys2Proof/Laws/Partition.lean ====
section
/-! SUPPORT. The serialised partition list of 30_encoding.md R107 parses back, and a list cut inside an entry, or
with a flag above 1, does not parse; the disjointness check of 43_hard_disk.md R226 in terms of shared cylinders. -/

namespace Sys2Proof.Machine

/-- A 4-byte number parses back. -/
theorem be4_ofNat {n : Nat} (h : n < 2 ^ 32) :
    be4 (BitVec.ofNat 8 (n / 2 ^ 24)) (BitVec.ofNat 8 (n / 2 ^ 16)) (BitVec.ofNat 8 (n / 2 ^ 8)) (BitVec.ofNat 8 n)
      = n := by
  simp [be4]
  omega

/-- The bytes of an entry, one by one. -/
theorem Partition.bytes_eq (p : Partition) : p.bytes =
    BitVec.ofNat 8 (p.lowCylinder / 2 ^ 24) :: BitVec.ofNat 8 (p.lowCylinder / 2 ^ 16) ::
    BitVec.ofNat 8 (p.lowCylinder / 2 ^ 8) :: BitVec.ofNat 8 p.lowCylinder ::
    BitVec.ofNat 8 (p.highCylinder / 2 ^ 24) :: BitVec.ofNat 8 (p.highCylinder / 2 ^ 16) ::
    BitVec.ofNat 8 (p.highCylinder / 2 ^ 8) :: BitVec.ofNat 8 p.highCylinder ::
    BitVec.ofNat 8 (p.dosType.toNat / 2 ^ 24) :: BitVec.ofNat 8 (p.dosType.toNat / 2 ^ 16) ::
    BitVec.ofNat 8 (p.dosType.toNat / 2 ^ 8) :: BitVec.ofNat 8 p.dosType.toNat ::
    (if p.bootable then 1 else 0) :: BitVec.ofNat 8 p.name.length :: p.name := by
  simp [Partition.bytes, be32Bytes]

/-- An entry takes 14 bytes and its name. -/
theorem Partition.length_bytes (p : Partition) : p.bytes.length = 14 + p.name.length := by
  rw [Partition.bytes_eq]
  simp
  omega

/-- One entry parses back, whatever follows it. -/
theorem parseEntry_bytes {p : Partition} (hp : p.Fits) (rest : List Byte) :
    parseEntry (p.bytes ++ rest) = some (p, rest) := by
  obtain ⟨h1, h2, h3⟩ := hp
  have hb : asBool (if p.bootable then (1 : Byte) else 0).toNat = some p.bootable := by cases p.bootable <;> rfl
  have hl : (BitVec.ofNat 8 p.name.length).toNat = p.name.length := by simp; omega
  rw [Partition.bytes_eq]
  simp only [List.cons_append, parseEntry, hb, hl]
  rw [if_neg (by simp), be4_ofNat h1, be4_ofNat h2, be4_ofNat p.dosType.isLt]
  simp

/-- An entry that is cut short does not parse. -/
theorem parseEntry_take {p : Partition} (hp : p.Fits) {k : Nat} (hk : k < p.bytes.length) :
    parseEntry (p.bytes.take k) = none := by
  by_cases h14 : k < 14
  · have hlen : (p.bytes.take k).length < 14 := by simp; omega
    generalize p.bytes.take k = l at hlen
    unfold parseEntry
    split
    · simp at hlen; omega
    · rfl
  · obtain ⟨j, rfl⟩ : ∃ j, k = 14 + j := ⟨k - 14, by omega⟩
    rw [Partition.length_bytes] at hk
    have hl : (BitVec.ofNat 8 p.name.length).toNat = p.name.length := by simp; have := hp.2.2; omega
    rw [Partition.bytes_eq, Nat.add_comm 14 j]
    simp only [List.take_succ_cons, parseEntry, hl]
    split
    · rfl
    · rw [if_pos (by simp; omega)]

/-- A non-empty list parses as its first entry does and then as the rest does. -/
theorem parseEntries_succ {n : Nat} {bytes rest : List Byte} {p : Partition} (h : parseEntry bytes = some (p, rest)) :
    parseEntries (n + 1) bytes = (parseEntries n rest).map (fun more => p :: more) := by
  cases bytes with
  | nil => cases h
  | cons b l =>
    simp only [parseEntries, h]
    cases parseEntries n rest <;> rfl

/-- A serialised list parses back with enough steps. -/
theorem parseEntries_ptableBytes {pt : List Partition} (hf : ∀ p ∈ pt, p.Fits) {n : Nat} (hn : pt.length ≤ n) :
    parseEntries n (ptableBytes pt) = some pt := by
  induction pt generalizing n with
  | nil => cases n <;> rfl
  | cons p r ih =>
    obtain ⟨n, rfl⟩ : ∃ m, n = m + 1 := ⟨n - 1, by simp at hn; omega⟩
    have e : ptableBytes (p :: r) = p.bytes ++ ptableBytes r := rfl
    rw [e, parseEntries_succ (parseEntry_bytes (hf p (by simp)) _), ih (fun q hq => hf q (by simp [hq]))
      (by simpa using hn)]
    rfl

/-- A serialised list has at least as many bytes as entries. -/
theorem length_le_ptableBytes (pt : List Partition) : pt.length ≤ (ptableBytes pt).length := by
  induction pt with
  | nil => simp
  | cons p r ih =>
    have e : ptableBytes (p :: r) = p.bytes ++ ptableBytes r := rfl
    rw [e, List.length_append, Partition.length_bytes]
    simp
    omega

/-- A serialised list parses back (30_encoding.md R107). -/
theorem parsePtable_ptableBytes {pt : List Partition} (hf : ∀ p ∈ pt, p.Fits) :
    parsePtable (ptableBytes pt) = some pt :=
  parseEntries_ptableBytes hf (length_le_ptableBytes pt)

/-- Whole entries and then bytes that are no entry do not parse. -/
theorem parsePtable_append_none {pt : List Partition} (hf : ∀ p ∈ pt, p.Fits) {tail : List Byte} (hne : tail ≠ [])
    (ht : parseEntry tail = none) : parsePtable (ptableBytes pt ++ tail) = none := by
  unfold parsePtable
  generalize (ptableBytes pt ++ tail).length = n
  induction pt generalizing n with
  | nil =>
    show parseEntries n tail = none
    cases tail with
    | nil => exact absurd rfl hne
    | cons b l =>
      cases n with
      | zero => rfl
      | succ n => simp only [parseEntries, ht]
  | cons q r ih =>
    have e : ptableBytes (q :: r) ++ tail = q.bytes ++ (ptableBytes r ++ tail) := List.append_assoc _ _ _
    rw [e]
    cases n with
    | zero => rw [Partition.bytes_eq]; rfl
    | succ n =>
      rw [parseEntries_succ (parseEntry_bytes (hf q (by simp)) _), ih (fun x hx => hf x (by simp [hx]))]
      rfl

/-- A list that ends inside an entry does not parse (30_encoding.md R107). -/
theorem parsePtable_cut {pt : List Partition} (hf : ∀ p ∈ pt, p.Fits) {p : Partition} (hp : p.Fits) {k : Nat}
    (h0 : 0 < k) (hk : k < p.bytes.length) : parsePtable (ptableBytes pt ++ p.bytes.take k) = none :=
  parsePtable_append_none hf (by rw [← List.length_pos_iff_ne_nil, List.length_take]; omega) (parseEntry_take hp hk)

/-- An entry whose flag is above 1 does not parse, whatever else stands in it. -/
theorem parseEntry_flag {ranges rest : List Byte} {flag : Byte} (hr : ranges.length = 12) (hf : 1 < flag.toNat) :
    parseEntry (ranges ++ flag :: rest) = none := by
  match ranges, hr with
  | [_, _, _, _, _, _, _, _, _, _, _, _], _ =>
    have hb : asBool flag.toNat = none := by simp only [asBool]; rw [if_neg (by omega), if_neg (by omega)]
    cases rest with
    | nil => rfl
    | cons len rest => simp only [List.cons_append, List.nil_append, parseEntry, hb]

/-- A list with an entry whose flag is above 1 does not parse (30_encoding.md R107). -/
theorem parsePtable_flag {pt : List Partition} (hp : ∀ p ∈ pt, p.Fits) {ranges rest : List Byte} {flag : Byte}
    (hr : ranges.length = 12) (hf : 1 < flag.toNat) :
    parsePtable (ptableBytes pt ++ (ranges ++ flag :: rest)) = none :=
  parsePtable_append_none hp (by simp) (parseEntry_flag hr hf)

/-- The check of 43_hard_disk.md R226 on two entries: with both ranges non-empty, they share no cylinder. -/
theorem Partition.disjoint_iff {p q : Partition} (h1 : p.lowCylinder ≤ p.highCylinder)
    (h2 : q.lowCylinder ≤ q.highCylinder) : p.disjoint q = true ↔
      ∀ c, ¬ (p.lowCylinder ≤ c ∧ c ≤ p.highCylinder ∧ q.lowCylinder ≤ c ∧ c ≤ q.highCylinder) := by
  simp only [Partition.disjoint, Bool.or_eq_true, decide_eq_true_eq]
  constructor
  · intro h c
    omega
  · intro h
    by_contra hc
    exact h (max p.lowCylinder q.lowCylinder) (by omega)

/-- The check of 43_hard_disk.md R226 on all pairs. -/
theorem allDisjoint_iff (pt : List Partition) :
    allDisjoint pt = true ↔ pt.Pairwise (fun p q => p.disjoint q = true) := by
  induction pt with
  | nil => simp [allDisjoint]
  | cons p r ih => simp [allDisjoint, ih, List.all_eq_true]

end Sys2Proof.Machine
end

