-- ==== Sys2Proof/Laws/PerInstr.lean ====
section
/-! SUPPORT. Per instruction: its encoding holds a whole header, and the first byte is an assigned opcode
(30_encoding.md R101, R104, R105). -/

namespace Sys2Proof.Laws.EncodedHeader

/-- The encoding of an instruction is a packet: it has the 21-byte header, and the opcode of its first byte is one that
30_encoding.md R104 assigns. -/
def Statement (i : Instr) : Prop :=
  headerBytes ≤ (encode i).length ∧
    ∀ b, (encode i).head? = some b →
      b.toNat ∈ List.range' 0x01 5 ++ List.range' 0x10 12 ++ List.range' 0x20 15 ++ List.range' 0x30 15
        ++ List.range' 0x40 10 ++ [0xF0]

/-- A packet whose opcode is assigned. -/
theorem of_packet {i : Instr} (op a b c d : Nat) (payload : List Byte) (h : encode i = packet op a b c d payload)
    (hop : (BitVec.ofNat 8 op).toNat ∈ List.range' 0x01 5 ++ List.range' 0x10 12 ++ List.range' 0x20 15
      ++ List.range' 0x30 15 ++ List.range' 0x40 10 ++ [0xF0]) : Statement i := by
  refine ⟨by rw [h, length_packet]; omega, fun v hv => ?_⟩
  rw [h] at hv
  cases hv
  exact hop

theorem mfmEnc (src : List Byte) : Statement (.mfmEnc src) :=
  of_packet _ _ _ _ _ _ rfl (by decide)

theorem mfmDec (src : List Byte) : Statement (.mfmDec src) :=
  of_packet _ _ _ _ _ _ rfl (by decide)

theorem mfmEncoe (src : List Byte) : Statement (.mfmEncoe src) :=
  of_packet _ _ _ _ _ _ rfl (by decide)

theorem mfmDecoe (src : List Byte) : Statement (.mfmDecoe src) :=
  of_packet _ _ _ _ _ _ rfl (by decide)

theorem mfmClk (prev : Nat) (buf : List Byte) : Statement (.mfmClk prev buf) :=
  of_packet _ _ _ _ _ _ rfl (by decide)

theorem trkInit (diameter density wp : Nat) : Statement (.trkInit diameter density wp) :=
  of_packet _ _ _ _ _ _ rfl (by decide)

theorem trkClear (sel : Nat) : Statement (.trkClear sel) :=
  of_packet _ _ _ _ _ _ rfl (by decide)

theorem trkRdbit (sel track bitOffset : Nat) : Statement (.trkRdbit sel track bitOffset) :=
  of_packet _ _ _ _ _ _ rfl (by decide)

theorem trkWrbit (sel track bitOffset value : Nat) : Statement (.trkWrbit sel track bitOffset value) :=
  of_packet _ _ _ _ _ _ rfl (by decide)

theorem trkRd8 (sel track byteOffset : Nat) : Statement (.trkRd8 sel track byteOffset) :=
  of_packet _ _ _ _ _ _ rfl (by decide)

theorem trkWr8 (sel track byteOffset value : Nat) : Statement (.trkWr8 sel track byteOffset value) :=
  of_packet _ _ _ _ _ _ rfl (by decide)

theorem trkView (sel track : Nat) : Statement (.trkView sel track) :=
  of_packet _ _ _ _ _ _ rfl (by decide)

theorem trkSect (sel track sector : Nat) : Statement (.trkSect sel track sector) :=
  of_packet _ _ _ _ _ _ rfl (by decide)

theorem trkCsum (sel : Nat) : Statement (.trkCsum sel) :=
  of_packet _ _ _ _ _ _ rfl (by decide)

theorem trkCsumt (sel track : Nat) : Statement (.trkCsumt sel track) :=
  of_packet _ _ _ _ _ _ rfl (by decide)

theorem trkStat (sel : Nat) : Statement (.trkStat sel) :=
  of_packet _ _ _ _ _ _ rfl (by decide)

theorem trkSetflags (sel modified wp : Nat) : Statement (.trkSetflags sel modified wp) :=
  of_packet _ _ _ _ _ _ rfl (by decide)

theorem fddMotor (on : Nat) : Statement (.fddMotor on) :=
  of_packet _ _ _ _ _ _ rfl (by decide)

theorem fddSpeed : Statement (.fddSpeed) :=
  of_packet _ _ _ _ _ _ rfl (by decide)

theorem fddStep (dir : Nat) : Statement (.fddStep dir) :=
  of_packet _ _ _ _ _ _ rfl (by decide)

theorem fddRdyup : Statement (.fddRdyup) :=
  of_packet _ _ _ _ _ _ rfl (by decide)

theorem fddRdydn : Statement (.fddRdydn) :=
  of_packet _ _ _ _ _ _ rfl (by decide)

theorem fddPolls : Statement (.fddPolls) :=
  of_packet _ _ _ _ _ _ rfl (by decide)

theorem fddSide (head : Nat) : Statement (.fddSide head) :=
  of_packet _ _ _ _ _ _ rfl (by decide)

theorem fddRot : Statement (.fddRot) :=
  of_packet _ _ _ _ _ _ rfl (by decide)

theorem fddRd8r : Statement (.fddRd8r) :=
  of_packet _ _ _ _ _ _ rfl (by decide)

theorem fddWr8r (value : Nat) : Statement (.fddWr8r value) :=
  of_packet _ _ _ _ _ _ rfl (by decide)

theorem fddIns (delay : Nat) : Statement (.fddIns delay) :=
  of_packet _ _ _ _ _ _ rfl (by decide)

theorem fddEj (delay : Nat) : Statement (.fddEj delay) :=
  of_packet _ _ _ _ _ _ rfl (by decide)

theorem fddSync : Statement (.fddSync) :=
  of_packet _ _ _ _ _ _ rfl (by decide)

theorem fddStat : Statement (.fddStat) :=
  of_packet _ _ _ _ _ _ rfl (by decide)

theorem fddPos : Statement (.fddPos) :=
  of_packet _ _ _ _ _ _ rfl (by decide)

theorem hddInit (cylinders heads sectors bsize : Nat) (image : List Byte) : Statement (.hddInit cylinders heads sectors bsize image) :=
  of_packet _ _ _ _ _ _ rfl (by decide)

theorem hddDisc : Statement (.hddDisc) :=
  of_packet _ _ _ _ _ _ rfl (by decide)

theorem hddRead (offset length addr : Nat) : Statement (.hddRead offset length addr) :=
  of_packet _ _ _ _ _ _ rfl (by decide)

theorem hddWrite (offset length addr : Nat) : Statement (.hddWrite offset length addr) :=
  of_packet _ _ _ _ _ _ rfl (by decide)

theorem hddRdblk (block : Nat) : Statement (.hddRdblk block) :=
  of_packet _ _ _ _ _ _ rfl (by decide)

theorem hddWrblk (block : Nat) (data : List Byte) : Statement (.hddWrblk block data) :=
  of_packet _ _ _ _ _ _ rfl (by decide)

theorem hddChgeo (cylinders heads sectors bsize : Nat) : Statement (.hddChgeo cylinders heads sectors bsize) :=
  of_packet _ _ _ _ _ _ rfl (by decide)

theorem hddFmt (fsType : Nat) (name : List Byte) : Statement (.hddFmt fsType name) :=
  of_packet _ _ _ _ _ _ rfl (by decide)

theorem hddStat : Statement (.hddStat) :=
  of_packet _ _ _ _ _ _ rfl (by decide)

theorem hddStat2 : Statement (.hddStat2) :=
  of_packet _ _ _ _ _ _ rfl (by decide)

theorem hddSetflags (modified wp : Nat) : Statement (.hddSetflags modified wp) :=
  of_packet _ _ _ _ _ _ rfl (by decide)

theorem hddDirty (block : Nat) : Statement (.hddDirty block) :=
  of_packet _ _ _ _ _ _ rfl (by decide)

theorem hddClrdirty (block : Nat) : Statement (.hddClrdirty block) :=
  of_packet _ _ _ _ _ _ rfl (by decide)

theorem hddSetpt (plist : List Byte) : Statement (.hddSetpt plist) :=
  of_packet _ _ _ _ _ _ rfl (by decide)

theorem hddGeo : Statement (.hddGeo) :=
  of_packet _ _ _ _ _ _ rfl (by decide)

theorem geoNtrk (gsel : Nat) : Statement (.geoNtrk gsel) :=
  of_packet _ _ _ _ _ _ rfl (by decide)

theorem geoNsec (gsel track : Nat) : Statement (.geoNsec gsel track) :=
  of_packet _ _ _ _ _ _ rfl (by decide)

theorem geoB2ts (gsel block : Nat) : Statement (.geoB2ts gsel block) :=
  of_packet _ _ _ _ _ _ rfl (by decide)

theorem geoTs2b (gsel track sector : Nat) : Statement (.geoTs2b gsel track sector) :=
  of_packet _ _ _ _ _ _ rfl (by decide)

theorem geoB2chs (gsel block : Nat) : Statement (.geoB2chs gsel block) :=
  of_packet _ _ _ _ _ _ rfl (by decide)

theorem geoChs2b (gsel cyl head sector : Nat) : Statement (.geoChs2b gsel cyl head sector) :=
  of_packet _ _ _ _ _ _ rfl (by decide)

theorem geoZone (track : Nat) : Statement (.geoZone track) :=
  of_packet _ _ _ _ _ _ rfl (by decide)

theorem geoNext (gsel track sector : Nat) : Statement (.geoNext gsel track sector) :=
  of_packet _ _ _ _ _ _ rfl (by decide)

theorem geoCheck (gsel : Nat) : Statement (.geoCheck gsel) :=
  of_packet _ _ _ _ _ _ rfl (by decide)

theorem geoNblk (gsel : Nat) : Statement (.geoNblk gsel) :=
  of_packet _ _ _ _ _ _ rfl (by decide)

theorem tick : Statement (.tick) :=
  of_packet _ _ _ _ _ _ rfl (by decide)

end Sys2Proof.Laws.EncodedHeader
end

