-- ==== Sys2Proof/Tests/Slice0.lean ====
section
/-! SUPPORT. The model's own tests. Expected values come from spec/: packets are written out from 30_encoding.md R101
and R105, results from the vectors V1 to V101 and the properties S1 to S9 of 95_test_vectors.md, unless a comment says
how a value was worked out. At the end, one witness for every statement that has hypotheses. -/

namespace Sys2Proof.Tests

open Sys2Proof Sys2Proof.Machine

/-! ### Helpers -/

/-- What a step's next state shows. -/
def look {α : Type} (o : Outcome) (f : State → α) : Option α :=
  match o with
  | .next t => some (f t)
  | .fault _ => none
  | .refused _ => none

/-- What a command returns in a state. -/
def answer (i : Instr) (s : State) : Option CmdResult := (look (exec i s) State.ret).join

/-- A new 3.5 inch DD Disk. -/
def freshDisk : Disk := newDisk .inch35 .dd 12668 false

/-- The same Disk with some bytes written. -/
def diskOf (cells : List Host.Cell) : Disk := { freshDisk with data := { cells := cells } }

/-- A Disk with short tracks, for tests that read a whole track. -/
def shortDisk (d : Diameter) (len : Nat) (cells : List Host.Cell) : Disk :=
  { diameter := d, density := .dd, trackLen := len, data := { cells := cells }, modified := false,
    writeProtected := false }

/-- The reset state with a Disk on the stage. -/
def staged (D : Disk) : State := State.reset.setStage (some D)

/-- The reset state with a Disk in the drive and the cursor at `o`. -/
def inserted (D : Disk) (o : Nat) : State :=
  State.reset.setFdd { Fdd.reset with disk := some D, head := { cyl := 0, head := 0, offset := o } }

/-- What `HDD_INIT 4, 2, 8, 512` builds. -/
def disk64 : HardDisk where
  geometry := { cylinders := 4, heads := 2, sectors := 8, bsize := 512 }
  ptable := [{ name := [], dosType := 0, lowCylinder := 0, highCylinder := 3, bootable := false }]
  drivers := []
  buf := { len := 32768, mem := { cells := [] } }
  dirty := List.replicate 64 true
  state := .idle
  head := { cyl := 0, head := 0, offset := 0 }
  idleDue := none
  writeProtected := false
  modified := false

/-- The reset state with a hard disk connected. -/
def connected (h : HardDisk) : State := State.reset.setHd (some h)

/-! ### Well-formedness: an ill-formed term for each check -/

theorem test_wellformed_refuses_wide_operands :
    ([.mfmClk (2 ^ 32) [],
      .trkInit (2 ^ 32) 0 0, .trkInit 0 (2 ^ 32) 0, .trkInit 0 0 (2 ^ 32), .trkClear (2 ^ 32),
      .trkRdbit (2 ^ 32) 0 0, .trkRdbit 0 (2 ^ 32) 0, .trkRdbit 0 0 (2 ^ 32),
      .trkWrbit (2 ^ 32) 0 0 0, .trkWrbit 0 (2 ^ 32) 0 0, .trkWrbit 0 0 (2 ^ 32) 0, .trkWrbit 0 0 0 (2 ^ 32),
      .trkRd8 (2 ^ 32) 0 0, .trkRd8 0 (2 ^ 32) 0, .trkRd8 0 0 (2 ^ 32),
      .trkWr8 (2 ^ 32) 0 0 0, .trkWr8 0 (2 ^ 32) 0 0, .trkWr8 0 0 (2 ^ 32) 0, .trkWr8 0 0 0 (2 ^ 32),
      .trkView (2 ^ 32) 0, .trkView 0 (2 ^ 32),
      .trkSect (2 ^ 32) 0 0, .trkSect 0 (2 ^ 32) 0, .trkSect 0 0 (2 ^ 32), .trkCsum (2 ^ 32),
      .trkCsumt (2 ^ 32) 0, .trkCsumt 0 (2 ^ 32), .trkStat (2 ^ 32),
      .trkSetflags (2 ^ 32) 0 0, .trkSetflags 0 (2 ^ 32) 0, .trkSetflags 0 0 (2 ^ 32),
      .fddMotor (2 ^ 32), .fddStep (2 ^ 32), .fddSide (2 ^ 32), .fddWr8r (2 ^ 32), .fddIns (2 ^ 32),
      .fddEj (2 ^ 32)] : List Instr).all (fun i => !i.wellFormed) = true ∧
    ([.hddInit (2 ^ 32) 0 0 0 [], .hddInit 0 (2 ^ 32) 0 0 [], .hddInit 0 0 (2 ^ 32) 0 [], .hddInit 0 0 0 (2 ^ 32) [],
      .hddRead (2 ^ 32) 0 0, .hddRead 0 (2 ^ 32) 0, .hddRead 0 0 (2 ^ 32),
      .hddWrite (2 ^ 32) 0 0, .hddWrite 0 (2 ^ 32) 0, .hddWrite 0 0 (2 ^ 32), .hddRdblk (2 ^ 32),
      .hddWrblk (2 ^ 32) [], .hddChgeo (2 ^ 32) 0 0 0, .hddChgeo 0 (2 ^ 32) 0 0, .hddChgeo 0 0 (2 ^ 32) 0,
      .hddChgeo 0 0 0 (2 ^ 32), .hddFmt (2 ^ 32) [], .hddSetflags (2 ^ 32) 0, .hddSetflags 0 (2 ^ 32),
      .hddDirty (2 ^ 32), .hddClrdirty (2 ^ 32),
      .geoNtrk (2 ^ 32), .geoNsec (2 ^ 32) 0, .geoNsec 0 (2 ^ 32), .geoB2ts (2 ^ 32) 0, .geoB2ts 0 (2 ^ 32),
      .geoTs2b (2 ^ 32) 0 0, .geoTs2b 0 (2 ^ 32) 0, .geoTs2b 0 0 (2 ^ 32), .geoB2chs (2 ^ 32) 0,
      .geoB2chs 0 (2 ^ 32), .geoChs2b (2 ^ 32) 0 0 0, .geoChs2b 0 (2 ^ 32) 0 0, .geoChs2b 0 0 (2 ^ 32) 0,
      .geoChs2b 0 0 0 (2 ^ 32), .geoZone (2 ^ 32), .geoNext (2 ^ 32) 0 0, .geoNext 0 (2 ^ 32) 0,
      .geoNext 0 0 (2 ^ 32), .geoCheck (2 ^ 32), .geoNblk (2 ^ 32)] : List Instr).all
        (fun i => !i.wellFormed) = true := by decide

/-- A payload that `plen` cannot announce. -/
theorem test_wellformed_refuses_long_payloads (p : List Byte) (h : 2 ^ 32 ≤ p.length) :
    ∀ i ∈ [Instr.mfmEnc p, .mfmDec p, .mfmEncoe p, .mfmDecoe p, .mfmClk 0 p, .hddInit 1 1 1 512 p, .hddWrblk 0 p,
      .hddFmt 0 p, .hddSetpt p], i.wellFormed = false := by
  have hp : fitsPlen p = false := by simp only [fitsPlen, decide_eq_false_iff_not]; omega
  simp [Instr.wellFormed, hp]

theorem test_wellformed_takes_full_fields :
    (Instr.trkWrbit 0xFFFFFFFF 0xFFFFFFFF 0xFFFFFFFF 0xFFFFFFFF).wellFormed = true ∧ Instr.tick.wellFormed = true := by
  decide

/-! ### Decoding: every constructor from a packet written out from 30_encoding.md R101, R105 -/

theorem test_decode_codec :
    decodePacket [0x01, 0, 0, 0, 0, 0, 0, 0, 0, 0, 0, 0, 0, 0, 0, 0, 0, 0, 0, 0, 2, 0xA1, 0x4E]
      = .ok (.mfmEnc [0xA1, 0x4E]) ∧
    decodePacket [0x02, 0, 0, 0, 0, 0, 0, 0, 0, 0, 0, 0, 0, 0, 0, 0, 0, 0, 0, 0, 2, 0xA1, 0x4E]
      = .ok (.mfmDec [0xA1, 0x4E]) ∧
    decodePacket [0x03, 0, 0, 0, 0, 0, 0, 0, 0, 0, 0, 0, 0, 0, 0, 0, 0, 0, 0, 0, 2, 0xA1, 0x4E]
      = .ok (.mfmEncoe [0xA1, 0x4E]) ∧
    decodePacket [0x04, 0, 0, 0, 0, 0, 0, 0, 0, 0, 0, 0, 0, 0, 0, 0, 0, 0, 0, 0, 2, 0xA1, 0x4E]
      = .ok (.mfmDecoe [0xA1, 0x4E]) ∧
    decodePacket [0x05, 1, 2, 3, 4, 0, 0, 0, 0, 0, 0, 0, 0, 0, 0, 0, 0, 0, 0, 0, 2, 0xA1, 0x4E]
      = .ok (.mfmClk 0x01020304 [0xA1, 0x4E]) := by decide

theorem test_decode_track :
    decodePacket [0x10, 1, 2, 3, 4, 5, 6, 7, 8, 9, 10, 11, 12, 0, 0, 0, 0, 0, 0, 0, 0]
      = .ok (.trkInit 0x01020304 0x05060708 0x090A0B0C) ∧
    decodePacket [0x11, 1, 2, 3, 4, 0, 0, 0, 0, 0, 0, 0, 0, 0, 0, 0, 0, 0, 0, 0, 0]
      = .ok (.trkClear 0x01020304) ∧
    decodePacket [0x12, 1, 2, 3, 4, 5, 6, 7, 8, 9, 10, 11, 12, 0, 0, 0, 0, 0, 0, 0, 0]
      = .ok (.trkRdbit 0x01020304 0x05060708 0x090A0B0C) ∧
    decodePacket [0x13, 1, 2, 3, 4, 5, 6, 7, 8, 9, 10, 11, 12, 13, 14, 15, 0x10, 0, 0, 0, 0]
      = .ok (.trkWrbit 0x01020304 0x05060708 0x090A0B0C 0x0D0E0F10) ∧
    decodePacket [0x14, 1, 2, 3, 4, 5, 6, 7, 8, 9, 10, 11, 12, 0, 0, 0, 0, 0, 0, 0, 0]
      = .ok (.trkRd8 0x01020304 0x05060708 0x090A0B0C) ∧
    decodePacket [0x15, 1, 2, 3, 4, 5, 6, 7, 8, 9, 10, 11, 12, 13, 14, 15, 0x10, 0, 0, 0, 0]
      = .ok (.trkWr8 0x01020304 0x05060708 0x090A0B0C 0x0D0E0F10) ∧
    decodePacket [0x16, 1, 2, 3, 4, 5, 6, 7, 8, 0, 0, 0, 0, 0, 0, 0, 0, 0, 0, 0, 0]
      = .ok (.trkView 0x01020304 0x05060708) ∧
    decodePacket [0x17, 1, 2, 3, 4, 5, 6, 7, 8, 9, 10, 11, 12, 0, 0, 0, 0, 0, 0, 0, 0]
      = .ok (.trkSect 0x01020304 0x05060708 0x090A0B0C) ∧
    decodePacket [0x18, 1, 2, 3, 4, 0, 0, 0, 0, 0, 0, 0, 0, 0, 0, 0, 0, 0, 0, 0, 0]
      = .ok (.trkCsum 0x01020304) ∧
    decodePacket [0x19, 1, 2, 3, 4, 5, 6, 7, 8, 0, 0, 0, 0, 0, 0, 0, 0, 0, 0, 0, 0]
      = .ok (.trkCsumt 0x01020304 0x05060708) ∧
    decodePacket [0x1A, 1, 2, 3, 4, 0, 0, 0, 0, 0, 0, 0, 0, 0, 0, 0, 0, 0, 0, 0, 0]
      = .ok (.trkStat 0x01020304) ∧
    decodePacket [0x1B, 1, 2, 3, 4, 5, 6, 7, 8, 9, 10, 11, 12, 0, 0, 0, 0, 0, 0, 0, 0]
      = .ok (.trkSetflags 0x01020304 0x05060708 0x090A0B0C) := by decide

theorem test_decode_drive :
    decodePacket [0x20, 1, 2, 3, 4, 0, 0, 0, 0, 0, 0, 0, 0, 0, 0, 0, 0, 0, 0, 0, 0]
      = .ok (.fddMotor 0x01020304) ∧
    decodePacket [0x21, 0, 0, 0, 0, 0, 0, 0, 0, 0, 0, 0, 0, 0, 0, 0, 0, 0, 0, 0, 0]
      = .ok .fddSpeed ∧
    decodePacket [0x22, 1, 2, 3, 4, 0, 0, 0, 0, 0, 0, 0, 0, 0, 0, 0, 0, 0, 0, 0, 0]
      = .ok (.fddStep 0x01020304) ∧
    decodePacket [0x23, 0, 0, 0, 0, 0, 0, 0, 0, 0, 0, 0, 0, 0, 0, 0, 0, 0, 0, 0, 0]
      = .ok .fddRdyup ∧
    decodePacket [0x24, 0, 0, 0, 0, 0, 0, 0, 0, 0, 0, 0, 0, 0, 0, 0, 0, 0, 0, 0, 0]
      = .ok .fddRdydn ∧
    decodePacket [0x25, 0, 0, 0, 0, 0, 0, 0, 0, 0, 0, 0, 0, 0, 0, 0, 0, 0, 0, 0, 0]
      = .ok .fddPolls ∧
    decodePacket [0x26, 1, 2, 3, 4, 0, 0, 0, 0, 0, 0, 0, 0, 0, 0, 0, 0, 0, 0, 0, 0]
      = .ok (.fddSide 0x01020304) ∧
    decodePacket [0x27, 0, 0, 0, 0, 0, 0, 0, 0, 0, 0, 0, 0, 0, 0, 0, 0, 0, 0, 0, 0]
      = .ok .fddRot ∧
    decodePacket [0x28, 0, 0, 0, 0, 0, 0, 0, 0, 0, 0, 0, 0, 0, 0, 0, 0, 0, 0, 0, 0]
      = .ok .fddRd8r ∧
    decodePacket [0x29, 1, 2, 3, 4, 0, 0, 0, 0, 0, 0, 0, 0, 0, 0, 0, 0, 0, 0, 0, 0]
      = .ok (.fddWr8r 0x01020304) ∧
    decodePacket [0x2A, 1, 2, 3, 4, 0, 0, 0, 0, 0, 0, 0, 0, 0, 0, 0, 0, 0, 0, 0, 0]
      = .ok (.fddIns 0x01020304) ∧
    decodePacket [0x2B, 1, 2, 3, 4, 0, 0, 0, 0, 0, 0, 0, 0, 0, 0, 0, 0, 0, 0, 0, 0]
      = .ok (.fddEj 0x01020304) ∧
    decodePacket [0x2C, 0, 0, 0, 0, 0, 0, 0, 0, 0, 0, 0, 0, 0, 0, 0, 0, 0, 0, 0, 0]
      = .ok .fddSync ∧
    decodePacket [0x2D, 0, 0, 0, 0, 0, 0, 0, 0, 0, 0, 0, 0, 0, 0, 0, 0, 0, 0, 0, 0]
      = .ok .fddStat ∧
    decodePacket [0x2E, 0, 0, 0, 0, 0, 0, 0, 0, 0, 0, 0, 0, 0, 0, 0, 0, 0, 0, 0, 0]
      = .ok .fddPos := by decide

theorem test_decode_hard_disk :
    decodePacket [0x30, 1, 2, 3, 4, 5, 6, 7, 8, 9, 10, 11, 12, 13, 14, 15, 0x10, 0, 0, 0, 2, 0xA1, 0x4E]
      = .ok (.hddInit 0x01020304 0x05060708 0x090A0B0C 0x0D0E0F10 [0xA1, 0x4E]) ∧
    decodePacket [0x31, 0, 0, 0, 0, 0, 0, 0, 0, 0, 0, 0, 0, 0, 0, 0, 0, 0, 0, 0, 0]
      = .ok .hddDisc ∧
    decodePacket [0x32, 1, 2, 3, 4, 5, 6, 7, 8, 9, 10, 11, 12, 0, 0, 0, 0, 0, 0, 0, 0]
      = .ok (.hddRead 0x01020304 0x05060708 0x090A0B0C) ∧
    decodePacket [0x33, 1, 2, 3, 4, 5, 6, 7, 8, 9, 10, 11, 12, 0, 0, 0, 0, 0, 0, 0, 0]
      = .ok (.hddWrite 0x01020304 0x05060708 0x090A0B0C) ∧
    decodePacket [0x34, 1, 2, 3, 4, 0, 0, 0, 0, 0, 0, 0, 0, 0, 0, 0, 0, 0, 0, 0, 0]
      = .ok (.hddRdblk 0x01020304) ∧
    decodePacket [0x35, 1, 2, 3, 4, 0, 0, 0, 0, 0, 0, 0, 0, 0, 0, 0, 0, 0, 0, 0, 2, 0xA1, 0x4E]
      = .ok (.hddWrblk 0x01020304 [0xA1, 0x4E]) ∧
    decodePacket [0x36, 1, 2, 3, 4, 5, 6, 7, 8, 9, 10, 11, 12, 13, 14, 15, 0x10, 0, 0, 0, 0]
      = .ok (.hddChgeo 0x01020304 0x05060708 0x090A0B0C 0x0D0E0F10) ∧
    decodePacket [0x37, 1, 2, 3, 4, 0, 0, 0, 0, 0, 0, 0, 0, 0, 0, 0, 0, 0, 0, 0, 2, 0xA1, 0x4E]
      = .ok (.hddFmt 0x01020304 [0xA1, 0x4E]) ∧
    decodePacket [0x38, 0, 0, 0, 0, 0, 0, 0, 0, 0, 0, 0, 0, 0, 0, 0, 0, 0, 0, 0, 0]
      = .ok .hddStat ∧
    decodePacket [0x39, 0, 0, 0, 0, 0, 0, 0, 0, 0, 0, 0, 0, 0, 0, 0, 0, 0, 0, 0, 0]
      = .ok .hddStat2 ∧
    decodePacket [0x3A, 1, 2, 3, 4, 5, 6, 7, 8, 0, 0, 0, 0, 0, 0, 0, 0, 0, 0, 0, 0]
      = .ok (.hddSetflags 0x01020304 0x05060708) ∧
    decodePacket [0x3B, 1, 2, 3, 4, 0, 0, 0, 0, 0, 0, 0, 0, 0, 0, 0, 0, 0, 0, 0, 0]
      = .ok (.hddDirty 0x01020304) ∧
    decodePacket [0x3C, 1, 2, 3, 4, 0, 0, 0, 0, 0, 0, 0, 0, 0, 0, 0, 0, 0, 0, 0, 0]
      = .ok (.hddClrdirty 0x01020304) ∧
    decodePacket [0x3D, 0, 0, 0, 0, 0, 0, 0, 0, 0, 0, 0, 0, 0, 0, 0, 0, 0, 0, 0, 2, 0xA1, 0x4E]
      = .ok (.hddSetpt [0xA1, 0x4E]) ∧
    decodePacket [0x3E, 0, 0, 0, 0, 0, 0, 0, 0, 0, 0, 0, 0, 0, 0, 0, 0, 0, 0, 0, 0]
      = .ok .hddGeo := by decide

theorem test_decode_geometry :
    decodePacket [0x40, 1, 2, 3, 4, 0, 0, 0, 0, 0, 0, 0, 0, 0, 0, 0, 0, 0, 0, 0, 0]
      = .ok (.geoNtrk 0x01020304) ∧
    decodePacket [0x41, 1, 2, 3, 4, 5, 6, 7, 8, 0, 0, 0, 0, 0, 0, 0, 0, 0, 0, 0, 0]
      = .ok (.geoNsec 0x01020304 0x05060708) ∧
    decodePacket [0x42, 1, 2, 3, 4, 5, 6, 7, 8, 0, 0, 0, 0, 0, 0, 0, 0, 0, 0, 0, 0]
      = .ok (.geoB2ts 0x01020304 0x05060708) ∧
    decodePacket [0x43, 1, 2, 3, 4, 5, 6, 7, 8, 9, 10, 11, 12, 0, 0, 0, 0, 0, 0, 0, 0]
      = .ok (.geoTs2b 0x01020304 0x05060708 0x090A0B0C) ∧
    decodePacket [0x44, 1, 2, 3, 4, 5, 6, 7, 8, 0, 0, 0, 0, 0, 0, 0, 0, 0, 0, 0, 0]
      = .ok (.geoB2chs 0x01020304 0x05060708) ∧
    decodePacket [0x45, 1, 2, 3, 4, 5, 6, 7, 8, 9, 10, 11, 12, 13, 14, 15, 0x10, 0, 0, 0, 0]
      = .ok (.geoChs2b 0x01020304 0x05060708 0x090A0B0C 0x0D0E0F10) ∧
    decodePacket [0x46, 0, 0, 0, 0, 5, 6, 7, 8, 0, 0, 0, 0, 0, 0, 0, 0, 0, 0, 0, 0]
      = .ok (.geoZone 0x05060708) ∧
    decodePacket [0x47, 1, 2, 3, 4, 5, 6, 7, 8, 9, 10, 11, 12, 0, 0, 0, 0, 0, 0, 0, 0]
      = .ok (.geoNext 0x01020304 0x05060708 0x090A0B0C) ∧
    decodePacket [0x48, 1, 2, 3, 4, 0, 0, 0, 0, 0, 0, 0, 0, 0, 0, 0, 0, 0, 0, 0, 0]
      = .ok (.geoCheck 0x01020304) ∧
    decodePacket [0x49, 1, 2, 3, 4, 0, 0, 0, 0, 0, 0, 0, 0, 0, 0, 0, 0, 0, 0, 0, 0]
      = .ok (.geoNblk 0x01020304) := by decide

theorem test_decode_scheduler :
    decodePacket [0xF0, 0, 0, 0, 0, 0, 0, 0, 0, 0, 0, 0, 0, 0, 0, 0, 0, 0, 0, 0, 0]
      = .ok .tick := by decide

/-- V96: reserved opcodes at both edges of every range, whatever the operands. -/
theorem test_decode_reserved :
    [0x00, 0x06, 0x0F, 0x1C, 0x1F, 0x2F, 0x3F, 0x4A, 0xEF, 0xF1, 0xFF].all (fun op =>
      decodePacket (packet op 1 2 3 4 []) == .error .unknownCmd) = true := by decide

/-- V97, and bytes that are no packet. -/
theorem test_decode_malformed :
    decodePacket [0x21, 0, 0, 0, 0, 0, 0, 0, 0, 0, 0, 0, 0, 0, 0, 0, 0, 0, 0, 0, 1, 0] = .error .payloadNotEmpty ∧
    decodePacket [0xF0, 0, 0, 0, 0, 0, 0, 0, 0, 0, 0, 0, 0, 0, 0, 0, 0, 0, 0, 0] = .error .shortHeader ∧
    decodePacket [0x01, 0, 0, 0, 0, 0, 0, 0, 0, 0, 0, 0, 0, 0, 0, 0, 0, 0, 0, 0, 2, 0xA1] = .error .shortPayload ∧
    decodePacket [0xF0, 0, 0, 0, 0, 0, 0, 0, 0, 0, 0, 0, 0, 0, 0, 0, 0, 0, 0, 0, 0, 0] = .error .trailingBytes := by
  decide

/-- An operand field that a command does not use is ignored (30_encoding.md R101). -/
theorem test_decode_ignores_unused :
    decodePacket [0x2D, 1, 2, 3, 4, 5, 6, 7, 8, 9, 10, 11, 12, 13, 14, 15, 0x10, 0, 0, 0, 0] = .ok .fddStat := by
  decide

/-- P1's packet of `TRK_WR8 STAGE, 0, 100, 0xAA` is what the encoder writes. -/
theorem test_encode_trk_wr8 :
    encode (.trkWr8 0 0 100 0xAA) = [0x15, 0, 0, 0, 0, 0, 0, 0, 0, 0, 0, 0, 0x64, 0, 0, 0, 0xAA, 0, 0, 0, 0] := by
  decide

theorem test_table_word : decodeTableWord 8 0x2E = some .fddPos ∧ decodeTableWord 8 0x00 = none ∧
    look (step (State.reset.withFetchWord 8 0x2E)) State.ret = some (some (.ok (.triple 0 0 0))) := by decide

/-! ### The step -/

/-- V96 and V97 as steps: an error result. -/
theorem test_step_undecodable :
    look (step (State.reset.setInbox [.packet (packet 0x06 0 0 0 0 [])])) State.ret = some (some (.err .unknownCmd)) ∧
    look (step (State.reset.setInbox [.packet (packet 0x21 0 0 0 0 [0])])) State.ret
      = some (some (.err .badOperand)) := by decide

/-- A configuration that 93 U4 refuses, and bytes that are no packet. -/
theorem test_step_refuses :
    step (State.launch { Config.t0 with rampUp := 0 }) = .refused .configurationRefused ∧
    step (State.reset.setInbox [.packet [0x2E]]) = .refused .malformedPacket := ⟨rfl, rfl⟩

/-- V101: `TICK` in the reset state. -/
theorem test_tick_reset : exec .tick State.reset = .next ((State.reset.setNow 1).setRet (.ok .none)) := rfl

/-- 10_state.md R62. -/
theorem test_reset : State.reset.now = 0 ∧ State.reset.stage = none ∧ State.reset.hd = none ∧
    State.reset.fdd.disk = none ∧ State.reset.fdd.head = { cyl := 0, head := 0, offset := 0 } ∧
    State.reset.fdd.dskChange = false ∧ State.reset.fdd.cylHistory = [] := by decide

/-! ### MFM codec -/

/-- V1, V6. -/
theorem test_mfm_enc : answer (.mfmEnc [0xA1]) State.reset = some (.ok (.bytes [0x44, 0x01])) ∧
    answer (.mfmEnc [0x12, 0x34]) State.reset = some (.ok (.bytes [0x01, 0x04, 0x05, 0x10])) := by decide

/-- V9, V10. -/
theorem test_mfm_dec : answer (.mfmDec [0x44, 0x89]) State.reset = some (.ok (.bytes [0xA1])) ∧
    answer (.mfmDec [0x44]) State.reset = some (.err .badOperand) := by decide

/-- V11, V12. -/
theorem test_mfm_encoe :
    answer (.mfmEncoe [0x12, 0x34, 0x56, 0x78]) State.reset
      = some (.ok (.bytes [0x01, 0x10, 0x01, 0x14, 0x10, 0x14, 0x54, 0x50])) ∧
    answer (.mfmEncoe [0xAA]) State.reset = some (.ok (.bytes [0x55, 0x00])) := by decide

/-- V11, V10. -/
theorem test_mfm_decoe :
    answer (.mfmDecoe [0xA9, 0x12, 0xA9, 0x14, 0x92, 0x94, 0x54, 0x52]) State.reset
      = some (.ok (.bytes [0x12, 0x34, 0x56, 0x78])) ∧
    answer (.mfmDecoe [0x55, 0x00, 0x55]) State.reset = some (.err .badOperand) := by decide

/-- V6, V7, V15, V14. -/
theorem test_mfm_clk :
    answer (.mfmClk 1 [0x01, 0x04, 0x05, 0x10]) State.reset = some (.ok (.bytes [0x29, 0x24, 0xA5, 0x12])) ∧
    answer (.mfmClk 0 [0x55, 0x55, 0x00, 0x00]) State.reset = some (.ok (.bytes [0x55, 0x55, 0x2A, 0xAA])) ∧
    answer (.mfmClk 0 [0xFF, 0xFF]) State.reset = some (.ok (.bytes [0x55, 0x55])) ∧
    answer (.mfmClk 0x100 [0x00]) State.reset = some (.err .badOperand) := by decide

/-! ### Track storage -/

/-- S5. -/
theorem test_trk_init :
    look (exec (.trkInit 0 1 1) State.reset) (fun t => t.stage.map (fun D => (D.trackLen, D.writeProtected, D.modified)))
      = some (some (24636, true, false)) ∧
    answer (.trkInit 1 1 0) State.reset = some (.err .invalidLayout) := by decide

/-- V32. -/
theorem test_trk_clear :
    look (exec (.trkClear 0) (staged (diskOf [(0, 0x11)]))) (fun t => t.stage.map (fun D => (D.data.cells, D.modified)))
      = some (some ([], true)) := by decide

/-- V22, and S5's last bit and the one after it. -/
theorem test_trk_rdbit : answer (.trkRdbit 0 0 5) (staged (diskOf [(0, 0x04)])) = some (.ok (.bit 1)) ∧
    answer (.trkRdbit 0 0 101343) (staged freshDisk) = some (.ok (.bit 0)) ∧
    answer (.trkRdbit 0 0 101344) (staged freshDisk) = some (.err .range) := by decide

/-- V21, V22, V24. -/
theorem test_trk_wrbit :
    look (exec (.trkWrbit 0 0 5 1) (staged (diskOf [(0, 0x40)]))) (fun t => t.stage.map (fun D => D.data.cells))
      = some (some [(0, 0x44)]) ∧
    look (exec (.trkWrbit 0 0 1 0) (staged (diskOf [(0, 0x44)]))) (fun t => t.stage.map (fun D => D.data.cells))
      = some (some [(0, 0x04)]) ∧
    answer (.trkWrbit 0 0 0 2) (staged freshDisk) = some (.err .badOperand) := by decide

/-- S5's edges, V33. -/
theorem test_trk_rd8 : answer (.trkRd8 0 167 12667) (staged (diskOf [(2128223, 0x5A)])) = some (.ok (.byte 0x5A)) ∧
    answer (.trkRd8 0 167 12668) (staged freshDisk) = some (.err .range) ∧
    answer (.trkRd8 1 0 0) (staged freshDisk) = some (.err .noDevice) ∧
    answer (.trkRd8 2 0 0) (staged freshDisk) = some (.err .badOperand) := by decide

/-- V23 (track 2, byte 100 is arena byte 2 × 12668 + 100), V31. -/
theorem test_trk_wr8 :
    look (exec (.trkWr8 0 2 100 0x44) (staged freshDisk)) (fun t => t.stage.map (fun D => (D.data.cells, D.modified)))
      = some (some ([(25436, 0x44)], true)) ∧
    look (exec (.trkWr8 0 0 0 0x11) (staged { freshDisk with writeProtected := true }))
      (fun t => t.stage.map Disk.status) = some (some 0x03) := by decide

/-- The bytes of one short track (41_track_storage.md R150); V27's edge. -/
theorem test_trk_view :
    answer (.trkView 0 1) (staged (shortDisk .inch35 3 [(2, 0x11), (3, 0x22), (5, 0x33)]))
      = some (.ok (.bytes [0x22, 0x00, 0x33])) ∧
    answer (.trkView 0 168) (staged freshDisk) = some (.err .range) := by decide

/-- V26's edges; the window of a stride of 2 (41_track_storage.md R151). -/
theorem test_trk_sect : answer (.trkSect 0 0 11) (staged freshDisk) = some (.err .range) ∧
    answer (.trkSect 0 0 1) ((State.launch { Config.t0 with sectorStride := 2 }).setStage
      (some (shortDisk .inch35 5 [(2, 0x11), (3, 0x22), (4, 0x33)]))) = some (.ok (.bytes [0x11, 0x22])) := by decide

/-- FNV-1a of 84 zero bytes, worked out by hand from 41_track_storage.md R154's recurrence. -/
theorem test_trk_csum :
    answer (.trkCsum 0) (staged (shortDisk .inch525 1 [])) = some (.ok (.num 0x6975F1271857FE35)) := by decide +kernel

/-- V30's value of `44 89` on a track of two bytes. -/
theorem test_trk_csumt : answer (.trkCsumt 0 1) (staged (shortDisk .inch35 2 [(2, 0x44), (3, 0x89)]))
    = some (.ok (.num 0x08FDF707B597DFEE)) := by decide

/-- V30. -/
theorem test_fnv1a : fnv1a .w64 [0x66, 0x6F, 0x6F, 0x62, 0x61, 0x72] = 0x85944171F73967E8 ∧
    fnv1a .w32 [0x66, 0x6F, 0x6F, 0x62, 0x61, 0x72] = 0xBF9CF968 ∧ fnv1a .w32 [0x00] = 0x050C5D1F := by decide

/-- V20. -/
theorem test_trk_stat : answer (.trkStat 0) (staged freshDisk) = some (.ok (.byte 0x00)) ∧
    answer (.trkStat 0) (staged { freshDisk with writeProtected := true }) = some (.ok (.byte 0x02)) := by decide

/-- V31. -/
theorem test_trk_setflags :
    look (exec (.trkSetflags 0 0 1) (staged { freshDisk with modified := true })) (fun t => t.stage.map Disk.status)
      = some (some 0x02) ∧ answer (.trkSetflags 0 2 0) (staged freshDisk) = some (.err .badOperand) := by decide

/-! ### The floppy drive -/

/-- P4: a transition is stamped, a command that changes nothing is not. -/
theorem test_fdd_motor :
    look (exec (.fddMotor 1) (State.reset.setNow 7)) (fun t => (t.fdd.motorOn, t.fdd.motorSwitchTs)) = some (true, some 7) ∧
    look (exec (.fddMotor 1) ((State.reset.setNow 250).setFdd { Fdd.reset with motorOn := true, motorSwitchTs := some 0 }))
      (fun t => t.fdd.motorSwitchTs) = some (some 0) := by decide

/-- V40 at 999, V41 at 5005. -/
theorem test_fdd_speed :
    answer .fddSpeed ((State.reset.setNow 999).setFdd { Fdd.reset with motorOn := true, motorSwitchTs := some 0 })
      = some (.ok (.num 99)) ∧
    answer .fddSpeed ((State.reset.setNow 5005).setFdd { Fdd.reset with motorSwitchTs := some 5000 })
      = some (.ok (.num 99)) := by decide

/-- V44: the lower end stop. V45: the upper one, and the step before it. -/
theorem test_fdd_step :
    look (exec (.fddStep 0) State.reset) (fun t => (t.ret, t.fdd.head.cyl, t.fdd.latestStepDown, t.fdd.cylHistory))
      = some (some (.ok (.bool false)), 0, some 0, []) ∧
    look (exec (.fddStep 1) (State.reset.setFdd { Fdd.reset with head := { cyl := 82, head := 0, offset := 0 } }))
      (fun t => (t.ret, t.fdd.head.cyl, t.fdd.cylHistory)) = some (some (.ok (.bool true)), 83, [83]) ∧
    look (exec (.fddStep 1) (State.reset.setFdd { Fdd.reset with head := { cyl := 83, head := 0, offset := 0 } }))
      (fun t => (t.ret, t.fdd.head.cyl, t.fdd.cylHistory)) = some (some (.ok (.bool false)), 83, []) := by decide

/-- P5: an early pulse clears the latch when no polling is in progress, and moves nothing. -/
theorem test_fdd_step_latch :
    look (exec (.fddStep 1) ((State.reset.setNow 513).setFdd { Fdd.reset with
      disk := some freshDisk, dskChange := true, latestStepUp := some 503, cylHistory := [2, 1, 0, 1, 0, 1] }))
      (fun t => (t.ret, t.fdd.dskChange, t.fdd.head.cyl, t.fdd.latestStepUp))
      = some (some (.ok (.bool false)), false, 0, some 503) ∧
    look (exec (.fddStep 1) ((State.reset.setNow 453).setFdd { Fdd.reset with
      disk := some freshDisk, dskChange := true, latestStepUp := some 403, cylHistory := [1, 0, 1, 0, 1] }))
      (fun t => t.fdd.dskChange) = some true := by decide

/-- V43. -/
theorem test_fdd_rdyup :
    answer .fddRdyup ((State.reset.setNow 299).setFdd { Fdd.reset with latestStepDown := some 200 })
      = some (.ok (.bool false)) ∧
    answer .fddRdyup ((State.reset.setNow 300).setFdd { Fdd.reset with latestStepDown := some 200 })
      = some (.ok (.bool true)) := by decide

/-- V43, P4. -/
theorem test_fdd_rdydn :
    answer .fddRdydn ((State.reset.setNow 349).setFdd { Fdd.reset with latestStepUp := some 250 })
      = some (.ok (.bool false)) ∧
    answer .fddRdydn ((State.reset.setNow 350).setFdd { Fdd.reset with latestStepUp := some 250 })
      = some (.ok (.bool true)) := by decide

/-- V47. -/
theorem test_fdd_polls :
    [[0, 1, 0, 1], [2, 1, 0, 1], [0, 1, 0], [5, 3, 5, 3], [1, 0, 1, 0, 1]].map
      (fun h => answer .fddPolls (State.reset.setFdd { Fdd.reset with cylHistory := h }))
      = [true, false, false, false, true].map (fun b => some (.ok (.bool b))) := by decide

/-- V57. -/
theorem test_fdd_side : look (exec (.fddSide 1) State.reset) (fun t => t.fdd.head) = some { cyl := 0, head := 1, offset := 0 } ∧
    answer (.fddSide 2) State.reset = some (.err .badOperand) := by decide

/-- V48, V54. -/
theorem test_fdd_rot :
    look (exec .fddRot (inserted freshDisk 12667)) (fun t => t.fdd.head.offset) = some 0 ∧
    answer .fddRot State.reset = some (.err .noDevice) := by decide

/-- V48. -/
theorem test_fdd_rd8r :
    look (exec .fddRd8r (inserted (diskOf [(12667, 0x44)]) 12667)) (fun t => (t.ret, t.fdd.head.offset))
      = some (some (.ok (.byte 0x44)), 0) := by decide

/-- V49; V53 (cylinder 40 side 1 is track 81, arena byte 81 × 12668). -/
theorem test_fdd_wr8r :
    look (exec (.fddWr8r 0x55) (inserted { freshDisk with writeProtected := true } 7))
      (fun t => (t.fdd.disk.map (fun D => (D.data.cells, D.modified)), t.fdd.head.offset)) = some (some ([], false), 8) ∧
    look (exec (.fddWr8r 0xEE) (State.reset.setFdd { Fdd.reset with
      disk := some freshDisk, head := { cyl := 40, head := 1, offset := 0 } }))
      (fun t => t.fdd.disk.map (fun D => D.data.cells)) = some (some [(1026108, 0xEE)]) := by decide

/-- V55, V56. -/
theorem test_fdd_ins : answer (.fddIns 0) State.reset = some (.err .noDevice) ∧
    answer (.fddIns 0) (staged (newDisk .inch525 .dd 12668 false)) = some (.err .incompatible) ∧
    look (exec (.fddIns 3) (staged freshDisk)) (fun t => (t.stage, t.fdd.pending, t.fdd.status))
      = some (none, some { change := .insert freshDisk, dueAt := 3 }, 0x20) := by decide

/-- P2: the new request replaces the pending one. -/
theorem test_fdd_ej :
    look (exec (.fddEj 2) (State.reset.setFdd { Fdd.reset with
      pending := some { change := .insert freshDisk, dueAt := 9 } })) (fun t => t.fdd.pending)
      = some (some { change := .eject, dueAt := 2 }) := by decide

/-- V50, V51 and V52 on a track of eight bytes: a mark that straddles the end, none, and one off byte alignment. -/
theorem test_fdd_sync :
    look (exec .fddSync (inserted (shortDisk .inch35 8 [(0, 0x89), (7, 0x44)]) 5)) (fun t => (t.ret, t.fdd.head.offset))
      = some (some (.ok (.bool true)), 1) ∧
    look (exec .fddSync (inserted (shortDisk .inch35 8 [(1, 0x22), (2, 0x44), (3, 0x80)]) 5))
      (fun t => (t.ret, t.fdd.head.offset)) = some (some (.ok (.bool false)), 5) := by decide

/-- P2: `0x31` and `0x15`. -/
theorem test_fdd_stat :
    answer .fddStat (State.reset.setFdd { Fdd.reset with
      disk := some { freshDisk with modified := true }, pending := some { change := .eject, dueAt := 5 } })
      = some (.ok (.byte 0x31)) ∧
    answer .fddStat (inserted { freshDisk with modified := true, writeProtected := true } 0)
      = some (.ok (.byte 0x15)) := by decide

/-- P2. -/
theorem test_fdd_pos :
    answer .fddPos (State.reset.setFdd { Fdd.reset with head := { cyl := 1, head := 0, offset := 1 } })
      = some (.ok (.triple 1 0 1)) := by decide

/-- V98 and P5's cursor fix-up: an insertion due at the new time, on a drive whose cursor lies beyond the track. -/
theorem test_tick_inserts :
    look (exec .tick ((State.reset.setNow 7).setFdd { Fdd.reset with
      head := { cyl := 0, head := 0, offset := 20000 }, dskChange := true
      pending := some { change := .insert freshDisk, dueAt := 7 } }))
      (fun t => (t.now, t.fdd.disk.isSome, t.fdd.head.offset, t.fdd.dskChange, t.fdd.pending))
      = some (8, true, 0, true, none) ∧
    look (exec .tick ((State.reset.setNow 7).setFdd { Fdd.reset with
      pending := some { change := .insert freshDisk, dueAt := 9 } })) (fun t => t.fdd.disk.isSome) = some false := by decide

/-! ### The hard disk -/

/-- V59. -/
theorem test_hdd_init : answer (.hddInit 4 2 8 256 []) State.reset = some (.err .blockSize) ∧
    answer (.hddInit 0 2 8 512 []) State.reset = some (.err .badOperand) ∧
    look (exec (.hddInit 4 2 8 512 []) State.reset) State.hd = some (some disk64) := by decide

/-- V70. -/
theorem test_hdd_disc : look (exec .hddDisc (connected disk64)) State.hd = some none ∧
    answer .hddDisc State.reset = some (.err .noDevice) := by decide

/-- V65, V67. -/
theorem test_hdd_read :
    look (exec (.hddRead 0 0 0) (connected disk64)) (fun t => (t.ret, hdStatus t.hd)) = some (some (.ok .none), 0x11) ∧
    answer (.hddRead 0 512 0xFE01) (connected disk64) = some (.err .badMem) ∧
    look (exec (.hddRead 32256 512 0xFE00) (connected { disk64 with buf := { len := 32768, mem :=
      { cells := [(32256, 0xE5), (32767, 0xE6)] } } })) (fun t => t.hostMem.cells)
      = some [(0xFE00, 0xE5), (0xFFFF, 0xE6)] := by decide +kernel

/-- V68. -/
theorem test_hdd_write_order : answer (.hddWrite 1 100 0x3000) (connected disk64) = some (.err .badLength) := by decide

/-- P3: status `0x1A`, the head at block 19, its bytes, and its dirty bit alone. -/
theorem test_hdd_write :
    let o := exec (.hddWrite 9728 512 0x3000) ((connected { disk64 with dirty := List.replicate 64 false }).setHostMem
      { cells := [(0x3000, 0xE5), (0x31FF, 0xE6)] })
    look o (fun t => hdStatus t.hd) = some 0x1A ∧
    look o (fun t => t.hd.map (fun h => h.head)) = some (some { cyl := 1, head := 0, offset := 3 }) ∧
    look o (fun t => t.hd.map (fun h => h.buf.mem.cells)) = some (some [(9728, 0xE5), (10239, 0xE6)]) ∧
    look o (fun t => t.hd.map (fun h => (h.dirty.drop 18).take 3)) = some (some [false, true, false]) := by
  decide +kernel

/-- V71. -/
theorem test_hdd_rdblk : answer (.hddRdblk 64) (connected disk64) = some (.err .range) ∧
    answer (.hddRdblk 63) (connected disk64) = some (.ok (.bytes (List.replicate 512 0))) := by decide +kernel

/-- V58's write; a payload of another length (30_encoding.md R103 (2)). -/
theorem test_hdd_wrblk : answer (.hddWrblk 3 [0x11]) (connected disk64) = some (.err .badOperand) ∧
    look (exec (.hddWrblk 3 (0x11 :: List.replicate 511 0)) (connected disk64))
      (fun t => t.hd.map (fun h => (h.buf.mem.cells, h.modified, h.state))) = some (some ([(1536, 0x11)], true, .idle)) := by
  decide +kernel

/-- P3. -/
theorem test_hdd_chgeo : answer (.hddChgeo 8 2 8 512) (connected disk64) = some (.err .geometryMismatch) ∧
    look (exec (.hddChgeo 8 1 8 512) (connected disk64)) (fun t => t.hd.map (fun h => (h.geometry.cylinders, h.ptable)))
      = some (some (8, [{ name := [], dosType := 0, lowCylinder := 0, highCylinder := 7, bootable := false }])) := by
  decide

/-- V58; a file system with no image in `T0`'s `EMPTY_FS`. -/
theorem test_hdd_fmt : answer (.hddFmt 0 []) (connected disk64) = some (.ok .none) ∧
    answer (.hddFmt 1 []) (connected disk64) = some (.err .badOperand) := by decide

/-- V70, P3. -/
theorem test_hdd_stat : answer .hddStat State.reset = some (.ok (.byte 0x00)) ∧
    answer .hddStat (connected { disk64 with state := .writing, idleDue := some 120, writeProtected := true, modified := true })
      = some (.ok (.byte 0x1E)) := by decide

/-- P3. -/
theorem test_hdd_stat2 : answer .hddStat2 (connected { disk64 with head := { cyl := 1, head := 0, offset := 3 } })
    = some (.ok (.triple 1 0 3)) := by decide

/-- P3. -/
theorem test_hdd_setflags :
    look (exec (.hddSetflags 1 1) (connected disk64)) (fun t => hdStatus t.hd) = some 0x1C ∧
    answer (.hddSetflags 0 2) State.reset = some (.err .badOperand) := by decide

/-- V71. -/
theorem test_hdd_dirty : answer (.hddDirty 63) (connected disk64) = some (.ok (.bool true)) ∧
    answer (.hddDirty 64) (connected disk64) = some (.err .range) := by decide

/-- V71, P3. -/
theorem test_hdd_clrdirty : answer (.hddClrdirty 64) (connected disk64) = some (.err .range) ∧
    look (exec (.hddClrdirty 0xFFFFFFFF) (connected disk64)) (fun t => t.hd.map (fun h => h.dirty))
      = some (some (List.replicate 64 false)) := by decide

/-- V60's payload; V61, V62, V63, V64. -/
theorem test_hdd_setpt :
    look (exec (.hddSetpt [0, 0, 0, 0, 0, 0, 0, 1, 0x44, 0x4F, 0x53, 0x00, 1, 3, 0x44, 0x48, 0x30,
      0, 0, 0, 2, 0, 0, 0, 3, 0x44, 0x4F, 0x53, 0x01, 0, 3, 0x44, 0x48, 0x31]) (connected disk64))
      (fun t => t.hd.map (fun h => h.ptable))
      = some (some [
        { name := [0x44, 0x48, 0x30], dosType := 0x444F5300, lowCylinder := 0, highCylinder := 1, bootable := true },
        { name := [0x44, 0x48, 0x31], dosType := 0x444F5301, lowCylinder := 2, highCylinder := 3, bootable := false }]) ∧
    answer (.hddSetpt [0, 0, 0, 0, 0, 0, 0, 2, 0, 0, 0, 0, 0, 0, 0, 0, 0, 2, 0, 0, 0, 3, 0, 0, 0, 0, 0, 0])
      (connected disk64) = some (.err .partition) ∧
    answer (.hddSetpt [0, 0, 0, 0, 0, 0, 0, 4, 0, 0, 0, 0, 0, 0]) (connected disk64) = some (.err .partition) ∧
    answer (.hddSetpt [0, 0, 0, 0, 0, 0, 0, 1, 0, 0, 0, 0, 0]) (connected disk64) = some (.err .badOperand) ∧
    answer (.hddSetpt []) (connected disk64) = some (.ok .none) := by decide

/-- V72. -/
theorem test_hdd_geo : answer .hddGeo (connected disk64) = some (.ok (.quad 4 2 8 512)) := by decide

/-- V69: the return to Idle at 80, not at 79. -/
theorem test_tick_idle :
    look (exec .tick ((connected { disk64 with state := .writing, idleDue := some 80 }).setNow 78))
      (fun t => hdStatus t.hd) = some 0x12 ∧
    look (exec .tick ((connected { disk64 with state := .writing, idleDue := some 80 }).setNow 79))
      (fun t => hdStatus t.hd) = some 0x10 := by decide

/-! ### Geometry -/

/-- V72, V89. -/
theorem test_geo_ntrk : answer (.geoNtrk 0) (connected disk64) = some (.ok (.num 8)) ∧
    answer (.geoNtrk 4) State.reset = some (.err .badOperand) := by decide

/-- S3 at the zones' edges. -/
theorem test_geo_nsec :
    [1, 17, 18, 24, 25, 30, 31, 42].map (fun t => answer (.geoNsec 3 t) State.reset)
      = [21, 21, 19, 19, 18, 18, 17, 17].map (fun n => some (.ok (.num n))) ∧
    answer (.geoNsec 1 36) State.reset = some (.err .range) := by decide

/-- V80, V81. -/
theorem test_geo_b2ts :
    [0, 20, 21, 356, 357, 682].map (fun b => answer (.geoB2ts 1 b) State.reset)
      = [(1, 0), (1, 20), (2, 0), (17, 20), (18, 0), (35, 16)].map (fun p => some (.ok (.pair p.1 p.2))) ∧
    answer (.geoB2ts 1 683) State.reset = some (.err .range) ∧
    answer (.geoB2ts 3 801) State.reset = some (.ok (.pair 42 16)) := by decide

/-- V82. -/
theorem test_geo_ts2b :
    [(1, 18, 0), (1, 18, 19), (1, 0, 0), (1, 36, 0), (3, 42, 16)].map
      (fun p => answer (.geoTs2b p.1 p.2.1 p.2.2) State.reset)
      = [some 357, none, none, none, some 801].map (fun n => some (.ok (.optNum n))) := by decide

/-- V83, V84. -/
theorem test_geo_b2chs :
    [19, 63].map (fun b => answer (.geoB2chs 0 b) (connected disk64))
      = [some (.ok (.triple 1 0 3)), some (.ok (.triple 3 1 7))] ∧
    answer (.geoB2chs 1 357) State.reset = some (.ok (.triple 17 0 0)) := by decide

/-- V83, V84. -/
theorem test_geo_chs2b : answer (.geoChs2b 0 1 0 3) (connected disk64) = some (.ok (.optNum (some 19))) ∧
    answer (.geoChs2b 0 4 0 0) (connected disk64) = some (.ok (.optNum none)) ∧
    answer (.geoChs2b 1 17 1 0) State.reset = some (.ok (.optNum none)) := by decide

/-- V85. -/
theorem test_geo_zone :
    [0, 1, 17, 18, 24, 25, 30, 31, 42, 43].map (fun t => answer (.geoZone t) State.reset)
      = [some (.err .range), some (.ok (.num 3)), some (.ok (.num 3)), some (.ok (.num 2)), some (.ok (.num 2)),
        some (.ok (.num 1)), some (.ok (.num 1)), some (.ok (.num 0)), some (.ok (.num 0)), some (.err .range)] := by
  decide

/-- V86, V87, V88. -/
theorem test_geo_next :
    [(1, 1, 0), (1, 1, 20), (1, 1, 11), (1, 17, 11), (1, 18, 0), (1, 18, 16), (1, 25, 9), (1, 35, 7), (2, 35, 7),
      (3, 42, 7)].map (fun p => answer (.geoNext p.1 p.2.1 p.2.2) State.reset)
      = [(1, 10), (1, 9), (2, 0), (19, 0), (18, 3), (19, 0), (26, 0), (0, 0), (36, 0), (0, 0)].map
        (fun p => some (.ok (.pair p.1 p.2))) ∧
    answer (.geoNext 1 1 21) State.reset = some (.err .range) ∧
    answer (.geoNext 0 1 0) State.reset = some (.err .badOperand) := by decide

/-- V89. -/
theorem test_geo_check :
    [1, 2, 3].map (fun g => answer (.geoCheck g) State.reset) = List.replicate 3 (some (.ok .none)) ∧
    answer (.geoCheck 0) State.reset = some (.err .noDevice) := by decide

/-- S3, V72. -/
theorem test_geo_nblk :
    [1, 2, 3].map (fun g => answer (.geoNblk g) State.reset)
      = [(683, 174848), (768, 196608), (802, 205312)].map (fun p => some (.ok (.pair p.1 p.2))) ∧
    answer (.geoNblk 0) (connected disk64) = some (.ok (.pair 64 32768)) := by decide

/-! ### Witnesses: for each statement with hypotheses, a state and operands that meet them, at the edges of the ranges -/

theorem reset_inv : State.reset.Inv := by
  constructor <;> simp [State.reset, State.launch, Fdd.reset]
  · decide
  · exact Memory.wf_nil _

theorem freshDisk_wf : freshDisk.Wf Config.t0 := newDisk_wf (d := .inch35) (n := .dd) rfl _ _

theorem disk64_wf : disk64.Wf where
  cylinders_pos := by decide
  heads_pos := by decide
  sectors_pos := by decide
  bsize_eq := rfl
  buf_len := rfl
  dirty_len := rfl
  buf_canonical := by decide
  buf_bounded := by decide
  idle_iff := by decide
  ptable_valid := by decide

/-- A drive that holds a well-formed 3.5 inch DD Disk is a good state. -/
theorem inserted_inv {D : Disk} {o : Nat} (w : D.Wf Config.t0) (hd : D.diameter = .inch35) (ho : o < D.trackLen) :
    (inserted D o).Inv := by
  refine reset_inv.setFdd ⟨show 0 < 84 by decide, Nat.zero_le 1, ?_, Nat.zero_le 8, ?_, ?_, (fun h => by cases h), ?_⟩
  · intro D' h
    cases h
    exact ⟨ho, hd⟩
  · intro D' h
    cases h
    exact w
  · intro D' due h
    cases h
  · intro t h
    rcases h with h | h | h <;> cases h

theorem witness_StepRunsDecodedInstruction :
    let bytes := packet 0x27 0 0 0 0 []
    let s := State.reset.setInbox [.packet bytes, .packet bytes]
    s.cfg.wf = true ∧ s.inbox = .packet bytes :: [.packet bytes] ∧ decodePacket bytes = .ok .fddRot := by decide

theorem witness_StepTicksOrTakesHostWrite :
    (State.reset.cfg.wf = true ∧ State.reset.inbox = []) ∧
    (State.reset.setInbox [.memWrite 0x3000 0xE5]).inbox = .memWrite 0x3000 0xE5 :: [] ∧ 0x3001 ≠ 0x3000 := by decide

theorem witness_UndecodablePacketsAnswerErrors :
    let s := fun op p => State.reset.setInbox [.packet (packet op 0 0 0 0 p)]
    ((s 0x06 []).cfg.wf = true ∧ (s 0x06 []).inbox = .packet (packet 0x06 0 0 0 0 []) :: [] ∧
      0xFF < 256 ∧ 0xFF ∉ assignedOps ∧ 0x06 ∉ assignedOps ∧ 0x00 ∉ assignedOps) ∧
    ((s 0xF0 [0]).inbox = .packet (packet 0xF0 0 0 0 0 [0]) :: [] ∧ 0xF0 ∈ payloadlessOps ∧ 0x10 ∈ payloadlessOps ∧
      ([0] : List Byte) ≠ [] ∧ ([0] : List Byte).length < 2 ^ 32) := by decide

theorem witness_DecodeReadsBackEveryEncoding :
    (Instr.geoChs2b 0xFFFFFFFF 0 0xFFFFFFFF 1).wellFormed = true ∧
    (Instr.mfmClk 0xFFFFFFFF [0x44, 0x89]).wellFormed = true := by decide

theorem witness_EveryStepKeepsGoodState :
    ((inserted freshDisk 12667).setInbox [.packet (packet 0x28 0 0 0 0 [])]).Inv ∧
    ∃ t, step ((inserted freshDisk 12667).setInbox [.packet (packet 0x28 0 0 0 0 [])]) = .next t :=
  ⟨(inserted_inv freshDisk_wf rfl (by decide)).setInbox _, _, rfl⟩

theorem witness_GoodStateAlwaysSteps :
    let s := (inserted freshDisk 12667).setInbox [.packet (packet 0x01 0 0 0 0 [0xA1])]
    s.Inv ∧ s.cfg.wf = true ∧ s.NextPacketFramed := by
  refine ⟨(inserted_inv freshDisk_wf rfl (by decide)).setInbox _, by decide, ?_⟩
  intro bytes rest h
  cases h
  decide

theorem witness_ErrorChangesNoState :
    ∃ t, exec .fddRot State.reset = .next t ∧ t.ret = some (.err .noDevice) := ⟨_, rfl, rfl⟩

theorem witness_ProtectedMediaSurviveCommands :
    (∃ t, exec (.fddWr8r 0x55) (inserted { freshDisk with writeProtected := true } 7) = .next t ∧
      unitOf (.fddWr8r 0x55) = .drive ∧
      (inserted { freshDisk with writeProtected := true } 7).fdd.disk = some { freshDisk with writeProtected := true }) ∧
    ∃ t, exec (.hddWrite 0 512 0x3000) (connected { disk64 with writeProtected := true }) = .next t ∧
      (connected { disk64 with writeProtected := true }).hd = some { disk64 with writeProtected := true } :=
  ⟨⟨_, rfl, rfl, rfl⟩, _, rfl, rfl⟩

theorem witness_CommandsReturnNoFormatCode :
    (∃ t, exec (.fddSide 2) State.reset = .next t ∧ t.ret = some (.err .badOperand)) ∧
    ErrCode.badOperand.code = ErrCode.badOperand.code := ⟨⟨_, rfl, rfl⟩, rfl⟩

theorem witness_CommandsStayInTheirUnit :
    (∃ t, exec .tick State.reset = .next t) ∧ (∃ t, exec (.trkClear 0) (staged freshDisk) = .next t) ∧
    (∃ t, exec .hddDisc (connected disk64) = .next t) ∧ (∃ t, exec (.geoNblk 1) State.reset = .next t) ∧
    unitOf .tick ≠ .track ∧ unitOf .tick ≠ .drive ∧ unitOf .tick ≠ .hardDisk ∧ unitOf (.trkClear 0) = .track ∧
    unitOf .hddDisc ≠ .scheduler ∧ unitOf .hddDisc ≠ .track ∧ unitOf .hddDisc ≠ .drive ∧
    unitOf (.geoNblk 1) ≠ .hardDisk ∧ unitOf (.geoNblk 1) ≠ .scheduler ∧ Instr.hddDisc ≠ .tick ∧
    (∀ o n a, Instr.hddDisc ≠ .hddRead o n a) ∧ ∀ d, Instr.hddDisc ≠ .fddStep d :=
  ⟨⟨_, rfl⟩, ⟨_, rfl⟩, ⟨_, rfl⟩, ⟨_, rfl⟩, by decide, by decide, by decide, by decide, by decide, by decide, by decide,
    by decide, by decide, by decide, by simp, by simp⟩

theorem witness_PureCommandsOnlyAnswer :
    onlyAnswers (.trkRd8 0 167 12667) = true ∧ ∃ t, exec (.trkRd8 0 167 12667) (staged freshDisk) = .next t :=
  ⟨rfl, _, rfl⟩

theorem witness_MfmEncodePlacesDataBits : ([0xA1, 0x4E] : List Byte)[1]? = some 0x4E ∧ 3 < 4 := by decide

theorem witness_MfmDecodeReadsDataBits :
    ([0x44] : List Byte).length % 2 = 1 ∧ ([0x44, 0x89] : List Byte).length % 2 = 0 ∧
    ([0x44, 0x89] : List Byte)[2 * 0]? = some 0x44 ∧ ([0x44, 0x89] : List Byte)[2 * 0 + 1]? = some 0x89 := by decide

theorem witness_OddEvenPlanesSplitAndJoin :
    ([0xC3] : List Byte)[0]? = some 0xC3 ∧ ([0x41] : List Byte).length % 2 = 1 ∧
    ([0x41, 0x41] : List Byte).length = 2 * 1 ∧ 0 < 1 ∧ ([0x41, 0x41] : List Byte)[0]? = some 0x41 ∧
    ([0x41, 0x41] : List Byte)[1 + 0]? = some 0x41 := by decide

theorem witness_ClockBitsFollowNeighbours :
    255 < 256 ∧ 255 ≤ 255 ∧ ([0x00, 0x11] : List Byte)[1]? = some 0x11 ∧
    ∃ t, exec (.mfmClk 255 [0x00, 0x11]) State.reset = .next t ∧ t.ret = some (.ok (.bytes [0x2A, 0x91])) ∧
      ([0x2A, 0x91] : List Byte)[0]? = some 0x2A ∧ ([0x2A, 0x91] : List Byte)[1]? = some 0x91 :=
  ⟨by decide, by decide, rfl, _, rfl, rfl, rfl, rfl⟩

theorem witness_MfmCodecsRoundTrip :
    ([0x44, 0x89] : List Byte).length % 2 = 0 ∧ (addClocks 0 [0x00, 0x01])[0]? = some 0xAA ∧
    (addClocks 1 [0x00, 0x01])[0]? = some 0x2A ∧ (addClocks 1 [0x00, 0x01])[1]? = some 0xA9 := by decide

theorem witness_TrkInitStagesFreshDisk :
    ((0, 0, Diameter.inch35, Density.dd, 12668) : Nat × Nat × Diameter × Density × Nat) ∈
      [(0, 0, Diameter.inch35, Density.dd, 12668), (0, 1, .inch35, .hd, 24636), (1, 0, .inch525, .dd, 12668)] ∧
    1 ≤ 1 ∧ 167 < 168 ∧ 12667 < 12668 ∧ 1 < 2 ∧
    (1, 1) ∉ [(0, 0), (0, 1), (1, 0)] ∧ (0, 2) ∉ [(0, 0), (0, 1), (1, 0)] ∧ (2, 0) ∉ [(0, 0), (0, 1), (1, 0)] := by
  decide

theorem witness_TrkClearFillsEveryTrack :
    (staged freshDisk).diskAt .stage = some freshDisk ∧ (inserted freshDisk 0).diskAt .drive = some freshDisk ∧
    167 < 168 ∧ 12667 < freshDisk.trackLen := ⟨rfl, rfl, by decide, by decide⟩

theorem witness_TrkRd8ReturnsByte :
    (staged freshDisk).diskAt .stage = some freshDisk ∧ 167 < freshDisk.numTracks ∧ 12667 < freshDisk.trackLen ∧
    freshDisk.numTracks ≤ 168 ∧ freshDisk.trackLen ≤ 12668 := by decide

theorem witness_TrkWr8ChangesOneByte :
    (staged freshDisk).diskAt .stage = some freshDisk ∧ 167 < freshDisk.numTracks ∧ 12667 < freshDisk.trackLen ∧
    255 ≤ 255 ∧ 255 < 256 ∧ freshDisk.numTracks ≤ 168 ∧ freshDisk.trackLen ≤ 12668 ∧
    (12666 < freshDisk.trackLen ∧ 12666 ≠ 12667) := by decide

theorem witness_TrkRdbitReturnsStreamBit :
    (staged freshDisk).diskAt .stage = some freshDisk ∧ 167 < freshDisk.numTracks ∧ 101343 < 8 * freshDisk.trackLen ∧
    freshDisk.numTracks ≤ 168 ∧ 8 * freshDisk.trackLen ≤ 101344 := by decide

theorem witness_TrkWrbitChangesOneBit :
    (staged freshDisk).diskAt .stage = some freshDisk ∧ 167 < freshDisk.numTracks ∧ 101343 < 8 * freshDisk.trackLen ∧
    1 ≤ 1 ∧ 1 < 2 ∧ freshDisk.numTracks ≤ 168 ∧ 8 * freshDisk.trackLen ≤ 101344 ∧
    (12666 < freshDisk.trackLen ∧ 12666 ≠ 101343 / 8) := by decide

theorem witness_TrackViewsReturnWindows :
    (staged freshDisk).diskAt .stage = some freshDisk ∧ 167 < freshDisk.numTracks ∧ freshDisk.numTracks ≤ 168 ∧
    (10 + 1) * (staged freshDisk).cfg.sectorStride ≤ freshDisk.trackLen ∧
    freshDisk.trackLen < (11 + 1) * (staged freshDisk).cfg.sectorStride := by decide

theorem witness_ChecksumsHashTracksInOrder :
    (staged freshDisk).diskAt .stage = some freshDisk ∧ 167 < freshDisk.numTracks ∧ 12667 < freshDisk.trackLen ∧
    freshDisk.numTracks ≤ 168 := by decide

theorem witness_TrackFlagsReadAndSet :
    (staged freshDisk).diskAt .stage = some freshDisk ∧ 1 ≤ 1 ∧ 0 ≤ 1 ∧ 1 < 2 ∧
    State.reset.diskAt .drive = none := by decide

theorem witness_EmptySlotAnswersNoDevice :
    State.reset.diskAt .stage = none ∧ State.reset.diskAt .drive = none ∧ 1 ≤ 1 ∧ 255 ≤ 255 ∧ 1 < 2 ∧
    freshDisk.diameter = .inch35 ∧ (newDisk .inch525 .dd 12668 false).diameter = .inch525 := by decide

/-- The reset state at a time and with a motor. -/
def motorAt (now : Nat) (on : Bool) (ts : Option Nat) : State :=
  (State.reset.setNow now).setFdd { Fdd.reset with motorOn := on, motorSwitchTs := ts }

theorem witness_MotorStampsTransitionsAndSpeedRamps :
    (1 ≤ 1 ∧ State.reset.fdd.motorOn ≠ decide (1 = 1) ∧ State.reset.fdd.motorOn = decide (0 = 1) ∧ 1 < 2) ∧
    (State.reset.fdd.motorOn = false ∧ State.reset.fdd.motorSwitchTs = none) ∧
    ((motorAt 1000 true (some 0)).fdd.motorSwitchTs = some 0 ∧ (motorAt 1000 true (some 0)).fdd.motorOn = true ∧
      (motorAt 500 false (some 500)).fdd.motorOn = false ∧ 500 ≤ (motorAt 500 false (some 500)).now ∧
      0 < (motorAt 1000 true (some 0)).cfg.rampUp ∧ 0 < (motorAt 1000 true (some 0)).cfg.rampDown) := by decide

/-- The reset state at a time, with an accepted pulse at time 0 and the head at a cylinder. -/
def steppedAt (now cyl : Nat) : State :=
  (State.reset.setNow now).setFdd { Fdd.reset with
    latestStepUp := some 0, head := { cyl := cyl, head := 0, offset := 0 }, cylHistory := [cyl] }

theorem witness_StepPulseMovesHeadAndLatch :
    1 < 2 ∧ ¬ (steppedAt 99 1).StepSpaced ∧ (steppedAt 100 82).StepSpaced ∧ (steppedAt 100 83).StepSpaced ∧
    (steppedAt 100 1).StepSpaced ∧ (steppedAt 100 0).StepSpaced ∧
    (steppedAt 100 82).fdd.head.cyl < (steppedAt 100 82).cfg.maxCyl ∧
    (steppedAt 100 83).cfg.maxCyl ≤ (steppedAt 100 83).fdd.head.cyl ∧
    (steppedAt 100 1).fdd.head.cyl = 0 + 1 ∧ (steppedAt 100 0).fdd.head.cyl = 0 := by
  simp only [← State.readyUp_iff]
  decide

theorem witness_ReadinessAndPollingAnswer :
    State.reset.cfg.pollTable = none ∧
    (State.launch { Config.t0 with pollTable := some [[1, 0]] }).cfg.pollTable = some [[1, 0]] := by decide

theorem witness_SideSelectsHeadAndPosReads : 1 ≤ 1 ∧ 1 < 2 := by decide

theorem witness_RotationWrapsAtTrackEnd :
    State.reset.fdd.disk = none ∧ (inserted freshDisk 12667).fdd.disk = some freshDisk ∧
    (inserted freshDisk 12667).fdd.head.offset < freshDisk.trackLen := by decide

theorem witness_DriveReadReturnsByteThenAdvances :
    State.reset.Inv ∧ State.reset.fdd.disk = none ∧ (inserted freshDisk 12667).Inv ∧
    (inserted freshDisk 12667).fdd.disk = some freshDisk :=
  ⟨reset_inv, rfl, inserted_inv freshDisk_wf rfl (by decide), rfl⟩

theorem witness_DriveWriteHonoursProtection :
    (State.reset.Inv ∧ State.reset.fdd.disk = none ∧ 255 < 256 ∧ 255 ≤ 255) ∧
    ((inserted freshDisk 12667).Inv ∧ (inserted freshDisk 12667).fdd.disk = some freshDisk ∧
      freshDisk.writeProtected = false ∧ 0 < freshDisk.trackLen) ∧
    (inserted { freshDisk with writeProtected := true } 7).Inv ∧
    (inserted { freshDisk with writeProtected := true } 7).fdd.disk = some { freshDisk with writeProtected := true } :=
  ⟨⟨reset_inv, rfl, by decide, by decide⟩,
    ⟨inserted_inv freshDisk_wf rfl (by decide), rfl, rfl, by decide⟩,
    inserted_inv (freshDisk_wf.setFlags false true) rfl (by decide), rfl⟩

/-- A Disk whose track 0 has one sync mark, which straddles the track's end. -/
def markedDisk : Disk := diskOf [(0, 0x89), (12667, 0x44)]

theorem markedDisk_wf : markedDisk.Wf Config.t0 := ⟨rfl, by decide, by decide⟩

theorem markedDisk_read {p : Nat} (h : p ≠ 12667) : markedDisk.read Config.t0 0 p ≠ 0x44 := by
  have hz : ∀ a, markedDisk.cleared Config.t0 a = 0x00 := fun _ => rfl
  by_cases h0 : p = 0
  · subst h0; decide
  · have e : markedDisk.read Config.t0 0 p = 0x00 := by
      simp only [Disk.read, Memory.read, Disk.trackOffset, Nat.zero_mul, Nat.zero_add, markedDisk, diskOf, lookupCell]
      rw [if_neg (Ne.symm h0), if_neg (Ne.symm h)]
      exact hz p
    rw [e]
    decide

/-- From cursor 0 the mark is found at the last position of the turn; from its own place, at the first; and a fresh Disk
has none. -/
theorem witness_SyncFindsFirstMarkWithinOneTurn :
    (State.reset.Inv ∧ State.reset.fdd.disk = none) ∧
    ((inserted markedDisk 0).Inv ∧ (inserted markedDisk 0).fdd.disk = some markedDisk ∧ 12667 < markedDisk.trackLen ∧
      (markedDisk.read Config.t0 0 ((0 + 12667) % markedDisk.trackLen) = 0x44 ∧
        markedDisk.read Config.t0 0 ((0 + 12667 + 1) % markedDisk.trackLen) = 0x89) ∧
      ∀ j, j < 12667 → markedDisk.read Config.t0 0 ((0 + j) % markedDisk.trackLen) ≠ 0x44) ∧
    (inserted markedDisk 12667).Inv ∧
    ((inserted freshDisk 12667).Inv ∧
      ∀ k, k < freshDisk.trackLen → freshDisk.read Config.t0 0 ((12667 + k) % freshDisk.trackLen) ≠ 0x44) := by
  refine ⟨⟨reset_inv, rfl⟩, ⟨inserted_inv markedDisk_wf rfl (by decide), rfl, by decide, by decide, ?_⟩,
    inserted_inv markedDisk_wf rfl (by decide), inserted_inv freshDisk_wf rfl (by decide), ?_⟩
  · intro j hj
    refine markedDisk_read ?_
    rw [show markedDisk.trackLen = 12668 from rfl]
    omega
  · intro k _
    have e : ∀ p, freshDisk.read Config.t0 0 p = 0x00 := fun _ => rfl
    rw [e]
    decide

theorem witness_DiskChangeRequestsReplacePending :
    State.reset.stage = none ∧
    (staged (newDisk .inch525 .dd 12668 false)).stage = some (newDisk .inch525 .dd 12668 false) ∧
    (newDisk .inch525 .dd 12668 false).diameter ≠ State.reset.cfg.driveDiameter ∧
    (staged freshDisk).stage = some freshDisk ∧ freshDisk.diameter = (staged freshDisk).cfg.driveDiameter := by decide

/-- The reset state at time 7 with a pending change. -/
def pendingAt (p : Option Pending) : State := (State.reset.setNow 7).setFdd { Fdd.reset with pending := p }

theorem witness_TickFiresDueEvents :
    (pendingAt none).fdd.pending = none ∧
    ((pendingAt (some { change := .eject, dueAt := 9 })).fdd.pending = some { change := .eject, dueAt := 9 } ∧
      (pendingAt none).now + 1 < 9) ∧
    ((pendingAt (some { change := .insert freshDisk, dueAt := 8 })).fdd.pending
      = some { change := .insert freshDisk, dueAt := 8 } ∧ 8 ≤ (pendingAt none).now + 1) ∧
    ((pendingAt (some { change := .eject, dueAt := 8 })).fdd.pending = some { change := .eject, dueAt := 8 }) ∧
    (pendingAt none).hd = none ∧
    ((connected { disk64 with state := .reading, idleDue := some 1 }).hd
      = some { disk64 with state := .reading, idleDue := some 1 } ∧ 1 ≤ (connected disk64).now + 1) ∧
    ((connected disk64).hd = some disk64 ∧ ∀ due, disk64.idleDue = some due → (connected disk64).now + 1 < due) ∧
    ∀ due, ({ disk64 with state := .reading, idleDue := some 2 } : HardDisk).idleDue = some due →
      (connected disk64).now + 1 < due := by
  refine ⟨by decide, by decide, by decide, by decide, by decide, ⟨rfl, by decide⟩, ⟨rfl, fun due h => by cases h⟩, ?_⟩
  intro due h
  cases h
  decide

theorem witness_InsertionCompletesWhenDue :
    (staged freshDisk).stage = some freshDisk ∧ freshDisk.diameter = (staged freshDisk).cfg.driveDiameter ∧
    0 < max 1 0 ∧ max 1 0 ≤ 1 ∧ 4 < max 1 5 ∧ max 1 5 ≤ 5 := by decide

/-- A launch in which no geometry is supported. -/
def noGeometry : State := State.launch { Config.t0 with geometryTable := some [] }

theorem witness_HddInitBuildsStore :
    let g : HdGeometry := { cylinders := 4, heads := 2, sectors := 8, bsize := 512 }
    ((0 : Nat) = 0 ∨ 2 = 0 ∨ 8 = 0 ∨ 512 = 0) ∧ (4 ≠ 0 ∧ 2 ≠ 0 ∧ 8 ≠ 0 ∧ 512 ≠ 0) ∧ 256 ≠ 512 ∧
    noGeometry.cfg.geometryOk g = false ∧ State.reset.cfg.geometryOk g = true ∧
    (([0] : List Byte) ≠ [] ∧ ([0] : List Byte).length ≠ 4 * 2 * 8 * 512) ∧ ([] : List Byte) = [] ∧
    (List.replicate 512 (0 : Byte)).length = 1 * 1 * 1 * 512 ∧ 32767 < 4 * 2 * 8 * 512 ∧ 63 < 4 * 2 * 8 := by
  refine ⟨by decide, by decide, by decide, by decide, by decide, by decide, by decide, List.length_replicate, by decide,
    by decide⟩

theorem witness_DisconnectedHardDiskAnswersNoDevice :
    (connected disk64).hd = some disk64 ∧ State.reset.hd = none ∧ 1 ≤ 1 ∧
    (List.replicate 512 (0 : Byte)).length = 512 ∧ (List.replicate 511 (0 : Byte)).length ≠ 512 :=
  ⟨rfl, rfl, by decide, List.length_replicate, by rw [List.length_replicate]; decide⟩

theorem witness_RequestsAreVerifiedInOrder :
    let s := connected disk64
    s.hd = some disk64 ∧ 100 % disk64.geometry.bsize ≠ 0 ∧
    (512 % disk64.geometry.bsize = 0 ∧ 1 % disk64.geometry.bsize ≠ 0) ∧
    (32768 % disk64.geometry.bsize = 0 ∧ disk64.geometry.numBytes < 32768 + 512) ∧
    (32256 % disk64.geometry.bsize = 0 ∧ 32256 + 512 ≤ disk64.geometry.numBytes ∧
      s.cfg.hostMemValid 0xFE01 512 = false) := ⟨rfl, by decide, by decide, by decide, by decide⟩

theorem witness_HddReadCopiesToHostMemory :
    let s := connected disk64
    s.hd = some disk64 ∧ disk64.Wf ∧ 512 % 512 = 0 ∧ 32256 % 512 = 0 ∧ 32256 + 512 ≤ disk64.geometry.numBytes ∧
    s.cfg.hostMemValid 0xFE00 512 = true ∧ 32256 < disk64.geometry.numBytes ∧
    (32768 % 512 = 0 ∧ 32768 + 0 ≤ disk64.geometry.numBytes ∧ disk64.geometry.numBytes ≤ 32768 ∧
      s.cfg.hostMemValid 0 0 = true) :=
  ⟨rfl, disk64_wf, by decide, by decide, by decide, by decide, by decide, by decide⟩

theorem witness_HddWriteStoresRealWritesOnly :
    let s := connected disk64
    s.hd = some disk64 ∧ disk64.Wf ∧ 512 % 512 = 0 ∧ 32256 % 512 = 0 ∧ 32256 + 512 ≤ disk64.geometry.numBytes ∧
    s.cfg.hostMemValid 0xFE00 512 = true ∧ disk64.writeProtected = false ∧ 0 < 512 ∧
    ({ disk64 with writeProtected := true } : HardDisk).Wf ∧
    (32768 + 0 ≤ disk64.geometry.numBytes ∧ disk64.geometry.numBytes ≤ 32768 ∧ s.cfg.hostMemValid 0 0 = true) :=
  ⟨rfl, disk64_wf, by decide, by decide, by decide, by decide, by decide, by decide, disk64_wf.setFlags false true,
    by decide⟩

theorem witness_BlockAccessBypassesStateMachine :
    (connected disk64).hd = some disk64 ∧ disk64.Wf ∧ 63 < disk64.geometry.numBlocks ∧ disk64.geometry.numBlocks ≤ 64 ∧
    (List.replicate 511 (0 : Byte)).length ≠ 512 ∧ (List.replicate 512 (0 : Byte)).length = 512 ∧
    disk64.writeProtected = false ∧ ({ disk64 with writeProtected := true } : HardDisk).Wf :=
  ⟨rfl, disk64_wf, by decide, by decide, by rw [List.length_replicate]; decide, List.length_replicate, rfl, disk64_wf.setFlags false true⟩

theorem witness_ReadDeliversWhatWriteStored :
    let s := connected disk64
    s.hd = some disk64 ∧ disk64.Wf ∧ disk64.writeProtected = false ∧ 512 % 512 = 0 ∧ 32256 % 512 = 0 ∧
    32256 + 512 ≤ disk64.geometry.numBytes ∧ s.cfg.hostMemValid 0 512 = true ∧ s.cfg.hostMemValid 0xFE00 512 = true :=
  ⟨rfl, disk64_wf, rfl, by decide, by decide, by decide, by decide, by decide⟩

theorem witness_GeometryChangeKeepsCapacityAndData :
    let g : HdGeometry := { cylinders := 8, heads := 1, sectors := 8, bsize := 512 }
    (connected disk64).hd = some disk64 ∧ ((0 : Nat) = 0 ∨ 1 = 0 ∨ 8 = 0 ∨ 512 = 0) ∧ 256 ≠ 512 ∧
    8 * 2 * 8 * 512 ≠ disk64.geometry.numBytes ∧ 8 * 1 * 8 * 512 = disk64.geometry.numBytes ∧
    noGeometry.cfg.geometryOk g = false ∧ (connected disk64).cfg.geometryOk g = true ∧
    (noGeometry.setHd (some disk64)).hd = some disk64 := ⟨rfl, by decide, by decide, by decide, by decide, rfl, rfl, rfl⟩

/-- A hard disk of one block, and a launch whose `EMPTY_FS` has an image for it. -/
def disk1 : HardDisk := { disk64 with
  geometry := { cylinders := 1, heads := 1, sectors := 1, bsize := 512 }
  buf := { len := 512, mem := { cells := [] } }
  ptable := []
  dirty := [true] }

/-- The launch whose `EMPTY_FS` has one image. -/
def formatting : State :=
  (State.launch { Config.t0 with
    emptyFs := [
      { fsType := 1, name := [0x41], geometry := disk1.geometry, image := List.replicate 512 0x44 }] }).setHd (some disk1)

theorem witness_FormatReplacesBuffer :
    formatting.hd = some disk1 ∧ (0 : Nat) = 0 ∧ 1 ≠ 0 ∧
    formatting.cfg.emptyFsImage 2 [0x41] disk1.geometry = none ∧
    formatting.cfg.emptyFsImage 1 [0x41] disk1.geometry = some (List.replicate 512 0x44) ∧
    (List.replicate 512 (0x44 : Byte)).length = disk1.geometry.numBytes :=
  ⟨rfl, rfl, by decide, by decide, by decide +kernel, List.length_replicate⟩

theorem witness_HardDiskStatusAndFlags :
    (connected disk64).hd = some disk64 ∧ State.reset.hd = none ∧ 1 ≤ 1 ∧ 1 < 2 := ⟨rfl, rfl, by decide, by decide⟩

theorem witness_DirtyBitsReadAndCleared :
    State.reset.hd = none ∧ (connected disk64).hd = some disk64 ∧ disk64.Wf ∧ 63 < disk64.geometry.numBlocks ∧
    disk64.geometry.numBlocks ≤ 64 ∧ 64 ≠ 0xFFFFFFFF ∧ 0xFFFFFFFF = 0xFFFFFFFF :=
  ⟨rfl, rfl, disk64_wf, by decide, by decide, by decide, rfl⟩

/-- A partition with no name. -/
def part (low high : Nat) : Partition :=
  { name := [], dosType := 0, lowCylinder := low, highCylinder := high, bootable := false }

theorem part_fits {low high : Nat} (h1 : low < 2 ^ 32) (h2 : high < 2 ^ 32) : (part low high).Fits :=
  ⟨h1, h2, by simp [part]⟩

theorem witness_PartitionTableIsParsedAndValidated :
    (connected disk64).hd = some disk64 ∧ (∀ p ∈ [part 0 1, part 2 3], p.Fits) ∧
    (∀ p ∈ [part 0 1, part 2 3], p.lowCylinder ≤ p.highCylinder ∧ p.highCylinder < disk64.geometry.cylinders) ∧
    [part 0 1, part 2 3].Pairwise (fun p q => ∀ c, ¬ (p.lowCylinder ≤ c ∧ c ≤ p.highCylinder ∧ q.lowCylinder ≤ c ∧
      c ≤ q.highCylinder)) ∧
    ((part 0 4).Fits ∧ disk64.geometry.cylinders ≤ (part 0 4).highCylinder) ∧
    ((part 1 0).Fits ∧ (part 1 0).highCylinder < (part 1 0).lowCylinder) ∧
    ((∀ p ∈ [part 0 2, part 2 3], p.Fits) ∧
      ¬ [part 0 2, part 2 3].Pairwise (fun p q => ∀ c, ¬ (p.lowCylinder ≤ c ∧ c ≤ p.highCylinder ∧ q.lowCylinder ≤ c ∧
        c ≤ q.highCylinder))) ∧
    (0 < 13 ∧ 13 < (part 0 1).bytes.length) ∧
    ((List.replicate 12 (0 : Byte)).length = 12 ∧ 1 < (2 : Byte).toNat) := by
  refine ⟨rfl, ?_, by decide, ?_, ⟨part_fits (by decide) (by decide), by decide⟩,
    ⟨part_fits (by decide) (by decide), by decide⟩, ⟨?_, ?_⟩, by decide, by decide⟩
  · simp [part_fits]
  · simp [part]
    omega
  · simp [part_fits]
  · intro h
    have := h
    simp only [List.pairwise_cons, List.mem_singleton, forall_eq, part] at this
    exact this.1 2 (by decide)

theorem witness_RequestSettlesAfterDelay :
    (∃ t, exec (.hddRead 32256 512 0xFE00) (connected disk64) = .next t ∧ t.ret = some (.ok .none)) ∧
    (∃ t, exec (.hddWrite 0 0 0) (connected disk64) = .next t ∧ t.ret = some (.ok .none)) ∧
    49 < max 1 (connected disk64).cfg.hdSettle ∧ max 1 (connected disk64).cfg.hdSettle ≤ 50 :=
  ⟨⟨_, rfl, rfl⟩, ⟨_, rfl, rfl⟩, by decide, by decide⟩

/-- A hard disk whose block size is not 512; no command makes one. -/
def disk256 : HardDisk := { disk64 with geometry := { cylinders := 4, heads := 2, sectors := 8, bsize := 256 } }

theorem witness_GeometrySizesAndZones :
    ((connected disk64).hd = some disk64 ∧ 7 < disk64.geometry.cylinders * disk64.geometry.heads ∧
      disk64.geometry.cylinders * disk64.geometry.heads ≤ 8 ∧ (connected disk256).hd = some disk256 ∧
      disk256.geometry.bsize ≠ 512 ∧ disk64.geometry.bsize = 512 ∧
      (connected disk64).cfg.geometryOk disk64.geometry = true ∧
      noGeometry.cfg.geometryOk disk64.geometry = false ∧ (noGeometry.setHd (some disk64)).hd = some disk64) ∧
    ((1, 35) ∈ cbmSelectors ∧ (3, 42) ∈ cbmSelectors ∧ 1 ≤ 35 ∧ 35 ≤ 35 ∧ (0 : Nat) = 0 ∧ 35 < 36) ∧
    (1 ≤ 17 ∧ 17 ≤ 17 ∧ 3 = 3 ∧ 18 ≤ 18 ∧ 24 ≤ 24 ∧ 25 ≤ 25 ∧ 30 ≤ 30 ∧ 31 ≤ 31 ∧ 42 ≤ 42 ∧ 42 < 43) ∧
    3 < 4 ∧ State.reset.hd = none :=
  ⟨⟨rfl, by decide, by decide, rfl, by decide, rfl, rfl, rfl, rfl⟩, by decide, by decide, by decide, rfl⟩

theorem witness_CbmAddressesTranslate :
    (3, 42) ∈ cbmSelectors ∧ 1 ≤ 42 ∧ 42 ≤ 42 ∧ 16 < cbmTrackSectors 42 ∧ (0 : Nat) = 0 ∧ 42 < 43 ∧
    cbmTrackSectors 42 ≤ 17 ∧ cbmTrackSectors (41 + 1) ≤ 17 ∧ 0 < 1 ∧ cbmTrackStart (42 + 1) ≤ 802 := by decide

theorem witness_HardDiskAddressesTranslate :
    let g := disk64.geometry
    (connected disk64).hd = some disk64 ∧ 63 < g.numBlocks ∧ g.numBlocks ≤ 64 ∧ 7 < g.cylinders * g.heads ∧
    7 < g.sectors ∧ g.cylinders * g.heads ≤ 8 ∧ g.sectors ≤ 8 ∧ 3 < g.cylinders ∧ 1 < g.heads ∧ g.cylinders ≤ 4 ∧
    g.heads ≤ 2 ∧ Instr.geoB2ts 4 0 ∈ [Instr.geoB2ts 4 0, .geoTs2b 4 0 0, .geoB2chs 4 0, .geoChs2b 4 0 0 0] ∧ 3 < 4 ∧
    State.reset.hd = none :=
  ⟨rfl, by decide, by decide, by decide, by decide, by decide, by decide, by decide, by decide, by decide, by decide,
    by decide, by decide, rfl⟩

theorem witness_BlockAddressesAreBijective :
    exec (.geoNblk 1) State.reset = .next (State.reset.setRet (.ok (.pair 683 174848))) ∧ 682 < 683 ∧
    exec (.geoTs2b 1 35 16) State.reset = .next (State.reset.setRet (.ok (.optNum (some 682)))) ∧
    exec (.geoChs2b 1 34 0 16) State.reset = .next (State.reset.setRet (.ok (.optNum (some 682)))) ∧
    exec (.geoNblk 0) (connected disk64) = .next ((connected disk64).setRet (.ok (.pair 64 32768))) :=
  ⟨rfl, by decide, rfl, rfl, rfl⟩

theorem witness_NextBlockFollowsInterleave :
    ((0 : Nat) = 0 ∨ 3 < 0) ∧ 3 < 4 ∧ (1, 35) ∈ cbmSelectors ∧ 35 < 36 ∧ cbmTrackSectors 1 ≤ 21 ∧
    (1 ≤ 1 ∧ 1 ≤ 35 ∧ 20 < cbmTrackSectors 1 ∧ Config.t0.cbmNext3.getD 20 0 ≠ 0) ∧
    (11 < cbmTrackSectors 17 ∧ Config.t0.cbmNext3.getD 11 0 = 0) ∧
    (16 < cbmTrackSectors 18 ∧ Config.t0.cbmDirNext.getD 16 0 = 0 ∧ 18 ≠ 35 ∧ 18 ≠ 17) ∧
    (7 < cbmTrackSectors 35 ∧ Config.t0.cbmNext0.getD 7 0 = 0 ∧ (35 : Nat) = 35) := by decide

theorem witness_InterleaveWalkVisitsEverySectorOnce :
    State.reset.cfg.wf = true ∧ (1, 35) ∈ cbmSelectors ∧ (2, 40) ∈ cbmSelectors ∧ (3, 42) ∈ cbmSelectors := by decide

end Sys2Proof.Tests
end

section
/-! SUPPORT. A good state always steps: an outcome that is a next state, through every shared operation of a command;
what a whole packet decodes to; and then every command, unit by unit. The commands that can fault ask for the good
state; their lemmas cite the invariant that rules the fault out. -/

namespace Sys2Proof.Machine

/-- The outcome is a next state: neither a fault nor a refusal. -/
def HasNext (o : Outcome) : Prop := ∃ t, o = .next t

/-! ### The shared operations -/

theorem HasNext.next (t : State) : HasNext (.next t) := ⟨t, rfl⟩

theorem HasNext.finish (s : State) (v : Value) : HasNext (s.finish v) := ⟨_, finish_eq s v⟩

theorem HasNext.raise (s : State) (e : ErrCode) : HasNext (s.raise e) := ⟨_, raise_eq s e⟩

theorem HasNext.ite {p : Prop} [Decidable p] {o q : Outcome} (ho : p → HasNext o) (hq : ¬ p → HasNext q) :
    HasNext (if p then o else q) := by
  split
  · exact ho ‹_›
  · exact hq ‹_›

theorem HasNext.withDisk {s : State} {sel : Nat} {k : Sel → Disk → Outcome} (h : ∀ slot D, HasNext (k slot D)) :
    HasNext (withDisk s sel k) := by
  unfold Machine.withDisk
  split
  · exact .raise ..
  · split
    · exact .raise ..
    · exact h ..

theorem HasNext.withTrack {s : State} {sel track : Nat} {k : Sel → Disk → Outcome}
    (h : ∀ slot D, HasNext (k slot D)) : HasNext (withTrack s sel track k) :=
  .withDisk fun slot D => .ite (fun _ => .raise ..) (fun _ => h slot D)

theorem HasNext.withCurDisk {s : State} {k : Disk → Outcome} (h : ∀ D, HasNext (k D)) :
    HasNext (withCurDisk s k) := by
  cases hd : s.fdd.disk with
  | none => rw [withCurDisk_empty hd]; exact .raise ..
  | some D => rw [withCurDisk_eq hd]; exact h D

/-- In a good state an access through the head is never outside the arena. -/
theorem HasNext.withHead {s : State} (hs : s.Inv) {k : Disk → Outcome} (h : ∀ D, HasNext (k D)) :
    HasNext (withHead s k) := by
  cases hd : s.fdd.disk with
  | none => rw [withHead_empty hd]; exact .raise ..
  | some D => rw [withHead_eq hs hd]; exact h D

theorem HasNext.withHd {s : State} {k : HardDisk → Outcome} (h : ∀ d, s.hd = some d → HasNext (k d)) :
    HasNext (withHd s k) := by
  cases hd : s.hd with
  | none => rw [withHd_empty hd]; exact .raise ..
  | some d => rw [withHd_eq hd]; exact h d hd

theorem HasNext.withGeo {s : State} {gsel : Nat} {k : GeoDesc → Outcome} (h : ∀ G, HasNext (k G)) :
    HasNext (withGeo s gsel k) :=
  .ite (fun _ => .withHd fun _ _ => h _) fun _ => .ite (fun _ => h _) fun _ =>
    .ite (fun _ => h _) fun _ => .ite (fun _ => h _) fun _ => .raise ..

/-! ### The hard disk's stores -/

/-- A block inside the geometry ends inside the buffer. -/
theorem HdGeometry.block_end_le {g : HdGeometry} {block : Nat} (h : block < g.numBlocks) :
    block * g.bsize + g.bsize ≤ g.numBytes :=
  calc block * g.bsize + g.bsize = (block + 1) * g.bsize := (Nat.succ_mul _ _).symm
    _ ≤ g.numBlocks * g.bsize := Nat.mul_le_mul_right _ h

/-- A range of bits inside the bitmap can be set. -/
theorem setBits?_isSome {bits : List Bool} {hi : Nat} (h : hi ≤ bits.length) (lo : Nat) (v : Bool) :
    ∃ bits', setBits? bits lo hi v = some bits' := ⟨_, if_pos h⟩

/-! ### Track storage -/

theorem execTrkInit_hasNext (diameter density wp : Nat) (s : State) : HasNext (execTrkInit diameter density wp s) := by
  unfold execTrkInit
  split
  · exact .raise ..
  · split
    · exact .raise ..
    · exact .finish ..

theorem execTrkWrbit_hasNext (sel track o value : Nat) (s : State) : HasNext (execTrkWrbit sel track o value s) := by
  unfold execTrkWrbit
  split
  · exact .raise ..
  · exact .withTrack fun _ _ => .ite (fun _ => .raise ..) (fun _ => .finish ..)

theorem execTrkWr8_hasNext (sel track i value : Nat) (s : State) : HasNext (execTrkWr8 sel track i value s) := by
  unfold execTrkWr8
  split
  · exact .raise ..
  · exact .withTrack fun _ _ => .ite (fun _ => .raise ..) (fun _ => .finish ..)

theorem execTrkSetflags_hasNext (sel modified wp : Nat) (s : State) :
    HasNext (execTrkSetflags sel modified wp s) := by
  unfold execTrkSetflags
  split
  · exact .withDisk fun _ _ => .finish ..
  · exact .raise ..

/-! ### The floppy drive -/

theorem execFddMotor_hasNext (on : Nat) (s : State) : HasNext (execFddMotor on s) := by
  unfold execFddMotor
  split
  · exact .raise ..
  · exact .ite (fun _ => .finish ..) (fun _ => .finish ..)

/-- A motor that is on has been switched (42_drive_mechanics.md R171), so `FDD_SPEED` has a time stamp to count from. -/
theorem execFddSpeed_hasNext {s : State} (hs : s.Inv) : HasNext (execFddSpeed s) := by
  unfold execFddSpeed
  split
  case h_2 hon hts => exact absurd hts (hs.motor hon)
  all_goals exact .finish ..

theorem execFddStep_hasNext (dir : Nat) (s : State) : HasNext (execFddStep dir s) := by
  unfold execFddStep
  split
  · exact .raise ..
  · exact .ite (fun _ => .ite (fun _ => .finish ..) (fun _ => .finish ..)) (fun _ => .finish ..)

theorem execFddWr8r_hasNext {s : State} (hs : s.Inv) (value : Nat) : HasNext (execFddWr8r value s) := by
  unfold execFddWr8r
  split
  · exact .raise ..
  · exact .withHead hs fun _ => .finish ..

theorem execFddIns_hasNext (delay : Nat) (s : State) : HasNext (execFddIns delay s) := by
  unfold execFddIns
  split
  · exact .raise ..
  · exact .ite (fun _ => .finish ..) (fun _ => .raise ..)

theorem execFddSync_hasNext {s : State} (hs : s.Inv) : HasNext (execFddSync s) := by
  refine .withHead hs fun D => ?_
  split
  · exact .finish ..
  · exact .finish ..

/-! ### The hard disk -/

theorem execHddInit_hasNext (c h n b : Nat) (image : List Byte) (s : State) :
    HasNext (execHddInit c h n b image s) :=
  .ite (fun _ => .raise ..) fun _ => .ite (fun _ => .raise ..) fun _ =>
    .ite (fun _ => .ite (fun _ => .raise ..) (fun _ => .finish ..)) (fun _ => .raise ..)

/-- A request that passes `Verify` lies inside the buffer. -/
theorem execHddRead_hasNext {s : State} (hs : s.Inv) (offset length addr : Nat) :
    HasNext (execHddRead offset length addr s) := by
  refine .withHd fun h hh => ?_
  split
  · exact .raise ..
  · next hv =>
    obtain ⟨-, -, hrange, -⟩ := verifyError_none.1 hv
    rw [(hs.hard_disk h hh).read? hrange]
    exact .finish ..

/-- As for a read; the bytes written are `length` many. -/
theorem execHddWrite_hasNext {s : State} (hs : s.Inv) (offset length addr : Nat) :
    HasNext (execHddWrite offset length addr s) := by
  refine .withHd fun h hh => ?_
  split
  · exact .raise ..
  · next hv =>
    obtain ⟨-, -, hrange, -⟩ := verifyError_none.1 hv
    refine .ite (fun _ => ?_) (fun _ => .finish ..)
    obtain ⟨h', hw⟩ := (hs.hard_disk h hh).realWrite (o := offset)
      (v := s.hostMem.readRange zeroByte addr length) (by simpa using hrange)
    rw [hw]
    exact .finish ..

theorem execHddRdblk_hasNext {s : State} (hs : s.Inv) (block : Nat) : HasNext (execHddRdblk block s) := by
  refine .withHd fun h hh => .ite (fun _ => .raise ..) fun hb => ?_
  rw [(hs.hard_disk h hh).read? (HdGeometry.block_end_le (Nat.lt_of_not_le hb))]
  exact .finish ..

theorem execHddWrblk_hasNext {s : State} (hs : s.Inv) (block : Nat) (data : List Byte) :
    HasNext (execHddWrblk block data s) := by
  refine .ite (fun _ => .raise ..) fun _ => .withHd fun h hh => .ite (fun _ => .raise ..) fun hlen =>
    .ite (fun _ => .raise ..) fun hb => .ite (fun _ => .finish ..) fun _ => ?_
  have hend := HdGeometry.block_end_le (Nat.lt_of_not_le hb)
  obtain ⟨h', hw⟩ := (hs.hard_disk h hh).realWrite (o := block * h.geometry.bsize) (v := data)
    (by rwa [Decidable.not_not.1 hlen])
  rw [hw]
  exact .finish ..

theorem execHddChgeo_hasNext (c h n b : Nat) (s : State) : HasNext (execHddChgeo c h n b s) :=
  .withHd fun _ _ => .ite (fun _ => .raise ..) fun _ => .ite (fun _ => .raise ..) fun _ =>
    .ite (fun _ => .raise ..) fun _ => .ite (fun _ => .finish ..) (fun _ => .raise ..)

theorem execHddFmt_hasNext (fsType : Nat) (name : List Byte) (s : State) : HasNext (execHddFmt fsType name s) := by
  refine .withHd fun h _ => .ite (fun _ => .finish ..) fun _ => ?_
  split
  · exact .raise ..
  · exact .ite (fun _ => .raise ..) (fun _ => .finish ..)

theorem execHddSetflags_hasNext (modified wp : Nat) (s : State) : HasNext (execHddSetflags modified wp s) := by
  unfold execHddSetflags
  split
  · exact .withHd fun _ _ => .finish ..
  · exact .raise ..

/-- Every block inside the geometry has its dirty bit (10_state.md R55). -/
theorem execHddDirty_hasNext {s : State} (hs : s.Inv) (block : Nat) : HasNext (execHddDirty block s) := by
  refine .withHd fun h hh => .ite (fun _ => .raise ..) fun hb => ?_
  have hlt : block < h.dirty.length := by
    rw [(hs.hard_disk h hh).dirty_len]
    exact Nat.lt_of_not_le hb
  rw [List.getElem?_eq_getElem hlt]
  exact .finish ..

theorem execHddClrdirty_hasNext {s : State} (hs : s.Inv) (block : Nat) : HasNext (execHddClrdirty block s) := by
  refine .withHd fun h hh => .ite (fun _ => .finish ..) fun _ => .ite (fun _ => .raise ..) fun hb => ?_
  obtain ⟨dirty, hd⟩ := setBits?_isSome (bits := h.dirty) (hi := block + 1)
    (by rw [(hs.hard_disk h hh).dirty_len]; exact Nat.lt_of_not_le hb) block false
  rw [hd]
  exact .finish ..

theorem execHddSetpt_hasNext (plist : List Byte) (s : State) : HasNext (execHddSetpt plist s) := by
  refine .withHd fun h _ => ?_
  split
  · exact .raise ..
  · exact .ite (fun _ => .finish ..) (fun _ => .raise ..)

/-! ### Geometry -/

theorem execGeoNtrk_hasNext (gsel : Nat) (s : State) : HasNext (execGeoNtrk gsel s) := .withGeo fun _ => .finish ..

theorem execGeoNsec_hasNext (gsel track : Nat) (s : State) : HasNext (execGeoNsec gsel track s) :=
  .withGeo fun _ => .ite (fun _ => .finish ..) (fun _ => .raise ..)

theorem execGeoB2ts_hasNext (gsel block : Nat) (s : State) : HasNext (execGeoB2ts gsel block s) := by
  refine .withGeo fun G => ?_
  split
  · exact .finish ..
  · exact .raise ..

theorem execGeoTs2b_hasNext (gsel track sector : Nat) (s : State) : HasNext (execGeoTs2b gsel track sector s) :=
  .withGeo fun _ => .finish ..

theorem execGeoB2chs_hasNext (gsel block : Nat) (s : State) : HasNext (execGeoB2chs gsel block s) := by
  refine .withGeo fun G => ?_
  split
  · exact .finish ..
  · exact .raise ..

theorem execGeoChs2b_hasNext (gsel cyl head sector : Nat) (s : State) :
    HasNext (execGeoChs2b gsel cyl head sector s) := .withGeo fun _ => .finish ..

theorem execGeoZone_hasNext (track : Nat) (s : State) : HasNext (execGeoZone track s) := by
  unfold execGeoZone
  split
  · exact .finish ..
  · exact .raise ..

theorem execGeoCheck_hasNext (gsel : Nat) (s : State) : HasNext (execGeoCheck gsel s) := by
  refine .withGeo fun G => ?_
  split
  · exact .finish ..
  · exact .raise ..

theorem execGeoNblk_hasNext (gsel : Nat) (s : State) : HasNext (execGeoNblk gsel s) := .withGeo fun _ => .finish ..

/-! ### Every command -/

/-- In a good state no command ends a run (00_scope.md R16). -/
theorem exec_hasNext {s : State} (hs : s.Inv) : ∀ i, HasNext (exec i s)
  | .mfmEnc _ | .mfmEncoe _ => .finish ..
  | .mfmDec _ | .mfmDecoe _ | .mfmClk _ _ => .ite (fun _ => .raise ..) (fun _ => .finish ..)
  | .trkInit d n wp => execTrkInit_hasNext d n wp s
  | .trkClear _ | .trkCsum _ | .trkStat _ => .withDisk fun _ _ => .finish ..
  | .trkRdbit _ _ _ | .trkRd8 _ _ _ | .trkSect _ _ _ =>
    .withTrack fun _ _ => .ite (fun _ => .raise ..) (fun _ => .finish ..)
  | .trkWrbit sel track o v => execTrkWrbit_hasNext sel track o v s
  | .trkWr8 sel track i v => execTrkWr8_hasNext sel track i v s
  | .trkView _ _ | .trkCsumt _ _ => .withTrack fun _ _ => .finish ..
  | .trkSetflags sel m wp => execTrkSetflags_hasNext sel m wp s
  | .fddMotor on => execFddMotor_hasNext on s
  | .fddSpeed => execFddSpeed_hasNext hs
  | .fddStep dir => execFddStep_hasNext dir s
  | .fddRdyup | .fddRdydn | .fddPolls | .fddEj _ | .fddStat | .fddPos => .finish ..
  | .fddSide _ => .ite (fun _ => .raise ..) (fun _ => .finish ..)
  | .fddRot => .withCurDisk fun _ => .finish ..
  | .fddRd8r => .withHead hs fun _ => .finish ..
  | .fddWr8r v => execFddWr8r_hasNext hs v
  | .fddIns delay => execFddIns_hasNext delay s
  | .fddSync => execFddSync_hasNext hs
  | .hddInit c h n b image => execHddInit_hasNext c h n b image s
  | .hddDisc | .hddStat2 | .hddGeo => .withHd fun _ _ => .finish ..
  | .hddRead o n a => execHddRead_hasNext hs o n a
  | .hddWrite o n a => execHddWrite_hasNext hs o n a
  | .hddRdblk block => execHddRdblk_hasNext hs block
  | .hddWrblk block data => execHddWrblk_hasNext hs block data
  | .hddChgeo c h n b => execHddChgeo_hasNext c h n b s
  | .hddFmt fsType name => execHddFmt_hasNext fsType name s
  | .hddStat => .finish ..
  | .hddSetflags m wp => execHddSetflags_hasNext m wp s
  | .hddDirty block => execHddDirty_hasNext hs block
  | .hddClrdirty block => execHddClrdirty_hasNext hs block
  | .hddSetpt plist => execHddSetpt_hasNext plist s
  | .geoNtrk gsel => execGeoNtrk_hasNext gsel s
  | .geoNsec gsel track => execGeoNsec_hasNext gsel track s
  | .geoB2ts gsel block => execGeoB2ts_hasNext gsel block s
  | .geoTs2b gsel track sector => execGeoTs2b_hasNext gsel track sector s
  | .geoB2chs gsel block => execGeoB2chs_hasNext gsel block s
  | .geoChs2b gsel cyl head sector => execGeoChs2b_hasNext gsel cyl head sector s
  | .geoZone track => execGeoZone_hasNext track s
  | .geoNext _ _ _ =>
    .ite (fun _ => .raise ..) fun _ => .withGeo fun _ => .ite (fun _ => .finish ..) (fun _ => .raise ..)
  | .geoCheck gsel => execGeoCheck_hasNext gsel s
  | .geoNblk gsel => execGeoNblk_hasNext gsel s
  | .tick => .finish ..

/-! ### Whole packets -/

/-- The decode errors that the block answers with an error result (30_encoding.md R103 (1), (2), R104): those of a
whole packet. -/
def IsAnswered (e : DecodeError) : Prop := e = .unknownCmd ∨ e = .payloadNotEmpty

theorem answerUndecoded_hasNext {e : DecodeError} (h : IsAnswered e) (s : State) :
    HasNext (answerUndecoded e s) := by
  obtain rfl | rfl := h
  · exact .raise ..
  · exact .raise ..

theorem withoutPayload_error {payload : List Byte} {i : Instr} {e : DecodeError}
    (h : withoutPayload payload i = .error e) : e = .payloadNotEmpty := by
  cases payload with
  | nil => cases h
  | cons _ _ => cases h; rfl

/-- The opcode map never says that bytes are no packet: a row is a command, a command that demands an empty payload, or
reserved. -/
theorem instrOf_error {op a b c d : Nat} {payload : List Byte} {e : DecodeError}
    (h : instrOf op a b c d payload = .error e) : IsAnswered e := by
  unfold instrOf at h
  split at h
  all_goals grind [withoutPayload_error, IsAnswered]

/-- On a header and exactly its payload, the decoder is the opcode map. -/
theorem decodePacket_of_framed {bytes : List Byte} (h : bytes.length = headerBytes + be32At bytes 17) :
    decodePacket bytes = instrOf (beNat (bytes.take 1)) (be32At bytes 1) (be32At bytes 5) (be32At bytes 9)
      (be32At bytes 13) (bytes.drop headerBytes) := by
  have hbody : (bytes.drop headerBytes).length = be32At bytes 17 := by rw [List.length_drop]; omega
  have htake : (bytes.drop headerBytes).take (be32At bytes 17) = bytes.drop headerBytes :=
    List.take_of_length_le hbody.le
  have hdrop : (bytes.drop headerBytes).drop (be32At bytes 17) = [] := List.drop_of_length_le hbody.le
  unfold decodePacket decode
  simp only [if_neg (show ¬ bytes.length < headerBytes by omega), hbody, lt_irrefl, if_false, htake, hdrop]
  cases instrOf (beNat (bytes.take 1)) (be32At bytes 1) (be32At bytes 5) (be32At bytes 9) (be32At bytes 13)
    (bytes.drop headerBytes) <;> rfl

/-! ### The step -/

/-- Settles O8: a tick and a command have a next state in a good state, a host write always has one, and whole packets
that are no command are answered. -/
theorem goodStateAlwaysSteps : Obligations.GoodStateAlwaysSteps := by
  intro s hs hwf hframed
  show HasNext (step s)
  unfold step
  rw [if_pos hwf]
  split
  · exact exec_hasNext hs .tick
  · exact .next _
  · next bytes rest hinbox =>
    have hlen := (hframed bytes rest hinbox).2
    split
    · next i _ => exact exec_hasNext (hs.setInbox rest) i
    · next e he =>
      rw [decodePacket_of_framed hlen] at he
      exact answerUndecoded_hasNext (instrOf_error he) _

end Sys2Proof.Machine
end

section
/-! SUPPORT. A launch is a good state, and every step from a good state that answers a next state leads to a good
state (10_state.md R61). First the drive's part of the invariant under each of the drive's updates; then an outcome that
leads to a good state, through every shared operation of a command; then every command, unit by unit. -/

namespace Sys2Proof.Machine

/-! ### The drive's updates -/

theorem cylinderCount_pos (d : Diameter) : 0 < cylinderCount d := by cases d <;> decide

/-- The drive after reset, at any time and in every configuration. -/
theorem FddInv.reset (c : Config) (n : Nat) : FddInv c n Fdd.reset where
  cyl_lt := cylinderCount_pos _
  head_le := Nat.zero_le 1
  drive_disk := nofun
  history := Nat.zero_le _
  drive_wf := nofun
  pending_wf := nofun
  motor := nofun
  stamps := fun _ ht => by rcases ht with ht | ht | ht <;> cases ht

/-- A motor switched now (42_drive_mechanics.md R171). -/
theorem FddInv.switchMotor {c : Config} {n : Nat} {f : Fdd} (h : FddInv c n f) (m : Bool) :
    FddInv c n { f with motorOn := m, motorSwitchTs := some n } :=
  { h with
    motor := fun _ => Option.some_ne_none n
    stamps := by
      rintro t (ht | ht)
      · cases ht
        exact le_rfl
      · exact h.stamps t (.inr ht) }

theorem FddInv.setDskChange {c : Config} {n : Nat} {f : Fdd} (h : FddInv c n f) (b : Bool) :
    FddInv c n { f with dskChange := b } := { h with }

/-- A step pulse accepted now (42_drive_mechanics.md R180). -/
theorem FddInv.stampStep {c : Config} {n : Nat} {f : Fdd} (h : FddInv c n f) (d : Dir) :
    FddInv c n (f.stampStep d n) := by
  cases d with
  | up =>
    refine { h with stamps := ?_ }
    rintro t (ht | ht | ht)
    · exact h.stamps t (.inl ht)
    · cases ht
      exact le_rfl
    · exact h.stamps t (.inr (.inr ht))
  | down =>
    refine { h with stamps := ?_ }
    rintro t (ht | ht | ht)
    · exact h.stamps t (.inl ht)
    · exact h.stamps t (.inr (.inl ht))
    · cases ht
      exact le_rfl

/-- A visited cylinder enters the history, which keeps its depth (42_drive_mechanics.md R185). -/
theorem FddInv.visit {c : Config} {n : Nat} {f : Fdd} (h : FddInv c n f) {cyl : Nat}
    (hc : cyl < cylinderCount c.driveDiameter) : FddInv c n (f.visit c.histDepth cyl) :=
  { h with cyl_lt := hc, history := List.length_take_le _ _ }

/-- A pulse keeps the head on the drive's cylinders (42_drive_mechanics.md R184). -/
theorem stepCyl_lt {c : Config} {cyl : Nat} (h : cyl < cylinderCount c.driveDiameter) (d : Dir) :
    stepCyl c.maxCyl d cyl < cylinderCount c.driveDiameter := by
  have hmax : c.maxCyl + 1 ≤ cylinderCount c.driveDiameter := Nat.sub_add_cancel (cylinderCount_pos _) |>.le
  unfold stepCyl
  split
  · split <;> omega
  · split <;> omega

theorem FddInv.setSide {c : Config} {n : Nat} {f : Fdd} (h : FddInv c n f) {side : Nat} (hs : side ≤ 1) :
    FddInv c n { f with head := { f.head with head := side } } := { h with head_le := hs }

/-- A pending insertion of a Disk that fits the drive (42_drive_mechanics.md R194). -/
theorem FddInv.requestInsert {c : Config} {n : Nat} {f : Fdd} (h : FddInv c n f) {D : Disk} (hw : D.Wf c)
    (hd : D.diameter = c.driveDiameter) (due : Nat) :
    FddInv c n { f with pending := some { change := .insert D, dueAt := due } } :=
  { h with pending_wf := fun _ _ hp => by cases hp; exact ⟨hw, hd⟩ }

theorem FddInv.requestEject {c : Config} {n : Nat} {f : Fdd} (h : FddInv c n f) (due : Nat) :
    FddInv c n { f with pending := some { change := .eject, dueAt := due } } :=
  { h with pending_wf := nofun }

/-- The disk-change event, due or not (42_drive_mechanics.md R200). -/
theorem FddInv.fireChange {c : Config} {n : Nat} {f : Fdd} (h : FddInv c n f) (now : Nat) :
    FddInv c n (f.fireChange now) := by
  rcases f.fireChange_cases now with e | ⟨D, due, hp, -, e⟩ | ⟨due, -, -, e⟩ <;> rw [e]
  · exact h
  · exact h.insertDisk hp
  · exact h.ejectDisk

/-! ### The launch -/

/-- A launch with any configuration is a good state. -/
theorem State.launch_inv (c : Config) : (State.launch c).Inv :=
  have hf := FddInv.reset c 0
  ⟨hf.cyl_lt, hf.head_le, hf.drive_disk, hf.history, nofun, nofun, hf.drive_wf, hf.pending_wf, launch_hostMem_wf c,
    hf.motor, hf.stamps⟩

/-- Settles O6: the values are those of `State.launch`, and the invariant is `State.launch_inv`. -/
theorem launchHasResetValuesAndIsGood : Obligations.LaunchHasResetValuesAndIsGood := fun c =>
  ⟨rfl, rfl, rfl, rfl, rfl, rfl, rfl, rfl, rfl, rfl, rfl, rfl, rfl, State.launch_inv c⟩

/-! ### The shared operations -/

/-- The outcome, where it is a next state, is a good state. -/
def LeadsToGood (o : Outcome) : Prop := ∀ t, o = .next t → t.Inv

theorem LeadsToGood.next {s : State} (hs : s.Inv) : LeadsToGood (.next s) := by
  intro t h
  cases h
  exact hs

theorem LeadsToGood.fault (f : Fault) : LeadsToGood (.fault f) := fun _ h => by cases h

theorem LeadsToGood.refused (r : Refusal) : LeadsToGood (.refused r) := fun _ h => by cases h

theorem LeadsToGood.finish {s : State} (hs : s.Inv) {v : Value} : LeadsToGood (s.finish v) := .next (hs.setRet _)

theorem LeadsToGood.raise {s : State} (hs : s.Inv) {e : ErrCode} : LeadsToGood (s.raise e) := .next (hs.setRet _)

theorem LeadsToGood.ite {p : Prop} [Decidable p] {o q : Outcome} (ho : p → LeadsToGood o)
    (hq : ¬ p → LeadsToGood q) : LeadsToGood (if p then o else q) := by
  split
  · exact ho ‹_›
  · exact hq ‹_›

theorem LeadsToGood.withDisk {s : State} (hs : s.Inv) {sel : Nat} {k : Sel → Disk → Outcome}
    (h : ∀ slot D, s.diskAt slot = some D → LeadsToGood (k slot D)) : LeadsToGood (withDisk s sel k) := by
  intro t ht
  rcases withDisk_inv ht with rfl | rfl | ⟨slot, D, -, hd, hk⟩
  · exact hs.setRet _
  · exact hs.setRet _
  · exact h slot D hd t hk

theorem LeadsToGood.withTrack {s : State} (hs : s.Inv) {sel track : Nat} {k : Sel → Disk → Outcome}
    (h : ∀ slot D, s.diskAt slot = some D → track < trackSlots → LeadsToGood (k slot D)) :
    LeadsToGood (withTrack s sel track k) := by
  intro t ht
  rcases withTrack_inv ht with ⟨e, rfl⟩ | ⟨slot, D, -, hd, hlt, hk⟩
  · exact hs.setRet _
  · exact h slot D hd (hlt.trans_le D.numTracks_le) t hk

theorem LeadsToGood.withCurDisk {s : State} (hs : s.Inv) {k : Disk → Outcome}
    (h : ∀ D, s.fdd.disk = some D → LeadsToGood (k D)) : LeadsToGood (withCurDisk s k) := by
  cases hd : s.fdd.disk with
  | none => rw [withCurDisk_empty hd]; exact .raise hs
  | some D => rw [withCurDisk_eq hd]; exact h D hd

theorem State.headInArena_iff {s : State} {D : Disk} :
    s.headInArena D = true ↔ s.curTrack < trackSlots ∧ s.fdd.head.offset < D.trackLen := by
  simp [State.headInArena]

theorem LeadsToGood.withHead {s : State} (hs : s.Inv) {k : Disk → Outcome}
    (h : ∀ D, s.fdd.disk = some D → s.headInArena D = true → LeadsToGood (k D)) : LeadsToGood (withHead s k) := by
  intro t ht
  rcases withHead_inv ht with rfl | ⟨D, hd, ha, hk⟩
  · exact hs.setRet _
  · exact h D hd ha t hk

theorem LeadsToGood.withHd {s : State} (hs : s.Inv) {k : HardDisk → Outcome}
    (h : ∀ d : HardDisk, d.Wf → LeadsToGood (k d)) : LeadsToGood (withHd s k) := by
  intro t ht
  rcases withHd_inv ht with rfl | ⟨d, hd, hk⟩
  · exact hs.setRet _
  · exact h d (hs.hard_disk d hd) t hk

theorem LeadsToGood.withGeo {s : State} (hs : s.Inv) {gsel : Nat} {k : GeoDesc → Outcome}
    (h : ∀ G, LeadsToGood (k G)) : LeadsToGood (withGeo s gsel k) :=
  .ite (fun _ => .withHd hs fun _ _ => h _) fun _ => .ite (fun _ => h _) fun _ =>
    .ite (fun _ => h _) fun _ => .ite (fun _ => h _) fun _ => .raise hs

/-- A well-formed hard disk in its place. -/
theorem State.Inv.connect {s : State} (hs : s.Inv) {d : HardDisk} (w : d.Wf) : (s.setHd (some d)).Inv :=
  hs.setHd fun _ e => Option.some.inj e ▸ w

/-! ### Track storage -/

/-- A byte written inside the arena of a slot's Disk. -/
theorem State.Inv.writeDisk {s : State} (hs : s.Inv) {slot : Sel} {D : Disk} (hd : s.diskAt slot = some D)
    {t i : Nat} (ht : t < trackSlots) (hi : i < D.trackLen) (v : Byte) :
    (s.putDisk slot (D.write s.cfg t i v)).Inv := hs.putDisk hd ((hs.disk_wf hd).write ht hi v) rfl rfl

theorem execTrkInit_leadsToGood {s : State} (hs : s.Inv) (diameter density wp : Nat) :
    LeadsToGood (execTrkInit diameter density wp s) := by
  unfold execTrkInit
  split
  · exact .raise hs
  · split
    · exact .raise hs
    · next hl => exact .finish (hs.setStage fun D e => Option.some.inj e ▸ newDisk_wf (asLayout_spec hl) _ _)

theorem execTrkClear_leadsToGood {s : State} (hs : s.Inv) (sel : Nat) : LeadsToGood (execTrkClear sel s) :=
  .withDisk hs fun _ _ hd => .finish (hs.putDisk hd (hs.disk_wf hd).clear rfl rfl)

theorem execTrkWrbit_leadsToGood {s : State} (hs : s.Inv) (sel track o value : Nat) :
    LeadsToGood (execTrkWrbit sel track o value s) := by
  unfold execTrkWrbit
  split
  · exact .raise hs
  · exact .withTrack hs fun _ _ hd ht => .ite (fun _ => .raise hs) fun ho =>
      .finish (hs.writeDisk hd ht (by omega) _)

theorem execTrkWr8_leadsToGood {s : State} (hs : s.Inv) (sel track i value : Nat) :
    LeadsToGood (execTrkWr8 sel track i value s) := by
  unfold execTrkWr8
  split
  · exact .raise hs
  · exact .withTrack hs fun _ _ hd ht => .ite (fun _ => .raise hs) fun hi =>
      .finish (hs.writeDisk hd ht (by omega) _)

theorem execTrkSetflags_leadsToGood {s : State} (hs : s.Inv) (sel modified wp : Nat) :
    LeadsToGood (execTrkSetflags sel modified wp s) := by
  unfold execTrkSetflags
  split
  · next m p _ _ =>
    exact .withDisk hs fun _ _ hd => .finish (hs.putDisk hd ((hs.disk_wf hd).setFlags m p) rfl rfl)
  · exact .raise hs

/-! ### The floppy drive -/

theorem execFddMotor_leadsToGood {s : State} (hs : s.Inv) (on : Nat) : LeadsToGood (execFddMotor on s) := by
  unfold execFddMotor
  split
  · exact .raise hs
  · exact .ite (fun _ => .finish hs) fun _ => .finish (hs.setFdd (hs.fdd.switchMotor _))

theorem execFddSpeed_leadsToGood {s : State} (hs : s.Inv) : LeadsToGood (execFddSpeed s) := by
  unfold execFddSpeed
  split
  case h_2 => exact .fault _
  all_goals exact .finish hs

/-- The latch changes on every pulse; an accepted pulse is stamped; a pulse that moves the head is recorded. -/
theorem execFddStep_leadsToGood {s : State} (hs : s.Inv) (dir : Nat) : LeadsToGood (execFddStep dir s) := by
  unfold execFddStep
  split
  · exact .raise hs
  · next d _ =>
    have hseen := hs.fdd.setDskChange s.latchAfterPulse
    have haccepted := hseen.stampStep d
    have hmoved := haccepted.visit (stepCyl_lt hs.cyl_lt d)
    exact .ite (fun _ => .ite (fun _ => .finish (hs.setFdd haccepted)) fun _ => .finish (hs.setFdd hmoved))
      fun _ => .finish (hs.setFdd hseen)

theorem execFddSide_leadsToGood {s : State} (hs : s.Inv) (head : Nat) : LeadsToGood (execFddSide head s) :=
  .ite (fun _ => .raise hs) fun h => .finish (hs.setFdd (hs.fdd.setSide (by omega)))

theorem execFddRot_leadsToGood {s : State} (hs : s.Inv) : LeadsToGood (execFddRot s) :=
  .withCurDisk hs fun _ hd => .finish (hs.setFdd (hs.fdd.setOffset hd _))

theorem execFddRd8r_leadsToGood {s : State} (hs : s.Inv) : LeadsToGood (execFddRd8r s) :=
  .withHead hs fun _ hd _ => .finish (hs.setFdd (hs.fdd.setOffset hd _))

/-- The cursor moves on the old Disk's track, and the Disk that takes its place has the same layout. -/
theorem execFddWr8r_leadsToGood {s : State} (hs : s.Inv) (value : Nat) : LeadsToGood (execFddWr8r value s) := by
  unfold execFddWr8r
  split
  · exact .raise hs
  · refine .withHead hs fun D hd ha => ?_
    obtain ⟨ht, ho⟩ := State.headInArena_iff.1 ha
    have hrot := hs.fdd.setOffset hd (s.fdd.head.offset + 1)
    dsimp only
    split
    · exact .finish (hs.setFdd (hrot.setDisk hd (hs.drive_wf D hd) rfl rfl))
    · exact .finish (hs.setFdd (hrot.setDisk hd ((hs.drive_wf D hd).write ht ho _) rfl rfl))

theorem execFddIns_leadsToGood {s : State} (hs : s.Inv) (delay : Nat) : LeadsToGood (execFddIns delay s) := by
  unfold execFddIns
  split
  · exact .raise hs
  · next D hstage =>
    refine .ite (fun hd => ?_) fun _ => .raise hs
    have hpending := hs.setFdd (hs.fdd.requestInsert (hs.stage_wf D hstage) hd (s.now + delay))
    exact .finish (hpending.setStage fun _ h => by cases h)

theorem execFddEj_leadsToGood {s : State} (hs : s.Inv) (delay : Nat) : LeadsToGood (execFddEj delay s) :=
  .finish (hs.setFdd (hs.fdd.requestEject _))

theorem execFddSync_leadsToGood {s : State} (hs : s.Inv) : LeadsToGood (execFddSync s) := by
  refine .withHead hs fun D hd _ => ?_
  split
  · exact .finish (hs.setFdd (hs.fdd.setOffset hd _))
  · exact .finish hs

/-! ### The hard disk -/

theorem execHddInit_leadsToGood {s : State} (hs : s.Inv) (c h n b : Nat) (image : List Byte) :
    LeadsToGood (execHddInit c h n b image s) := by
  refine .ite (fun _ => .raise hs) fun hpos => .ite (fun _ => .raise hs) fun hb =>
    .ite (fun _ => .ite (fun _ => .raise hs) fun hi => ?_) fun _ => .raise hs
  obtain ⟨hc, hh, hn, -⟩ : 0 < c ∧ 0 < h ∧ 0 < n ∧ 0 < b := by omega
  exact .finish (hs.connect (HardDisk.wf_init (g := ⟨c, h, n, b⟩) hc hh hn (Decidable.not_not.1 hb) (by omega)))

theorem execHddDisc_leadsToGood {s : State} (hs : s.Inv) : LeadsToGood (execHddDisc s) :=
  .withHd hs fun _ _ => .finish (hs.setHd fun _ h => by cases h)

theorem execHddRead_leadsToGood {s : State} (hs : s.Inv) (offset length addr : Nat) :
    LeadsToGood (execHddRead offset length addr s) := by
  refine .withHd hs fun h w => ?_
  split
  · exact .raise hs
  · split
    · exact .fault _
    · exact .finish ((hs.setHostMem (Memory.wf_writeRange _ hs.host_canonical _)).connect (w.accept (by decide) _ _))

theorem execHddWrite_leadsToGood {s : State} (hs : s.Inv) (offset length addr : Nat) :
    LeadsToGood (execHddWrite offset length addr s) := by
  refine .withHd hs fun h w => ?_
  split
  · exact .raise hs
  · refine .ite (fun _ => ?_) fun _ => .finish (hs.connect (w.accept (by decide) _ _))
    split
    · exact .fault _
    · next hw => exact .finish (hs.connect ((w.ofRealWrite hw).accept (by decide) _ _))

theorem execHddRdblk_leadsToGood {s : State} (hs : s.Inv) (block : Nat) : LeadsToGood (execHddRdblk block s) := by
  refine .withHd hs fun h w => .ite (fun _ => .raise hs) fun _ => ?_
  split
  · exact .fault _
  · exact .finish hs

theorem execHddWrblk_leadsToGood {s : State} (hs : s.Inv) (block : Nat) (data : List Byte) :
    LeadsToGood (execHddWrblk block data s) := by
  refine .ite (fun _ => .raise hs) fun _ => .withHd hs fun h w => .ite (fun _ => .raise hs) fun _ =>
    .ite (fun _ => .raise hs) fun _ => .ite (fun _ => .finish hs) fun _ => ?_
  split
  · exact .fault _
  · next hw => exact .finish (hs.connect (w.ofRealWrite hw))

theorem execHddChgeo_leadsToGood {s : State} (hs : s.Inv) (c h n b : Nat) :
    LeadsToGood (execHddChgeo c h n b s) := by
  refine .withHd hs fun d w => .ite (fun _ => .raise hs) fun hpos => .ite (fun _ => .raise hs) fun hb =>
    .ite (fun _ => .raise hs) fun hsize => .ite (fun _ => ?_) fun _ => .raise hs
  obtain ⟨hc, hh, hn, -⟩ : 0 < c ∧ 0 < h ∧ 0 < n ∧ 0 < b := by omega
  exact .finish (hs.connect (w.setGeometry (g := ⟨c, h, n, b⟩) hc hh hn (Decidable.not_not.1 hb)
    (Decidable.not_not.1 hsize) _))

theorem execHddFmt_leadsToGood {s : State} (hs : s.Inv) (fsType : Nat) (name : List Byte) :
    LeadsToGood (execHddFmt fsType name s) := by
  refine .withHd hs fun h w => .ite (fun _ => .finish hs) fun _ => ?_
  split
  · exact .raise hs
  · exact .ite (fun _ => .raise hs) fun hl => .finish (hs.connect (w.setImage (by omega)))

theorem execHddSetflags_leadsToGood {s : State} (hs : s.Inv) (modified wp : Nat) :
    LeadsToGood (execHddSetflags modified wp s) := by
  unfold execHddSetflags
  split
  · exact .withHd hs fun _ w => .finish (hs.connect (w.setFlags _ _))
  · exact .raise hs

theorem execHddDirty_leadsToGood {s : State} (hs : s.Inv) (block : Nat) : LeadsToGood (execHddDirty block s) := by
  refine .withHd hs fun h w => .ite (fun _ => .raise hs) fun _ => ?_
  split
  · exact .fault _
  · exact .finish hs

theorem execHddClrdirty_leadsToGood {s : State} (hs : s.Inv) (block : Nat) :
    LeadsToGood (execHddClrdirty block s) := by
  refine .withHd hs fun h w => .ite (fun _ => .finish (hs.connect (w.setDirty (List.length_map _)))) fun _ =>
    .ite (fun _ => .raise hs) fun _ => ?_
  split
  · exact .fault _
  · next hd => exact .finish (hs.connect (w.setDirty (setBits?_spec hd).2.1))

theorem execHddSetpt_leadsToGood {s : State} (hs : s.Inv) (plist : List Byte) :
    LeadsToGood (execHddSetpt plist s) := by
  refine .withHd hs fun h w => ?_
  split
  · exact .raise hs
  · exact .ite (fun hp => .finish (hs.connect (w.setPtable hp))) fun _ => .raise hs

/-! ### Geometry -/

theorem execGeoNtrk_leadsToGood {s : State} (hs : s.Inv) (gsel : Nat) : LeadsToGood (execGeoNtrk gsel s) :=
  .withGeo hs fun _ => .finish hs

theorem execGeoNsec_leadsToGood {s : State} (hs : s.Inv) (gsel track : Nat) :
    LeadsToGood (execGeoNsec gsel track s) :=
  .withGeo hs fun _ => .ite (fun _ => .finish hs) fun _ => .raise hs

theorem execGeoTs2b_leadsToGood {s : State} (hs : s.Inv) (gsel track sector : Nat) :
    LeadsToGood (execGeoTs2b gsel track sector s) := .withGeo hs fun _ => .finish hs

theorem execGeoChs2b_leadsToGood {s : State} (hs : s.Inv) (gsel cyl head sector : Nat) :
    LeadsToGood (execGeoChs2b gsel cyl head sector s) := .withGeo hs fun _ => .finish hs

theorem execGeoNblk_leadsToGood {s : State} (hs : s.Inv) (gsel : Nat) : LeadsToGood (execGeoNblk gsel s) :=
  .withGeo hs fun _ => .finish hs

theorem execGeoB2ts_leadsToGood {s : State} (hs : s.Inv) (gsel block : Nat) :
    LeadsToGood (execGeoB2ts gsel block s) := by
  refine .withGeo hs fun G => ?_
  split
  · exact .finish hs
  · exact .raise hs

theorem execGeoB2chs_leadsToGood {s : State} (hs : s.Inv) (gsel block : Nat) :
    LeadsToGood (execGeoB2chs gsel block s) := by
  refine .withGeo hs fun G => ?_
  split
  · exact .finish hs
  · exact .raise hs

theorem execGeoZone_leadsToGood {s : State} (hs : s.Inv) (track : Nat) : LeadsToGood (execGeoZone track s) := by
  unfold execGeoZone
  split
  · exact .finish hs
  · exact .raise hs

theorem execGeoCheck_leadsToGood {s : State} (hs : s.Inv) (gsel : Nat) : LeadsToGood (execGeoCheck gsel s) := by
  refine .withGeo hs fun G => ?_
  split
  · exact .finish hs
  · exact .raise hs

/-! ### The scheduler -/

/-- A tick moves the time on; then the two events fire where they are due. -/
theorem execTick_leadsToGood {s : State} (hs : s.Inv) : LeadsToGood (execTick s) := by
  have hnow : (s.setNow (s.now + 1)).Inv := hs.setNow (Nat.le_succ _)
  have hfdd := hnow.setFdd (hnow.fdd.fireChange (s.now + 1))
  refine .finish (hfdd.setHd fun k hk => ?_)
  obtain ⟨h, hh, rfl⟩ := Option.map_eq_some_iff.1 hk
  exact (hs.hard_disk h hh).fireIdle _

/-! ### Every command and every step -/

/-- A command that answers a next state from a good state leads to a good state. -/
theorem exec_leadsToGood {s : State} (hs : s.Inv) : ∀ i, LeadsToGood (exec i s)
  | .mfmEnc _ | .mfmEncoe _ => .finish hs
  | .mfmDec _ | .mfmDecoe _ | .mfmClk _ _ => .ite (fun _ => .raise hs) fun _ => .finish hs
  | .trkInit d n wp => execTrkInit_leadsToGood hs d n wp
  | .trkClear sel => execTrkClear_leadsToGood hs sel
  | .trkRdbit _ _ _ | .trkRd8 _ _ _ | .trkSect _ _ _ =>
    .withTrack hs fun _ _ _ _ => .ite (fun _ => .raise hs) fun _ => .finish hs
  | .trkWrbit sel track o v => execTrkWrbit_leadsToGood hs sel track o v
  | .trkWr8 sel track i v => execTrkWr8_leadsToGood hs sel track i v
  | .trkView _ _ | .trkCsumt _ _ => .withTrack hs fun _ _ _ _ => .finish hs
  | .trkCsum _ | .trkStat _ => .withDisk hs fun _ _ _ => .finish hs
  | .trkSetflags sel m wp => execTrkSetflags_leadsToGood hs sel m wp
  | .fddMotor on => execFddMotor_leadsToGood hs on
  | .fddSpeed => execFddSpeed_leadsToGood hs
  | .fddStep dir => execFddStep_leadsToGood hs dir
  | .fddRdyup | .fddRdydn | .fddPolls | .fddStat | .fddPos => .finish hs
  | .fddSide head => execFddSide_leadsToGood hs head
  | .fddRot => execFddRot_leadsToGood hs
  | .fddRd8r => execFddRd8r_leadsToGood hs
  | .fddWr8r v => execFddWr8r_leadsToGood hs v
  | .fddIns delay => execFddIns_leadsToGood hs delay
  | .fddEj delay => execFddEj_leadsToGood hs delay
  | .fddSync => execFddSync_leadsToGood hs
  | .hddInit c h n b image => execHddInit_leadsToGood hs c h n b image
  | .hddDisc => execHddDisc_leadsToGood hs
  | .hddRead o n a => execHddRead_leadsToGood hs o n a
  | .hddWrite o n a => execHddWrite_leadsToGood hs o n a
  | .hddRdblk block => execHddRdblk_leadsToGood hs block
  | .hddWrblk block data => execHddWrblk_leadsToGood hs block data
  | .hddChgeo c h n b => execHddChgeo_leadsToGood hs c h n b
  | .hddFmt fsType name => execHddFmt_leadsToGood hs fsType name
  | .hddStat => .finish hs
  | .hddStat2 | .hddGeo => .withHd hs fun _ _ => .finish hs
  | .hddSetflags m wp => execHddSetflags_leadsToGood hs m wp
  | .hddDirty block => execHddDirty_leadsToGood hs block
  | .hddClrdirty block => execHddClrdirty_leadsToGood hs block
  | .hddSetpt plist => execHddSetpt_leadsToGood hs plist
  | .geoNtrk gsel => execGeoNtrk_leadsToGood hs gsel
  | .geoNsec gsel track => execGeoNsec_leadsToGood hs gsel track
  | .geoB2ts gsel block => execGeoB2ts_leadsToGood hs gsel block
  | .geoTs2b gsel track sector => execGeoTs2b_leadsToGood hs gsel track sector
  | .geoB2chs gsel block => execGeoB2chs_leadsToGood hs gsel block
  | .geoChs2b gsel cyl head sector => execGeoChs2b_leadsToGood hs gsel cyl head sector
  | .geoZone track => execGeoZone_leadsToGood hs track
  | .geoNext _ _ _ =>
    .ite (fun _ => .raise hs) fun _ => .withGeo hs fun _ => .ite (fun _ => .finish hs) fun _ => .raise hs
  | .geoCheck gsel => execGeoCheck_leadsToGood hs gsel
  | .geoNblk gsel => execGeoNblk_leadsToGood hs gsel
  | .tick => execTick_leadsToGood hs

/-- A packet that is no command changes nothing but the result, or is refused (30_encoding.md R103, R104). -/
theorem answerUndecoded_leadsToGood {s : State} (hs : s.Inv) (e : DecodeError) :
    LeadsToGood (answerUndecoded e s) := by
  cases e with
  | unknownCmd => exact .raise hs
  | payloadNotEmpty => exact .raise hs
  | shortHeader => exact .refused _
  | shortPayload => exact .refused _
  | trailingBytes => exact .refused _

/-- The host writes its own memory and nothing else (10_state.md R63 (e)). -/
theorem State.Inv.hostWrite {s : State} (hs : s.Inv) (addr : Nat) (v : Byte) : (hostWrite addr v s).Inv :=
  hs.setHostMem (Memory.wf_write hs.host_canonical addr v)

/-- Settles O7: by the host's next event, and for a packet by the command it decodes to. -/
theorem everyStepKeepsGoodState : Obligations.EveryStepKeepsGoodState := by
  intro s t hs
  suffices LeadsToGood (step s) from this t
  unfold step
  refine .ite (fun _ => ?_) fun _ => .refused _
  split
  · exact exec_leadsToGood hs .tick
  · exact .next ((hs.setInbox _).hostWrite _ _)
  · split
    · exact exec_leadsToGood (hs.setInbox _) _
    · exact answerUndecoded_leadsToGood (hs.setInbox _) _

end Sys2Proof.Machine
end

section
/-! SUPPORT. The pure reads, the codec and the geometry commands only answer: an outcome that leaves everything but the
result as it was, through every shared operation of a command; then every command of the list, unit by unit. A command
that can fault needs no good state here: a fault is no next state. -/

namespace Sys2Proof.Machine

/-- The outcome, where it is a next state, differs from `s` in the returned result alone. -/
def SetsOnlyRet (s : State) (o : Outcome) : Prop := ∀ t, o = .next t → ∃ r, t = s.setRet r

/-! ### The shared operations -/

theorem SetsOnlyRet.finish {s : State} {v : Value} : SetsOnlyRet s (s.finish v) := fun _ h => ⟨_, finish_inv h⟩

theorem SetsOnlyRet.raise {s : State} {e : ErrCode} : SetsOnlyRet s (s.raise e) := fun _ h => ⟨_, raise_inv h⟩

theorem SetsOnlyRet.fault {s : State} {f : Fault} : SetsOnlyRet s (.fault f) := fun _ h => by cases h

theorem SetsOnlyRet.ite {s : State} {p : Prop} [Decidable p] {o q : Outcome} (ho : SetsOnlyRet s o)
    (hq : SetsOnlyRet s q) : SetsOnlyRet s (if p then o else q) := by
  split
  · exact ho
  · exact hq

theorem SetsOnlyRet.withDisk {s : State} {sel : Nat} {k : Sel → Disk → Outcome}
    (h : ∀ slot D, SetsOnlyRet s (k slot D)) : SetsOnlyRet s (withDisk s sel k) := by
  intro t ht
  rcases withDisk_inv ht with ht | ht | ⟨slot, D, -, -, hk⟩
  · exact ⟨_, ht⟩
  · exact ⟨_, ht⟩
  · exact h slot D t hk

theorem SetsOnlyRet.withTrack {s : State} {sel track : Nat} {k : Sel → Disk → Outcome}
    (h : ∀ slot D, SetsOnlyRet s (k slot D)) : SetsOnlyRet s (withTrack s sel track k) :=
  .withDisk fun slot D => .ite .raise (h slot D)

theorem SetsOnlyRet.withHd {s : State} {k : HardDisk → Outcome} (h : ∀ d, SetsOnlyRet s (k d)) :
    SetsOnlyRet s (withHd s k) := by
  intro t ht
  rcases withHd_inv ht with ht | ⟨d, -, hk⟩
  · exact ⟨_, ht⟩
  · exact h d t hk

theorem SetsOnlyRet.withGeo {s : State} {gsel : Nat} {k : GeoDesc → Outcome} (h : ∀ G, SetsOnlyRet s (k G)) :
    SetsOnlyRet s (withGeo s gsel k) :=
  .ite (.withHd fun _ => h _) (.ite (h _) (.ite (h _) (.ite (h _) .raise)))

/-! ### The drive and the hard disk -/

theorem execFddSpeed_setsOnlyRet (s : State) : SetsOnlyRet s (execFddSpeed s) := by
  unfold execFddSpeed
  split
  · exact .finish
  · exact .fault
  · exact .finish
  · exact .finish

theorem execHddRdblk_setsOnlyRet (block : Nat) (s : State) : SetsOnlyRet s (execHddRdblk block s) := by
  refine .withHd fun h => .ite .raise ?_
  split
  · exact .fault
  · exact .finish

theorem execHddDirty_setsOnlyRet (block : Nat) (s : State) : SetsOnlyRet s (execHddDirty block s) := by
  refine .withHd fun h => .ite .raise ?_
  split
  · exact .fault
  · exact .finish

/-! ### Geometry -/

theorem execGeoNtrk_setsOnlyRet (gsel : Nat) (s : State) : SetsOnlyRet s (execGeoNtrk gsel s) :=
  .withGeo fun _ => .finish

theorem execGeoNsec_setsOnlyRet (gsel track : Nat) (s : State) : SetsOnlyRet s (execGeoNsec gsel track s) :=
  .withGeo fun _ => .ite .finish .raise

theorem execGeoTs2b_setsOnlyRet (gsel track sector : Nat) (s : State) :
    SetsOnlyRet s (execGeoTs2b gsel track sector s) := .withGeo fun _ => .finish

theorem execGeoChs2b_setsOnlyRet (gsel cyl head sector : Nat) (s : State) :
    SetsOnlyRet s (execGeoChs2b gsel cyl head sector s) := .withGeo fun _ => .finish

theorem execGeoNblk_setsOnlyRet (gsel : Nat) (s : State) : SetsOnlyRet s (execGeoNblk gsel s) :=
  .withGeo fun _ => .finish

theorem execGeoB2ts_setsOnlyRet (gsel block : Nat) (s : State) : SetsOnlyRet s (execGeoB2ts gsel block s) := by
  refine .withGeo fun G => ?_
  split
  · exact .finish
  · exact .raise

theorem execGeoB2chs_setsOnlyRet (gsel block : Nat) (s : State) : SetsOnlyRet s (execGeoB2chs gsel block s) := by
  refine .withGeo fun G => ?_
  split
  · exact .finish
  · exact .raise

theorem execGeoZone_setsOnlyRet (track : Nat) (s : State) : SetsOnlyRet s (execGeoZone track s) := by
  unfold execGeoZone
  split
  · exact .finish
  · exact .raise

theorem execGeoCheck_setsOnlyRet (gsel : Nat) (s : State) : SetsOnlyRet s (execGeoCheck gsel s) := by
  refine .withGeo fun G => ?_
  split
  · exact .finish
  · exact .raise

/-! ### Every command of the list -/

/-- Settles O13: each command of the list ends in `finish`, `raise` or a fault on the state it was given. -/
theorem pureCommandsOnlyAnswer : Obligations.PureCommandsOnlyAnswer := by
  intro i s t hi
  suffices SetsOnlyRet s (exec i s) from this t
  cases i with
  | mfmEnc | mfmEncoe => exact .finish
  | mfmDec | mfmDecoe | mfmClk => exact .ite .raise .finish
  | trkRdbit | trkRd8 | trkSect => exact .withTrack fun _ _ => .ite .raise .finish
  | trkView | trkCsumt => exact .withTrack fun _ _ => .finish
  | trkCsum | trkStat => exact .withDisk fun _ _ => .finish
  | fddSpeed => exact execFddSpeed_setsOnlyRet s
  | fddRdyup | fddRdydn | fddPolls | fddStat | fddPos => exact .finish
  | hddRdblk block => exact execHddRdblk_setsOnlyRet block s
  | hddDirty block => exact execHddDirty_setsOnlyRet block s
  | hddStat => exact .finish
  | hddStat2 | hddGeo => exact .withHd fun _ => .finish
  | geoNtrk gsel => exact execGeoNtrk_setsOnlyRet gsel s
  | geoNsec gsel track => exact execGeoNsec_setsOnlyRet gsel track s
  | geoTs2b gsel track sector => exact execGeoTs2b_setsOnlyRet gsel track sector s
  | geoChs2b gsel cyl head sector => exact execGeoChs2b_setsOnlyRet gsel cyl head sector s
  | geoNblk gsel => exact execGeoNblk_setsOnlyRet gsel s
  | geoB2ts gsel block => exact execGeoB2ts_setsOnlyRet gsel block s
  | geoB2chs gsel block => exact execGeoB2chs_setsOnlyRet gsel block s
  | geoZone track => exact execGeoZone_setsOnlyRet track s
  | geoNext => exact .ite .raise (.withGeo fun _ => .ite .finish .raise)
  | geoCheck gsel => exact execGeoCheck_setsOnlyRet gsel s
  | trkInit | trkClear | trkWrbit | trkWr8 | trkSetflags | fddMotor | fddStep | fddSide | fddRot | fddRd8r | fddWr8r
  | fddIns | fddEj | fddSync | hddInit | hddDisc | hddRead | hddWrite | hddWrblk | hddChgeo | hddFmt | hddSetflags
  | hddClrdirty | hddSetpt | tick =>
    -- the commands that are not of the list
    cases hi

end Sys2Proof.Machine
end

section
/-! SUPPORT. The opcode map on a command's own packet, on a reserved opcode and on a forbidden payload (30_encoding.md
R101 to R105), and what the step makes of each. -/

namespace Sys2Proof

/-! ### Reading an encoding back -/

@[simp] theorem fitsField_zero : fitsField 0 = true := by decide

@[simp] theorem fitsPlen_nil : fitsPlen [] = true := by decide

theorem fitsField_iff {n : Nat} : fitsField n = true ↔ n < 2 ^ 32 := decide_eq_true_iff

theorem fitsPlen_iff {p : List Byte} : fitsPlen p = true ↔ p.length < 2 ^ 32 := decide_eq_true_iff

/-- The command is written as the packet with these fields, each fits its width, and the opcode map gives the command
back from them. -/
structure WrittenAs (i : Instr) (op a b c d : Nat) (payload : List Byte) : Prop where
  encode_eq : encode i = packet op a b c d payload
  instrOf_eq : instrOf op a b c d payload = .ok i
  op_lt : op < 256
  fits : (fitsField a && fitsField b && fitsField c && fitsField d && fitsPlen payload) = true

/-- What fits its width loses nothing in the header, so the decoder hands the opcode map the fields as written. -/
theorem WrittenAs.instrOf_mod {i : Instr} {op a b c d : Nat} {payload : List Byte}
    (w : WrittenAs i op a b c d payload) :
    payload.length < 2 ^ 32 ∧
      instrOf (op % 256) (a % 2 ^ 32) (b % 2 ^ 32) (c % 2 ^ 32) (d % 2 ^ 32) payload = .ok i := by
  have hf := w.fits
  simp only [Bool.and_eq_true, fitsField_iff, fitsPlen_iff] at hf
  obtain ⟨⟨⟨⟨ha, hb⟩, hc⟩, hd⟩, hp⟩ := hf
  rw [Nat.mod_eq_of_lt w.op_lt, Nat.mod_eq_of_lt ha, Nat.mod_eq_of_lt hb, Nat.mod_eq_of_lt hc, Nat.mod_eq_of_lt hd]
  exact ⟨hp, w.instrOf_eq⟩

theorem WrittenAs.decodePacket_encode {i : Instr} {op a b c d : Nat} {payload : List Byte}
    (w : WrittenAs i op a b c d payload) : decodePacket (encode i) = .ok i := by
  obtain ⟨hp, hi⟩ := w.instrOf_mod
  rw [w.encode_eq, decodePacket_packet _ _ _ _ _ _ hp, hi]

theorem WrittenAs.decode_encode_append {i : Instr} {op a b c d : Nat} {payload : List Byte}
    (w : WrittenAs i op a b c d payload) (rest : List Byte) : decode (encode i ++ rest) = .ok (i, rest) := by
  obtain ⟨hp, hi⟩ := w.instrOf_mod
  rw [w.encode_eq, decode_packet _ _ _ _ _ _ _ hp, hi]

/-- The encoder and the opcode map agree on every row of 30_encoding.md R105. The rows are taken by the fields they
use; the fields a row leaves out are written as 0. -/
theorem exists_writtenAs {i : Instr} (h : i.wellFormed = true) :
    ∃ op a b c d payload, WrittenAs i op a b c d payload := by
  cases i with
  | fddSpeed | fddRdyup | fddRdydn | fddPolls | fddRot | fddRd8r | fddSync | fddStat | fddPos | hddDisc | hddStat
  | hddStat2 | hddGeo | tick =>
    -- no field
    exact ⟨_, 0, 0, 0, 0, [], rfl, rfl, by decide, by decide⟩
  | mfmEnc p | mfmDec p | mfmEncoe p | mfmDecoe p | hddSetpt p =>
    -- the payload alone
    exact ⟨_, 0, 0, 0, 0, p, rfl, rfl, by decide, by simpa [Instr.wellFormed] using h⟩
  | mfmClk a p | hddWrblk a p | hddFmt a p =>
    -- one operand and the payload
    exact ⟨_, a, 0, 0, 0, p, rfl, rfl, by decide, by simpa [Instr.wellFormed] using h⟩
  | trkClear a | trkCsum a | trkStat a | fddMotor a | fddStep a | fddSide a | fddWr8r a | fddIns a | fddEj a
  | hddRdblk a | hddDirty a | hddClrdirty a | geoNtrk a | geoCheck a | geoNblk a =>
    -- one operand
    exact ⟨_, a, 0, 0, 0, [], rfl, rfl, by decide, by simpa [Instr.wellFormed] using h⟩
  | geoZone b =>
    -- the one row whose only operand is the second field
    exact ⟨_, 0, b, 0, 0, [], rfl, rfl, by decide, by simpa [Instr.wellFormed] using h⟩
  | trkView a b | trkCsumt a b | hddSetflags a b | geoNsec a b | geoB2ts a b | geoB2chs a b =>
    -- two operands
    exact ⟨_, a, b, 0, 0, [], rfl, rfl, by decide, by simpa [Instr.wellFormed] using h⟩
  | trkInit a b c | trkRdbit a b c | trkRd8 a b c | trkSect a b c | trkSetflags a b c | hddRead a b c
  | hddWrite a b c | geoTs2b a b c | geoNext a b c =>
    -- three operands
    exact ⟨_, a, b, c, 0, [], rfl, rfl, by decide, by simpa [Instr.wellFormed] using h⟩
  | trkWrbit a b c d | trkWr8 a b c d | hddChgeo a b c d | geoChs2b a b c d =>
    -- four operands
    exact ⟨_, a, b, c, d, [], rfl, rfl, by decide, by simpa [Instr.wellFormed] using h⟩
  | hddInit a b c d p =>
    -- every field
    exact ⟨_, a, b, c, d, p, rfl, rfl, by decide, h⟩

theorem decodePacket_encode {i : Instr} (h : i.wellFormed = true) : decodePacket (encode i) = .ok i := by
  obtain ⟨_, _, _, _, _, _, w⟩ := exists_writtenAs h
  exact w.decodePacket_encode

theorem decode_encode_append {i : Instr} (h : i.wellFormed = true) (rest : List Byte) :
    decode (encode i ++ rest) = .ok (i, rest) := by
  obtain ⟨_, _, _, _, _, _, w⟩ := exists_writtenAs h
  exact w.decode_encode_append rest

/-- Bytes that are the encoding of a command decode to it. -/
theorem decodePacket_of_encode_eq {i : Instr} {bytes : List Byte} (h : i.wellFormed = true) (e : encode i = bytes) :
    decodePacket bytes = .ok i := e ▸ decodePacket_encode h

/-- Settles O4: every row of the opcode map reads its own packet back (`exists_writtenAs`). -/
theorem decodeReadsBackEveryEncoding : Obligations.DecodeReadsBackEveryEncoding := fun _ h =>
  ⟨decodePacket_encode h, decode_encode_append h⟩

/-- Settles O5: each of the four packets is what the encoder writes for the command, and the decoder reads it back. -/
theorem specPacketsDecodeAsWritten : Obligations.SpecPacketsDecodeAsWritten :=
  ⟨decodePacket_of_encode_eq rfl rfl, decodePacket_of_encode_eq rfl rfl, decodePacket_of_encode_eq rfl rfl,
    decodePacket_of_encode_eq rfl rfl⟩

end Sys2Proof

namespace Sys2Proof.Machine

/-! ### Opcodes without a command, and forbidden payloads -/

/-- A reserved opcode (30_encoding.md R104), whatever stands in the other fields. -/
theorem instrOf_reserved {op : Nat} (h : op ∉ assignedOps) (a b c d : Nat) (payload : List Byte) :
    instrOf op a b c d payload = .error .unknownCmd := by
  unfold instrOf
  split
  -- the last arm is that of every other opcode
  rotate_right
  · rfl
  all_goals exact absurd (by decide) h

/-- The rows that demand a payload of 0 bytes (30_encoding.md R105) check it before all else. -/
theorem instrOf_payloadless {op : Nat} (h : op ∈ payloadlessOps) (a b c d : Nat) (payload : List Byte) :
    ∃ i, instrOf op a b c d payload = withoutPayload payload i := by
  fin_cases h
  all_goals exact ⟨_, rfl⟩

theorem withoutPayload_ne_nil {payload : List Byte} (h : payload ≠ []) (i : Instr) :
    withoutPayload payload i = .error .payloadNotEmpty := by
  cases payload with
  | nil => exact absurd rfl h
  | cons => rfl

theorem lt_256_of_mem_payloadlessOps : ∀ op ∈ payloadlessOps, op < 256 := by decide

/-! ### The step at a packet -/

theorem step_packet_ok {s : State} {bytes : List Byte} {rest : List HostEvent} {i : Instr} (hc : s.cfg.wf = true)
    (hin : s.inbox = .packet bytes :: rest) (hd : decodePacket bytes = .ok i) : step s = exec i (s.setInbox rest) := by
  simp only [step, hc, hin, hd, if_true]

theorem step_packet_error {s : State} {bytes : List Byte} {rest : List HostEvent} {e : DecodeError}
    (hc : s.cfg.wf = true) (hin : s.inbox = .packet bytes :: rest) (hd : decodePacket bytes = .error e) :
    step s = answerUndecoded e (s.setInbox rest) := by
  simp only [step, hc, hin, hd, if_true]

/-- Settles O1. -/
theorem stepRunsDecodedInstruction : Obligations.StepRunsDecodedInstruction := fun _ _ _ _ => step_packet_ok

/-- Settles O3: the opcode map refuses both packets whatever the operands, and the step turns the decoder's error into
the answer. -/
theorem undecodablePacketsAnswerErrors : Obligations.UndecodablePacketsAnswerErrors := by
  intro s rest op a b c d payload hc hp hin
  refine ⟨fun hlt hop => step_packet_error hc hin (e := .unknownCmd) ?_,
    fun hop hne => step_packet_error hc hin (e := .payloadNotEmpty) ?_⟩
  · rw [decodePacket_packet _ _ _ _ _ _ hp, Nat.mod_eq_of_lt hlt, instrOf_reserved hop]
  · rw [decodePacket_packet _ _ _ _ _ _ hp, Nat.mod_eq_of_lt (lt_256_of_mem_payloadlessOps op hop)]
    obtain ⟨i, hi⟩ := instrOf_payloadless hop (a % 2 ^ 32) (b % 2 ^ 32) (c % 2 ^ 32) (d % 2 ^ 32) payload
    rw [hi, withoutPayload_ne_nil hne]

end Sys2Proof.Machine
end

section
/-! SUPPORT. The codec commands (40_mfm_codec.md R120 to R128): what each answers; its bytes by data position and by
clock position; the laws of decoding and of clock synthesis, which turn on one fact, that both read the data positions
alone; and the stream of clock synthesis as the bit-serial form of R127. -/

namespace Sys2Proof.Machine

/-! ### What each command answers -/

theorem exec_mfmEnc (src : List Byte) (s : State) :
    exec (.mfmEnc src) s = .next (s.setRet (.ok (.bytes (mfmEncode src)))) := finish_eq ..

theorem exec_mfmEncoe (src : List Byte) (s : State) :
    exec (.mfmEncoe src) s = .next (s.setRet (.ok (.bytes (oddEvenEncode src)))) := finish_eq ..

theorem exec_mfmDec_odd {src : List Byte} (h : src.length % 2 = 1) (s : State) :
    exec (.mfmDec src) s = .next (s.setRet (.err .badOperand)) :=
  (if_pos (by omega)).trans (raise_eq ..)

theorem exec_mfmDec_even {src : List Byte} (h : src.length % 2 = 0) (s : State) :
    exec (.mfmDec src) s = .next (s.setRet (.ok (.bytes (mfmDecode src)))) :=
  (if_neg (by omega)).trans (finish_eq ..)

theorem exec_mfmDecoe_odd {src : List Byte} (h : src.length % 2 = 1) (s : State) :
    exec (.mfmDecoe src) s = .next (s.setRet (.err .badOperand)) :=
  (if_pos (by omega)).trans (raise_eq ..)

theorem exec_mfmDecoe_even {src : List Byte} (h : src.length % 2 = 0) (s : State) :
    exec (.mfmDecoe src) s = .next (s.setRet (.ok (.bytes (oddEvenDecode src)))) :=
  (if_neg (by omega)).trans (finish_eq ..)

theorem exec_mfmClk_wide {prev : Nat} (h : 255 < prev) (buf : List Byte) (s : State) :
    exec (.mfmClk prev buf) s = .next (s.setRet (.err .badOperand)) :=
  (if_pos h).trans (raise_eq ..)

theorem exec_mfmClk_byte {prev : Nat} (h : prev ≤ 255) (buf : List Byte) (s : State) :
    exec (.mfmClk prev buf) s = .next (s.setRet (.ok (.bytes (addClocks (BitVec.ofNat 8 prev) buf)))) :=
  (if_neg (by omega)).trans (finish_eq ..)

/-! ### Data positions and clock positions of a byte -/

theorem dataMask_bits : ∀ k < 4, (0x55 : Byte).getLsbD (2 * k) = true ∧ (0x55 : Byte).getLsbD (2 * k + 1) = false := by
  decide

theorem clockMask_bits : ∀ k < 4, (0xAA : Byte).getLsbD (2 * k + 1) = true := by decide

theorem maskData_dataBit (b : Byte) {k : Nat} (hk : k < 4) : (b &&& 0x55).getLsbD (2 * k) = b.getLsbD (2 * k) := by
  rw [BitVec.getLsbD_and, (dataMask_bits k hk).1, Bool.and_true]

theorem maskData_clockBit (b : Byte) {k : Nat} (hk : k < 4) : (b &&& 0x55).getLsbD (2 * k + 1) = false := by
  rw [BitVec.getLsbD_and, (dataMask_bits k hk).2, Bool.and_false]

theorem maskData_maskData (b : Byte) : b &&& 0x55 &&& 0x55 = b &&& 0x55 := by
  rw [BitVec.and_assoc, BitVec.and_self]

/-- A byte with no bit under the clock mask has every clock position 0. -/
theorem clockBit_of_maskClock_eq_zero {b : Byte} (h : b &&& 0xAA = 0) {k : Nat} (hk : k < 4) :
    b.getLsbD (2 * k + 1) = false := by
  have hbit : (b &&& 0xAA).getLsbD (2 * k + 1) = false := by rw [h]; exact BitVec.getLsbD_zero
  rwa [BitVec.getLsbD_and, clockMask_bits k hk, Bool.and_true] at hbit

/-- The four data positions and the four clock positions are the whole byte (R120). -/
theorem byte_ext {u v : Byte} (hd : ∀ k < 4, u.getLsbD (2 * k) = v.getLsbD (2 * k))
    (hc : ∀ k < 4, u.getLsbD (2 * k + 1) = v.getLsbD (2 * k + 1)) : u = v := by
  refine BitVec.eq_of_getLsbD_eq fun i hi => ?_
  obtain ⟨k, rfl | rfl⟩ := Nat.even_or_odd' i
  · exact hd k (by omega)
  · exact hc k (by omega)

/-! ### `MFM_ENC` and `MFM_DEC` -/

theorem spread_hi_dataBit (v : Byte) {k : Nat} (hk : k < 4) :
    ((spread v).extractLsb' 8 8).getLsbD (2 * k) = v.getLsbD (k + 4) := by
  obtain ⟨h0, h1, h2, h3, -⟩ := spread_bits v
  interval_cases k <;> assumption

theorem spread_lo_dataBit (v : Byte) {k : Nat} (hk : k < 4) :
    ((spread v).extractLsb' 0 8).getLsbD (2 * k) = v.getLsbD k := by
  obtain ⟨-, -, -, -, l0, l1, l2, l3, -⟩ := spread_bits v
  interval_cases k <;> assumption

theorem spread_hi_clockBit (v : Byte) {k : Nat} (hk : k < 4) :
    ((spread v).extractLsb' 8 8).getLsbD (2 * k + 1) = false := by
  obtain ⟨-, -, -, -, -, -, -, -, hhi, -⟩ := spread_bits v
  exact clockBit_of_maskClock_eq_zero hhi hk

theorem spread_lo_clockBit (v : Byte) {k : Nat} (hk : k < 4) :
    ((spread v).extractLsb' 0 8).getLsbD (2 * k + 1) = false := by
  obtain ⟨-, -, -, -, -, -, -, -, -, hlo⟩ := spread_bits v
  exact clockBit_of_maskClock_eq_zero hlo hk

/-- The low half of a decoded byte stands in the second byte of its word. -/
theorem gather_append_loBit (hi lo : Byte) {k : Nat} (hk : k < 4) :
    (gather (hi ++ lo)).getLsbD k = lo.getLsbD (2 * k) := by
  rw [gather_bit _ (by omega), BitVec.getLsbD_append, if_pos (by omega)]

/-- The high half of a decoded byte stands in the first byte of its word. -/
theorem gather_append_hiBit (hi lo : Byte) {k : Nat} (hk : k < 4) :
    (gather (hi ++ lo)).getLsbD (k + 4) = hi.getLsbD (2 * k) := by
  rw [gather_bit _ (by omega), BitVec.getLsbD_append, if_neg (by omega), show 2 * (k + 4) - 8 = 2 * k by omega]

/-- Settles O14: the two bytes of a data byte are the halves of its word, and `spread` fixes every bit of them. -/
theorem mfmEncodePlacesDataBits : Obligations.MfmEncodePlacesDataBits := by
  refine fun src s => ⟨mfmEncode src, exec_mfmEnc src s, length_mfmEncode src, fun i v hv => ?_⟩
  obtain ⟨hhi, hlo⟩ := getElem?_mfmEncode src hv
  exact ⟨_, _, hhi, hlo, fun k hk => ⟨spread_hi_dataBit v hk, spread_lo_dataBit v hk, spread_hi_clockBit v hk,
    spread_lo_clockBit v hk⟩⟩

/-- Settles O15: a decoded byte is gathered from the data positions of its two bytes. -/
theorem mfmDecodeReadsDataBits : Obligations.MfmDecodeReadsDataBits := by
  refine fun src s => ⟨fun hodd => exec_mfmDec_odd hodd s, fun heven =>
    ⟨mfmDecode src, exec_mfmDec_even heven s, length_mfmDecode src heven, fun i hi lo hhi hlo => ?_⟩⟩
  exact ⟨_, getElem?_mfmDecode src hhi hlo, fun k hk => ⟨gather_append_loBit hi lo hk, gather_append_hiBit hi lo hk⟩⟩

/-! ### `MFM_ENCOE` and `MFM_DECOE` -/

/-- The byte of an odd-plane byte and an even-plane byte (R124). -/
def joinPlanes (odd even : Byte) : Byte := ((odd &&& 0x55) <<< 1) ||| (even &&& 0x55)

theorem joinPlanes_oddBit (odd even : Byte) {k : Nat} (hk : k < 4) :
    (joinPlanes odd even).getLsbD (2 * k + 1) = odd.getLsbD (2 * k) := by
  have hshift : ((odd &&& 0x55) <<< 1).getLsbD (2 * k + 1) = (odd &&& 0x55).getLsbD (2 * k) := by
    rw [BitVec.getLsbD_shiftLeft]
    simp [show 2 * k + 1 < 8 by omega]
  rw [joinPlanes, BitVec.getLsbD_or, hshift, maskData_dataBit _ hk, maskData_clockBit _ hk, Bool.or_false]

theorem joinPlanes_evenBit (odd even : Byte) {k : Nat} (hk : k < 4) :
    (joinPlanes odd even).getLsbD (2 * k) = even.getLsbD (2 * k) := by
  have hshift : ((odd &&& 0x55) <<< 1).getLsbD (2 * k) = false := by
    cases k with
    | zero => simp
    | succ j =>
      have hclock := maskData_clockBit odd (k := j) (by omega)
      rw [BitVec.getLsbD_shiftLeft, show 2 * (j + 1) - 1 = 2 * j + 1 by omega, hclock, Bool.and_false]
  rw [joinPlanes, BitVec.getLsbD_or, hshift, maskData_dataBit _ hk, Bool.false_or]

theorem oddPlane_dataBit (v : Byte) {k : Nat} (hk : k < 4) :
    ((v >>> 1) &&& 0x55).getLsbD (2 * k) = v.getLsbD (2 * k + 1) := by
  rw [maskData_dataBit _ hk, BitVec.getLsbD_ushiftRight, Nat.add_comm]

/-- Joining the two plane bytes of `v` gives `v`. -/
theorem joinPlanes_planes (v : Byte) : joinPlanes ((v >>> 1) &&& 0x55) (v &&& 0x55) = v := by
  refine byte_ext (fun k hk => ?_) fun k hk => ?_
  · rw [joinPlanes_evenBit _ _ hk, maskData_dataBit v hk]
  · rw [joinPlanes_oddBit _ _ hk, oddPlane_dataBit v hk]

theorem oddEvenDecode_eq (src : List Byte) :
    oddEvenDecode src = List.zipWith joinPlanes (src.take (src.length / 2)) (src.drop (src.length / 2)) := rfl

theorem oddEvenDecode_append {odds evens : List Byte} (h : odds.length = evens.length) :
    oddEvenDecode (odds ++ evens) = List.zipWith joinPlanes odds evens := by
  have hhalf : (odds ++ evens).length / 2 = odds.length := by rw [List.length_append]; omega
  rw [oddEvenDecode_eq, hhalf, List.take_left, List.drop_left]

theorem length_oddEvenDecode {src : List Byte} {n : Nat} (h : src.length = 2 * n) : (oddEvenDecode src).length = n := by
  rw [oddEvenDecode_eq, List.length_zipWith, List.length_take, List.length_drop]
  omega

/-- The `i`-th data byte joins the `i`-th byte of each plane. -/
theorem getElem?_oddEvenDecode {src : List Byte} {n i : Nat} {odd even : Byte} (hn : src.length = 2 * n) (hi : i < n)
    (hodd : src[i]? = some odd) (heven : src[n + i]? = some even) :
    (oddEvenDecode src)[i]? = some (joinPlanes odd even) := by
  have hhalf : src.length / 2 = n := by omega
  rw [oddEvenDecode_eq, hhalf, List.getElem?_zipWith, List.getElem?_take_of_lt hi, List.getElem?_drop, hodd, heven]

theorem getElem?_oddEvenEncode {src : List Byte} {i : Nat} {v : Byte} (h : src[i]? = some v) :
    (oddEvenEncode src)[i]? = some ((v >>> 1) &&& 0x55) ∧ (oddEvenEncode src)[src.length + i]? = some (v &&& 0x55) := by
  have hi : i < src.length := (List.getElem?_eq_some_iff.mp h).1
  constructor
  · rw [oddEvenEncode, List.getElem?_append_left (by simpa using hi), List.getElem?_map, h, Option.map_some]
  · rw [oddEvenEncode, List.getElem?_append_right (by simp), List.length_map, Nat.add_sub_cancel_left,
      List.getElem?_map, h, Option.map_some]

/-- Settles O16: the planes stand one after the other, and the decoder joins the bytes at the same place in each. -/
theorem oddEvenPlanesSplitAndJoin : Obligations.OddEvenPlanesSplitAndJoin := by
  constructor
  · refine fun src s => ⟨oddEvenEncode src, exec_mfmEncoe src s, length_oddEvenEncode src, fun i v hv => ?_⟩
    obtain ⟨hodd, heven⟩ := getElem?_oddEvenEncode hv
    exact ⟨_, _, hodd, heven, fun k hk => ⟨oddPlane_dataBit v hk, maskData_dataBit v hk, maskData_clockBit _ hk,
      maskData_clockBit v hk⟩⟩
  · refine fun src s => ⟨fun hodd => exec_mfmDecoe_odd hodd s, fun n hn =>
      ⟨oddEvenDecode src, exec_mfmDecoe_even (by omega) s, length_oddEvenDecode hn, fun i odd even hi hodd heven => ?_⟩⟩
    exact ⟨_, getElem?_oddEvenDecode hn hi hodd heven, fun k hk =>
      ⟨joinPlanes_oddBit odd even hk, joinPlanes_evenBit odd even hk⟩⟩

/-! ### `MFM_CLK`, byte by byte -/

theorem addClock_dataBit (v p : Byte) {k : Nat} (hk : k < 4) : (addClock v p).getLsbD (2 * k) = v.getLsbD (2 * k) := by
  obtain ⟨h0, h2, h4, h6, -⟩ := addClock_bits v p
  interval_cases k <;> assumption

theorem addClock_clockBit (v p : Byte) {k : Nat} (hk : k < 3) :
    (addClock v p).getLsbD (2 * k + 1) = (!v.getLsbD (2 * k) && !v.getLsbD (2 * k + 2)) := by
  obtain ⟨-, -, -, -, h1, h3, h5, -⟩ := addClock_bits v p
  interval_cases k <;> assumption

/-- The edge of R126: the neighbour before bit 7 is bit 0 of the byte before. -/
theorem addClock_edgeBit (v p : Byte) : (addClock v p).getLsbD 7 = (!v.getLsbD 6 && !p.getLsbD 0) := by
  obtain ⟨-, -, -, -, -, -, -, h7⟩ := addClock_bits v p
  exact h7

/-- The byte before shows in bit 7 alone. -/
theorem addClock_lowBit_congr (v p q : Byte) {b : Nat} (hb : b < 7) :
    (addClock v p).getLsbD b = (addClock v q).getLsbD b := by
  obtain ⟨k, rfl | rfl⟩ := Nat.even_or_odd' b
  · rw [addClock_dataBit v p (by omega), addClock_dataBit v q (by omega)]
  · rw [addClock_clockBit v p (by omega), addClock_clockBit v q (by omega)]

/-- A clocked byte follows `p` at the front of the buffer, and the clocked byte before it elsewhere. -/
theorem getElem?_addClocks_inv {p : Byte} {l : List Byte} {i : Nat} {v w : Byte} (hv : l[i]? = some v)
    (hw : (addClocks p l)[i]? = some w) :
    (i = 0 ∧ w = addClock v p) ∨ ∃ j u, i = j + 1 ∧ (addClocks p l)[j]? = some u ∧ w = addClock v u := by
  cases i with
  | zero =>
    rw [getElem?_addClocks_zero, hv, Option.map_some, Option.some.injEq] at hw
    exact .inl ⟨rfl, hw.symm⟩
  | succ j =>
    have hj : j < (addClocks p l).length := (Nat.lt_succ_self j).trans (List.getElem?_eq_some_iff.mp hw).1
    have hu := List.getElem?_eq_getElem hj
    rw [getElem?_addClocks_succ p l hu, hv, Option.map_some, Option.some.injEq] at hw
    exact .inr ⟨j, _, rfl, hu, hw.symm⟩

theorem not_getLsbD_zero_ofNat (n : Nat) : (!(BitVec.ofNat 8 n).getLsbD 0) = decide (n % 2 = 0) := by
  rw [BitVec.getLsbD_ofNat, Nat.testBit_zero]
  simp [← decide_not]

/-- Settles O17: each output byte is its input byte clocked after the byte before it, whose bit 0 is the neighbour of
bit 7. -/
theorem clockBitsFollowNeighbours : Obligations.ClockBitsFollowNeighbours := by
  refine fun prev buf s => ⟨fun hwide => exec_mfmClk_wide hwide buf s, fun hbyte =>
    ⟨_, exec_mfmClk_byte hbyte buf s, length_addClocks _ buf, fun i v w hv hw => ?_⟩⟩
  rcases getElem?_addClocks_inv hv hw with ⟨rfl, rfl⟩ | ⟨j, u, rfl, hu, rfl⟩
  · exact ⟨fun k => addClock_dataBit v _, fun k => addClock_clockBit v _,
      fun _ => by rw [addClock_edgeBit, not_getLsbD_zero_ofNat], fun j u hj => by omega⟩
  · refine ⟨fun k => addClock_dataBit v u, fun k => addClock_clockBit v u, fun h0 => by omega, fun j' u' hj hu' => ?_⟩
    obtain rfl : j = j' := by omega
    obtain rfl : u = u' := Option.some.inj (hu.symm.trans hu')
    exact addClock_edgeBit v u

/-! ### The data positions decide -/

/-- The bytes with every clock position cleared. -/
def dataOnly (l : List Byte) : List Byte := l.map (fun b => b &&& 0x55)

@[simp] theorem dataOnly_nil : dataOnly [] = [] := rfl

@[simp] theorem dataOnly_cons (v : Byte) (rest : List Byte) :
    dataOnly (v :: rest) = (v &&& 0x55) :: dataOnly rest := rfl

@[simp] theorem length_dataOnly (l : List Byte) : (dataOnly l).length = l.length := List.length_map ..

/-- Clock synthesis keeps the data positions. -/
theorem dataOnly_addClocks (p : Byte) (l : List Byte) : dataOnly (addClocks p l) = dataOnly l := by
  induction l generalizing p with
  | nil => rfl
  | cons v rest ih => rw [addClocks, dataOnly_cons, dataOnly_cons, addClock_data, ih]

/-- Clock synthesis reads the data positions, and bit 0 of the byte before. -/
theorem addClocks_congr {p q : Byte} {l m : List Byte} (hp : p &&& 0x01 = q &&& 0x01) (h : dataOnly l = dataOnly m) :
    addClocks p l = addClocks q m := by
  induction l generalizing p q m with
  | nil =>
    cases m with
    | nil => rfl
    | cons w m => simp at h
  | cons v l ih =>
    cases m with
    | nil => simp at h
    | cons w m =>
      obtain ⟨hv, hl⟩ := List.cons_eq_cons.mp h
      rw [addClocks, addClocks, addClock_congr hv hp, ih rfl hl]

/-- Decoding reads the data positions. -/
theorem gather_maskData (hi lo : Byte) : gather ((hi &&& 0x55) ++ (lo &&& 0x55)) = gather (hi ++ lo) := by
  refine BitVec.eq_of_getLsbD_eq fun i hi8 => ?_
  rcases Nat.lt_or_ge i 4 with hlow | hhigh
  · rw [gather_append_loBit _ _ hlow, gather_append_loBit _ _ hlow, maskData_dataBit _ hlow]
  · obtain ⟨k, rfl⟩ := Nat.exists_eq_add_of_le' hhigh
    have hk : k < 4 := by omega
    rw [gather_append_hiBit _ _ hk, gather_append_hiBit _ _ hk, maskData_dataBit _ hk]

theorem mfmDecode_dataOnly (l : List Byte) : mfmDecode (dataOnly l) = mfmDecode l := by
  induction l using mfmDecode.induct with
  | case1 hi lo rest ih => rw [dataOnly_cons, dataOnly_cons, mfmDecode, mfmDecode, gather_maskData, ih]
  | case2 l h =>
    match l, h with
    | [], _ => rfl
    | [a], _ => rfl
    | a :: b :: rest, h => exact absurd rfl (h a b rest)

theorem oddEvenDecode_dataOnly (l : List Byte) : oddEvenDecode (dataOnly l) = oddEvenDecode l := by
  have hjoin : ∀ o e, joinPlanes (o &&& 0x55) (e &&& 0x55) = joinPlanes o e := fun o e => by
    rw [joinPlanes, maskData_maskData, maskData_maskData, joinPlanes]
  rw [oddEvenDecode_eq, oddEvenDecode_eq, length_dataOnly, dataOnly, ← List.map_take, ← List.map_drop,
    List.zipWith_map]
  simp only [hjoin]

/-- Decoding is blind to clock bits (R122). -/
theorem mfmDecode_addClocks (p : Byte) (l : List Byte) : mfmDecode (addClocks p l) = mfmDecode l := by
  rw [← mfmDecode_dataOnly, dataOnly_addClocks, mfmDecode_dataOnly]

/-- Decoding the two planes is blind to clock bits (R124). -/
theorem oddEvenDecode_addClocks (p : Byte) (l : List Byte) : oddEvenDecode (addClocks p l) = oddEvenDecode l := by
  rw [← oddEvenDecode_dataOnly, dataOnly_addClocks, oddEvenDecode_dataOnly]

/-! ### The laws of R128 -/

theorem mfmDecode_mfmEncode (l : List Byte) : mfmDecode (mfmEncode l) = l := by
  induction l with
  | nil => rfl
  | cons v rest ih => rw [mfmEncode, mfmDecode, gather_spread, ih]

theorem oddEvenDecode_oddEvenEncode (l : List Byte) : oddEvenDecode (oddEvenEncode l) = l := by
  rw [oddEvenEncode, oddEvenDecode_append (by simp), List.zipWith_map, List.zipWith_self]
  simp only [joinPlanes_planes, List.map_id']

theorem addClocks_addClocks (p : Byte) (l : List Byte) : addClocks p (addClocks p l) = addClocks p l :=
  addClocks_congr rfl (dataOnly_addClocks p l)

theorem addClocks_prevBit (p : Byte) (l : List Byte) : addClocks p l = addClocks (p &&& 1) l :=
  addClocks_congr (by rw [BitVec.and_assoc, BitVec.and_self]) rfl

theorem addClock_bit0_congr (v p q : Byte) : addClock v p &&& 0x01 = addClock v q &&& 0x01 := by
  have hsub : ∀ b : Byte, b &&& 0x01 = b &&& 0x55 &&& 0x01 := fun b => by rw [BitVec.and_assoc]; rfl
  rw [hsub, addClock_data, hsub (addClock v q), addClock_data]

/-- The byte before the buffer shows only in bit 7 of the first clocked byte: bit 0 of that byte, which the next one
reads, is a data bit. -/
theorem getElem?_addClocks_congr {p q : Byte} {l : List Byte} {k : Nat} {u v : Byte}
    (hu : (addClocks p l)[k]? = some u) (hv : (addClocks q l)[k]? = some v) :
    (k ≠ 0 → u = v) ∧ ∀ b, b < 7 → u.getLsbD b = v.getLsbD b := by
  cases l with
  | nil => simp [addClocks] at hu
  | cons w rest =>
    cases k with
    | zero =>
      rw [getElem?_addClocks_zero] at hu hv
      cases hu
      cases hv
      exact ⟨fun h => absurd rfl h, fun b => addClock_lowBit_congr w p q⟩
    | succ k =>
      simp only [addClocks, List.getElem?_cons_succ] at hu hv
      rw [addClocks_congr (addClock_bit0_congr w p q) rfl, hv] at hu
      cases hu
      exact ⟨fun _ => rfl, fun _ _ => rfl⟩

theorem spread_gather_hi (hi lo : Byte) : (spread (gather (hi ++ lo))).extractLsb' 8 8 = hi &&& 0x55 := by
  refine byte_ext (fun k hk => ?_) fun k hk => ?_
  · rw [spread_hi_dataBit _ hk, gather_append_hiBit _ _ hk, maskData_dataBit _ hk]
  · rw [spread_hi_clockBit _ hk, maskData_clockBit _ hk]

theorem spread_gather_lo (hi lo : Byte) : (spread (gather (hi ++ lo))).extractLsb' 0 8 = lo &&& 0x55 := by
  refine byte_ext (fun k hk => ?_) fun k hk => ?_
  · rw [spread_lo_dataBit _ hk, gather_append_loBit _ _ hk, maskData_dataBit _ hk]
  · rw [spread_lo_clockBit _ hk, maskData_clockBit _ hk]

theorem mfmEncode_mfmDecode {l : List Byte} (h : l.length % 2 = 0) : mfmEncode (mfmDecode l) = dataOnly l := by
  induction l using mfmDecode.induct with
  | case1 hi lo rest ih =>
    have hrest : rest.length % 2 = 0 := by simpa [Nat.add_assoc] using h
    rw [mfmDecode, mfmEncode, spread_gather_hi, spread_gather_lo, ih hrest, dataOnly_cons, dataOnly_cons]
  | case2 l hl =>
    match l, hl with
    | [], _ => rfl
    | [a], _ => cases h
    | a :: b :: rest, hl => exact absurd rfl (hl a b rest)

/-- Settles O18: the laws above, and that decoding is blind to the clock bits for the two with `MFM_CLK` between. -/
theorem mfmCodecsRoundTrip : Obligations.MfmCodecsRoundTrip := by
  refine ⟨fun x p s => ⟨exec_mfmEnc x s, exec_mfmEncoe x s, ?_, fun heven =>
    ⟨exec_mfmDec_even heven s, exec_mfmDecoe_even heven s⟩⟩, fun x z p => ⟨mfmDecode_mfmEncode x, ?_,
    oddEvenDecode_oddEvenEncode x, ?_, dataOnly_addClocks p z, addClocks_addClocks p z, addClocks_prevBit p z,
    length_addClocks p z, fun q k u v => getElem?_addClocks_congr, mfmEncode_mfmDecode, length_mfmEncode x,
    length_oddEvenEncode x⟩⟩
  · rw [exec_mfmClk_byte (Nat.le_of_lt_succ p.isLt), BitVec.ofNat_toNat, BitVec.setWidth_eq]
  · rw [mfmDecode_addClocks, mfmDecode_mfmEncode]
  · rw [oddEvenDecode_addClocks, oddEvenDecode_oddEvenEncode]

/-! ### The stream of clock synthesis -/

/-- The data bits of MFM bytes in stream order (R120). -/
def dataStream (l : List Byte) : List Bool :=
  l.flatMap (fun b => [b.getLsbD 6, b.getLsbD 4, b.getLsbD 2, b.getLsbD 0])

/-- The MFM stream of R127, bit-serially: before each data bit its clock bit, 1 where this data bit and the one before
are 0. -/
def clockStream (before : Bool) : List Bool → List Bool
  | [] => []
  | d :: rest => (!before && !d) :: d :: clockStream d rest

theorem dataStream_cons (b : Byte) (rest : List Byte) :
    dataStream (b :: rest) = b.getLsbD 6 :: b.getLsbD 4 :: b.getLsbD 2 :: b.getLsbD 0 :: dataStream rest := rfl

theorem streamBits_cons (b : Byte) (rest : List Byte) :
    streamBits (b :: rest) = b.getLsbD 7 :: b.getLsbD 6 :: b.getLsbD 5 :: b.getLsbD 4 :: b.getLsbD 3 :: b.getLsbD 2 ::
      b.getLsbD 1 :: b.getLsbD 0 :: streamBits rest := rfl

/-- Clock synthesis writes the bit-serial stream of the data bits (R127). -/
theorem streamBits_addClocks (p : Byte) (l : List Byte) :
    streamBits (addClocks p l) = clockStream (p.getLsbD 0) (dataStream l) := by
  induction l generalizing p with
  | nil => rfl
  | cons v rest ih =>
    obtain ⟨h0, h2, h4, h6, h1, h3, h5, h7⟩ := addClock_bits v p
    simp only [addClocks, streamBits_cons, ih, dataStream_cons, clockStream, h0, h1, h2, h3, h4, h5, h6, h7,
      Bool.and_comm]

/-- A clock bit is 0 next to a data bit that is 1. -/
theorem clockStream_not_two_ones (before : Bool) (l : List Bool) (j : Nat) :
    let bits := before :: clockStream before l
    ¬ (bits[j]? = some true ∧ bits[j + 1]? = some true) := by
  induction l generalizing before j with
  | nil => simp [clockStream]
  | cons d rest ih =>
    match j with
    | 0 => cases before <;> simp [clockStream]
    | 1 => cases d <;> simp [clockStream]
    | j + 2 => simpa [clockStream] using ih d j

/-- A clock bit between two data bits that are 0 is 1. -/
theorem clockStream_not_four_zeros (before : Bool) (l : List Bool) (j : Nat) :
    let bits := before :: clockStream before l
    ¬ (bits[j]? = some false ∧ bits[j + 1]? = some false ∧ bits[j + 2]? = some false ∧ bits[j + 3]? = some false) := by
  induction l generalizing before j with
  | nil => simp [clockStream]
  | cons d rest ih =>
    match j with
    | 0 => cases before <;> cases d <;> simp [clockStream]
    | 1 =>
      cases rest with
      | nil => simp [clockStream]
      | cons e rest => cases d <;> cases e <;> simp [clockStream]
    | j + 2 => simpa [clockStream] using ih d j

/-- Settles O19, on the bit-serial form of the stream. -/
theorem clockedStreamSelfSynchronises : Obligations.ClockedStreamSelfSynchronises := by
  intro p z j
  rw [streamBits_addClocks]
  exact ⟨clockStream_not_two_ones _ _ j, clockStream_not_four_zeros _ _ j⟩

end Sys2Proof.Machine
end

section
/-! SUPPORT. Track storage (41_track_storage.md R140 to R158): what its operations on a Disk do; what each command is,
in terms of the selection of a Disk; and its answer where the selection and the operands are valid, and where not. -/

namespace Sys2Proof.Machine

/-! ### Layouts -/

/-- The valid rows of 00_scope.md R7 by their codes: diameter, density, both decoded, and bytes per track. -/
def layoutRows : List (Nat × Nat × Diameter × Density × Nat) :=
  [(0, 0, .inch35, .dd, 12668), (0, 1, .inch35, .hd, 24636), (1, 0, .inch525, .dd, 12668)]

theorem asLayout_of_mem_layoutRows : ∀ r ∈ layoutRows, asLayout r.1 r.2.1 = some r.2.2 := by decide

theorem asDiameter_none {n : Nat} (h : 1 < n) : asDiameter n = none := by
  rw [asDiameter, if_neg (by omega), if_neg (by omega)]

theorem asDensity_none {n : Nat} (h : 1 < n) : asDensity n = none := by
  rw [asDensity, if_neg (by omega), if_neg (by omega)]

/-- Any other pair of codes is no layout: a code that names nothing, or 5.25 inch in high density. -/
theorem asLayout_none {a b : Nat} (h : (a, b) ∉ [(0, 0), (0, 1), (1, 0)]) : asLayout a b = none := by
  have hbad : 1 < a ∨ 1 < b ∨ (a = 1 ∧ b = 1) := by
    simp only [List.mem_cons, Prod.mk.injEq, List.not_mem_nil, or_false, not_or] at h
    omega
  rcases hbad with ha | hb | ⟨rfl, rfl⟩
  · simp [asLayout, asDiameter_none ha]
  · simp [asLayout, asDensity_none hb]
  · rfl

/-! ### The bytes of a Disk -/

theorem Config.isMagic_iff (c : Config) (d : Diameter) (n : Density) :
    c.isMagic d n = true ↔ (d, n) ∈ c.magicSet := List.contains_iff_mem

/-- A byte of a cleared Disk at a place of a track (41_track_storage.md R145). -/
theorem Disk.read_clear_at (c : Config) (D : Disk) (t : Nat) {i : Nat} (hi : i < D.trackLen) :
    D.clear.read c t i =
      if (D.diameter, D.density) ∈ c.magicSet ∧ i = 0 then c.magic0
      else if (D.diameter, D.density) ∈ c.magicSet ∧ i = 1 then c.magic1 else c.fill t i := by
  simp only [D.read_clear, D.cleared_at c hi, Config.isMagic_iff]

/-- A new Disk reads as a cleared one (92_eei_decisions.md D17). -/
theorem newDisk_read (c : Config) (d : Diameter) (n : Density) (len : Nat) (wp : Bool) (t i : Nat) :
    (newDisk d n len wp).read c t i = (newDisk d n len wp).clear.read c t i := rfl

theorem Disk.read_write_self (c : Config) (D : Disk) (t : Nat) {i : Nat} (hi : i < D.trackLen) (v : Byte) :
    (D.write c t i v).read c t i = v := by
  rw [D.read_write c hi hi, if_pos ⟨rfl, rfl⟩]

theorem Disk.read_write_of_ne (c : Config) (D : Disk) {t i t' i' : Nat} (hi : i < D.trackLen) (hi' : i' < D.trackLen)
    (hne : t' ≠ t ∨ i' ≠ i) (v : Byte) : (D.write c t i v).read c t' i' = D.read c t' i' := by
  rw [D.read_write c hi hi', if_neg (by omega)]

/-- A place of an addressable track lies among the bytes of the addressable tracks. -/
theorem Disk.trackOffset_add_lt {D : Disk} {t i : Nat} (ht : t < D.numTracks) (hi : i < D.trackLen) :
    t * D.trackLen + i < D.numTracks * D.trackLen := by
  rw [Nat.mul_comm t]
  exact Nat.mul_add_lt_mul_of_lt_of_lt ht hi

@[simp] theorem Disk.length_usedBytes (c : Config) (D : Disk) :
    (D.usedBytes c).length = D.numTracks * D.trackLen := Memory.length_readRange ..

/-- The addressable tracks stand one after the other, in track order (41_track_storage.md R153). -/
theorem Disk.getElem?_usedBytes (c : Config) {D : Disk} {t i : Nat} (ht : t < D.numTracks) (hi : i < D.trackLen) :
    (D.usedBytes c)[t * D.trackLen + i]? = some (D.read c t i) := by
  rw [Disk.usedBytes, Memory.getElem?_readRange, if_pos (Disk.trackOffset_add_lt ht hi), Nat.zero_add]
  rfl

theorem Disk.getElem?_track (c : Config) (D : Disk) (t : Nat) {k : Nat} (hk : k < D.trackLen) :
    (D.slice c t 0 D.trackLen)[k]? = some (D.read c t k) := by
  rw [D.getElem?_slice, if_pos hk, Nat.zero_add]

theorem streamBit_getLsbD_zero (v : Byte) (o : Nat) : (streamBit v o).getLsbD 0 = v.getLsbD (7 - o % 8) := by
  simp [streamBit]

/-! ### The sizes and the flags of a Disk (41_track_storage.md R141, R155) -/

theorem Disk.numTracks_inch35 (D : Disk) (h : D.diameter = .inch35) : D.numTracks = 168 := by
  rw [Disk.numTracks, h]; rfl

theorem Disk.numTracks_inch525 (D : Disk) (h : D.diameter = .inch525) : D.numTracks = 84 := by
  rw [Disk.numTracks, h]; rfl

/-- The status byte of a Disk (10_state.md R60). -/
theorem Disk.status_bits (D : Disk) :
    D.status.getLsbD 0 = D.modified ∧ D.status.getLsbD 1 = D.writeProtected ∧
      ∀ k, 2 ≤ k → D.status.getLsbD k = false := by
  obtain ⟨h0, h1, h2, h3, h4, h5, hhigh⟩ := statusByte_bits D.modified D.writeProtected false false false false
  refine ⟨h0, h1, fun k hk => ?_⟩
  obtain rfl | rfl | rfl | rfl | hk6 : k = 2 ∨ k = 3 ∨ k = 4 ∨ k = 5 ∨ 6 ≤ k := by omega
  exacts [h2, h3, h4, h5, hhigh k hk6]

/-! ### What each command is

The operands' type checks stand before the selection of the Disk (30_encoding.md R103 (3)). -/

theorem exec_trkInit {wp : Nat} (hwp : wp ≤ 1) {diameter density : Nat} {d : Diameter} {n : Density} {len : Nat}
    (hl : asLayout diameter density = some (d, n, len)) (s : State) :
    exec (.trkInit diameter density wp) s =
      .next ((s.setStage (some (newDisk d n len (decide (wp = 1))))).setRet (.ok .none)) := by
  simp only [exec, execTrkInit, asBool_eq hwp, hl, finish_eq]

theorem exec_trkInit_badLayout {wp : Nat} (hwp : wp ≤ 1) {diameter density : Nat}
    (hl : asLayout diameter density = none) (s : State) :
    exec (.trkInit diameter density wp) s = .next (s.setRet (.err .invalidLayout)) := by
  simp only [exec, execTrkInit, asBool_eq hwp, hl, raise_eq]

theorem exec_trkInit_badBool {wp : Nat} (hwp : 1 < wp) (diameter density : Nat) (s : State) :
    exec (.trkInit diameter density wp) s = .next (s.setRet (.err .badOperand)) := by
  simp only [exec, execTrkInit, asBool_none.2 hwp, raise_eq]

theorem exec_trkClear (sel : Nat) (s : State) :
    exec (.trkClear sel) s = withDisk s sel (fun slot D => (s.putDisk slot D.clear).finish .none) := rfl

theorem exec_trkRdbit (sel t o : Nat) (s : State) :
    exec (.trkRdbit sel t o) s = withTrack s sel t (fun _ D =>
      if 8 * D.trackLen ≤ o then s.raise .range
      else s.finish (.bit (streamBit (D.read s.cfg t (o / 8)) o))) := rfl

theorem exec_trkWrbit {v : Nat} (hv : v ≤ 1) (sel t o : Nat) (s : State) :
    exec (.trkWrbit sel t o v) s = withTrack s sel t (fun slot D =>
      if 8 * D.trackLen ≤ o then s.raise .range
      else (s.putDisk slot (D.write s.cfg t (o / 8)
        (withStreamBit (D.read s.cfg t (o / 8)) o (decide (v = 1))))).finish .none) := by
  simp only [exec, execTrkWrbit, asBool_eq hv]

theorem exec_trkWrbit_badBool {v : Nat} (hv : 1 < v) (sel t o : Nat) (s : State) :
    exec (.trkWrbit sel t o v) s = .next (s.setRet (.err .badOperand)) := by
  simp only [exec, execTrkWrbit, asBool_none.2 hv, raise_eq]

theorem exec_trkRd8 (sel t i : Nat) (s : State) :
    exec (.trkRd8 sel t i) s = withTrack s sel t (fun _ D =>
      if D.trackLen ≤ i then s.raise .range else s.finish (.byte (D.read s.cfg t i))) := rfl

theorem exec_trkWr8 {v : Nat} (hv : v ≤ 255) (sel t i : Nat) (s : State) :
    exec (.trkWr8 sel t i v) s = withTrack s sel t (fun slot D =>
      if D.trackLen ≤ i then s.raise .range
      else (s.putDisk slot (D.write s.cfg t i (BitVec.ofNat 8 v))).finish .none) := by
  simp only [exec, execTrkWr8, asByte_eq hv]

theorem exec_trkWr8_badByte {v : Nat} (hv : 255 < v) (sel t i : Nat) (s : State) :
    exec (.trkWr8 sel t i v) s = .next (s.setRet (.err .badOperand)) := by
  simp only [exec, execTrkWr8, asByte_none.2 hv, raise_eq]

theorem exec_trkView (sel t : Nat) (s : State) :
    exec (.trkView sel t) s =
      withTrack s sel t (fun _ D => s.finish (.bytes (D.slice s.cfg t 0 D.trackLen))) := rfl

theorem exec_trkSect (sel t n : Nat) (s : State) :
    exec (.trkSect sel t n) s = withTrack s sel t (fun _ D =>
      if D.trackLen < (n + 1) * s.cfg.sectorStride then s.raise .range
      else s.finish (.bytes (D.slice s.cfg t (n * s.cfg.sectorStride) s.cfg.sectorStride))) := rfl

theorem exec_trkCsum (sel : Nat) (s : State) :
    exec (.trkCsum sel) s =
      withDisk s sel (fun _ D => s.finish (.num (fnv1a s.cfg.hashWidth (D.usedBytes s.cfg)))) := rfl

theorem exec_trkCsumt (sel t : Nat) (s : State) :
    exec (.trkCsumt sel t) s = withTrack s sel t (fun _ D =>
      s.finish (.num (fnv1a s.cfg.hashWidth (D.slice s.cfg t 0 D.trackLen)))) := rfl

theorem exec_trkStat (sel : Nat) (s : State) :
    exec (.trkStat sel) s = withDisk s sel (fun _ D => s.finish (.byte D.status)) := rfl

theorem exec_trkSetflags {m p : Nat} (hm : m ≤ 1) (hp : p ≤ 1) (sel : Nat) (s : State) :
    exec (.trkSetflags sel m p) s = withDisk s sel (fun slot D =>
      (s.putDisk slot { D with modified := decide (m = 1), writeProtected := decide (p = 1) }).finish .none) := by
  simp only [exec, execTrkSetflags, asBool_eq hm, asBool_eq hp]

theorem exec_trkSetflags_badBool {m p : Nat} (h : 1 < m ∨ 1 < p) (sel : Nat) (s : State) :
    exec (.trkSetflags sel m p) s = .next (s.setRet (.err .badOperand)) := by
  rcases h with hm | hp
  · simp only [exec, execTrkSetflags, asBool_none.2 hm, raise_eq]
  · cases hm : asBool m <;> simp only [exec, execTrkSetflags, asBool_none.2 hp, hm, raise_eq]

/-- The two addressing checks of a track command, its track and its place on the track, have one answer. -/
theorem withTrack_outside {s : State} {slot : Sel} {D : Disk} (h : s.diskAt slot = some D) {t : Nat}
    {outside : Disk → Prop} [DecidablePred outside] (ho : D.numTracks ≤ t ∨ outside D) (k : Sel → Disk → Outcome) :
    withTrack s slot.code t (fun slot D => if outside D then s.raise .range else k slot D) = s.raise .range := by
  by_cases ht : t < D.numTracks
  · rw [withTrack_eq h ht, if_pos (ho.resolve_left (by omega))]
  · exact withTrack_range h (by omega) _

/-- Inside both bounds the command goes on. -/
theorem withTrack_inside {s : State} {slot : Sel} {D : Disk} (h : s.diskAt slot = some D) {t : Nat}
    (ht : t < D.numTracks) {outside : Disk → Prop} [DecidablePred outside] (hi : ¬ outside D)
    (k : Sel → Disk → Outcome) :
    withTrack s slot.code t (fun slot D => if outside D then s.raise .range else k slot D) = k slot D := by
  rw [withTrack_eq h ht, if_neg hi]

/-! ### Staging and clearing a Disk -/

/-- Settles O20: the new Disk is `newDisk` of the row. -/
theorem trkInitStagesFreshDisk : Obligations.TrkInitStagesFreshDisk := by
  refine ⟨fun s diameter density wp d n len hrow hwp => ?_,
    fun s diameter density wp hwp => exec_trkInit_badBool hwp diameter density s,
    fun s diameter density wp hwp hl => exec_trkInit_badLayout hwp (asLayout_none hl) s⟩
  have hlayout : asLayout diameter density = some (d, n, len) := asLayout_of_mem_layoutRows _ hrow
  refine ⟨newDisk d n len (decide (wp = 1)), exec_trkInit hwp hlayout s, rfl, rfl, rfl, rfl, decide_eq_true_iff,
    fun t i _ hi => ?_⟩
  rw [newDisk_read]
  exact Disk.read_clear_at _ _ _ hi

/-- Settles O21: the Disk left in the slot is `Disk.clear` of the one that was there. -/
theorem trkClearFillsEveryTrack : Obligations.TrkClearFillsEveryTrack := by
  intro s slot D h
  refine ⟨D.clear, ?_, rfl, fun t i _ hi => D.read_clear_at s.cfg t hi⟩
  rw [exec_trkClear, withDisk_eq h, finish_eq]

/-! ### One byte and one bit -/

/-- Settles O22. -/
theorem trkRd8ReturnsByte : Obligations.TrkRd8ReturnsByte := by
  intro s slot D t i h
  rw [exec_trkRd8]
  exact ⟨fun ht hi => withTrack_inside h ht (by omega) _, fun hout => withTrack_outside h hout _⟩

/-- Settles O23: the Disk left in the slot is `Disk.write` of the one that was there. -/
theorem trkWr8ChangesOneByte : Obligations.TrkWr8ChangesOneByte := by
  intro s slot D t i v h
  refine ⟨fun ht hi hv => ?_, fun hv => exec_trkWr8_badByte hv _ t i s, fun hv hout => ?_⟩
  · refine ⟨D.write s.cfg t i (BitVec.ofNat 8 v), ?_, rfl, ?_, fun t' i' hi' hne =>
      D.read_write_of_ne s.cfg hi hi' hne _⟩
    · rw [exec_trkWr8 hv]
      exact withTrack_inside h ht (by omega) _
    · rw [D.read_write_self s.cfg t hi, BitVec.toNat_ofNat, Nat.mod_eq_of_lt (by omega)]
  · rw [exec_trkWr8 hv]
    exact withTrack_outside h hout _

/-- Settles O24. -/
theorem trkRdbitReturnsStreamBit : Obligations.TrkRdbitReturnsStreamBit := by
  intro s slot D t o h
  rw [exec_trkRdbit]
  exact ⟨fun ht ho => ⟨_, withTrack_inside h ht (by omega) _, streamBit_getLsbD_zero _ o⟩,
    fun hout => withTrack_outside h hout _⟩

/-- Settles O25: one byte is written, which differs from the byte that was there in the addressed bit alone. -/
theorem trkWrbitChangesOneBit : Obligations.TrkWrbitChangesOneBit := by
  intro s slot D t o v h
  refine ⟨fun ht ho hv => ?_, fun hv => exec_trkWrbit_badBool hv _ t o s, fun hv hout => ?_⟩
  · have hi : o / 8 < D.trackLen := by omega
    refine ⟨D.write s.cfg t (o / 8) (withStreamBit (D.read s.cfg t (o / 8)) o (decide (v = 1))), ?_, rfl,
      fun k hk => ?_, fun t' i' hi' hne => D.read_write_of_ne s.cfg hi hi' hne _⟩
    · rw [exec_trkWrbit hv]
      exact withTrack_inside h ht (by omega) _
    · rw [D.read_write_self s.cfg t hi, withStreamBit_getLsbD _ o _ hk]
  · rw [exec_trkWrbit hv]
    exact withTrack_outside h hout _

/-! ### Windows and checksums -/

/-- Settles O26. -/
theorem trackViewsReturnWindows : Obligations.TrackViewsReturnWindows := by
  intro s slot D t n h
  rw [exec_trkView, exec_trkSect]
  refine ⟨fun ht => ⟨_, withTrack_eq h ht _, D.length_slice .., fun k hk => D.getElem?_track s.cfg t hk⟩,
    fun ht hend => ⟨_, withTrack_inside h ht (by omega) _, D.length_slice .., fun k hk => ?_⟩,
    fun ht => ⟨withTrack_range h ht _, withTrack_outside h (.inl ht) _⟩,
    fun hend => withTrack_outside h (.inr hend) _⟩
  rw [D.getElem?_slice, if_pos hk]

/-- Settles O27. -/
theorem checksumsHashTracksInOrder : Obligations.ChecksumsHashTracksInOrder := by
  refine ⟨fun s slot D h => ⟨D.usedBytes s.cfg, D.length_usedBytes s.cfg, fun t i ht hi =>
    Disk.getElem?_usedBytes s.cfg ht hi, ?_⟩, fun s slot D t h => ?_, rfl, rfl, fun l x =>
    ⟨fnv1a_append .w64 l x, fnv1a_append .w32 l x⟩⟩
  · rw [exec_trkCsum, withDisk_eq h, finish_eq]
  · rw [exec_trkCsumt]
    exact ⟨fun ht => ⟨_, D.length_slice .., fun i hi => D.getElem?_track s.cfg t hi, withTrack_eq h ht _⟩,
      fun ht => withTrack_range h ht _⟩

/-! ### The flags -/

/-- Settles O28. -/
theorem trackFlagsReadAndSet : Obligations.TrackFlagsReadAndSet := by
  refine fun s slot m p => ⟨fun D h => ⟨⟨D.status, ?_, D.status_bits⟩, fun hm hp => ?_⟩, fun hbad =>
    exec_trkSetflags_badBool hbad _ s, fun h => ⟨withDisk_empty h _, fun hm hp => ?_⟩⟩
  · rw [exec_trkStat, withDisk_eq h, finish_eq]
  · rw [exec_trkSetflags hm hp, withDisk_eq h, finish_eq]
  · rw [exec_trkSetflags hm hp, withDisk_empty h, raise_eq]

/-! ### No Disk, no slot

Where another operand has a type to check, a bad one is answered as a bad selector is, so it does not matter which of
the two checks comes first. -/

theorem exec_trkWrbit_badSel {n : Nat} (h : 1 < n) (t o v : Nat) (s : State) :
    exec (.trkWrbit n t o v) s = .next (s.setRet (.err .badOperand)) := by
  by_cases hbad : 1 < v
  · exact exec_trkWrbit_badBool hbad n t o s
  · rw [exec_trkWrbit (by omega), withTrack_badSel h, raise_eq]

theorem exec_trkWr8_badSel {n : Nat} (h : 1 < n) (t i v : Nat) (s : State) :
    exec (.trkWr8 n t i v) s = .next (s.setRet (.err .badOperand)) := by
  by_cases hbad : 255 < v
  · exact exec_trkWr8_badByte hbad n t i s
  · rw [exec_trkWr8 (by omega), withTrack_badSel h, raise_eq]

theorem exec_trkSetflags_badSel {n : Nat} (h : 1 < n) (m p : Nat) (s : State) :
    exec (.trkSetflags n m p) s = .next (s.setRet (.err .badOperand)) := by
  by_cases hbad : 1 < m ∨ 1 < p
  · exact exec_trkSetflags_badBool hbad n s
  · rw [exec_trkSetflags (by omega) (by omega), withDisk_badSel h, raise_eq]

/-- Settles O29: each command is its selection, and the selection answers. -/
theorem emptySlotAnswersNoDevice : Obligations.EmptySlotAnswersNoDevice := by
  refine ⟨fun s slot t i v h => ⟨?_, fun hv => ?_, fun hv => ?_⟩, fun s n t i v h => ?_,
    fun D => ⟨D.numTracks_inch35, D.numTracks_inch525⟩⟩
  · simp [exec_trkClear, exec_trkRdbit, exec_trkRd8, exec_trkView, exec_trkSect,
      exec_trkCsum, exec_trkCsumt, exec_trkStat, withDisk_empty h, withTrack_empty h, raise_eq]
  · rw [exec_trkWrbit hv, withTrack_empty h, raise_eq]
  · rw [exec_trkWr8 hv, withTrack_empty h, raise_eq]
  · simp [exec_trkClear, exec_trkRdbit, exec_trkRd8, exec_trkView, exec_trkSect,
      exec_trkCsum, exec_trkCsumt, exec_trkStat, exec_trkWrbit_badSel h, exec_trkWr8_badSel h,
      exec_trkSetflags_badSel h, withDisk_badSel h, withTrack_badSel h, raise_eq]

end Sys2Proof.Machine
end

section
/-! SUPPORT. The step without a packet, and the floppy drive's commands (42_drive_mechanics.md R170 to R193, R199):
what each is where its operand is valid and where not; the ramp of the motor, the step pulse, the history, the cursor
and the search for a sync mark. -/

namespace Sys2Proof.Machine

/-! ### The step without a packet -/

theorem step_idle {s : State} (hwf : s.cfg.wf = true) (hin : s.inbox = []) : step s = exec .tick s := by
  rw [step, if_pos hwf, hin]

theorem step_memWrite {s : State} {a : Nat} {v : Byte} {rest : List HostEvent} (hwf : s.cfg.wf = true)
    (hin : s.inbox = .memWrite a v :: rest) : step s = .next (hostWrite a v (s.setInbox rest)) := by
  rw [step, if_pos hwf, hin]

/-- Settles O2: the memory after a host write is `Memory.write` of the memory before. -/
theorem stepTicksOrTakesHostWrite : Obligations.StepTicksOrTakesHostWrite :=
  ⟨fun _ hwf hin => step_idle hwf hin, fun s a v _ hwf hin =>
    ⟨s.hostMem.write zeroByte a v, step_memWrite hwf hin, Memory.read_write_self .., fun _ hne =>
      Memory.read_write_ne _ _ hne.symm v⟩⟩

/-! ### The motor (R171, R172) -/

theorem exec_fddMotor {on : Nat} (h : on ≤ 1) (s : State) :
    exec (.fddMotor on) s =
      if decide (on = 1) = s.fdd.motorOn then s.finish .none
      else (s.setFdd { s.fdd with motorOn := decide (on = 1), motorSwitchTs := some s.now }).finish .none := by
  simp only [exec, execFddMotor, asBool_eq h]

theorem exec_fddMotor_badBool {on : Nat} (h : 1 < on) (s : State) :
    exec (.fddMotor on) s = .next (s.setRet (.err .badOperand)) := by
  simp only [exec, execFddMotor, asBool_none.2 h, raise_eq]

theorem exec_fddSpeed_neverSwitched {s : State} (hoff : s.fdd.motorOn = false) (hts : s.fdd.motorSwitchTs = none) :
    exec .fddSpeed s = .next (s.setRet (.ok (.num 0))) := by
  simp only [exec, execFddSpeed, hoff, hts, finish_eq]

theorem exec_fddSpeed_on {s : State} {ts : Nat} (hon : s.fdd.motorOn = true) (hts : s.fdd.motorSwitchTs = some ts) :
    exec .fddSpeed s = .next (s.setRet (.ok (.num (min 100 (100 * (s.now - ts) / s.cfg.rampUp))))) := by
  simp only [exec, execFddSpeed, hon, hts, finish_eq]

theorem exec_fddSpeed_off {s : State} {ts : Nat} (hoff : s.fdd.motorOn = false)
    (hts : s.fdd.motorSwitchTs = some ts) :
    exec .fddSpeed s = .next (s.setRet (.ok (.num (100 - min 100 (100 * (s.now - ts) / s.cfg.rampDown))))) := by
  simp only [exec, execFddSpeed, hoff, hts, finish_eq]

/-- The whole percents of a ramp reach 100 exactly when the ramp's time has passed. -/
theorem hundred_le_percent_iff {elapsed ramp : Nat} (h : 0 < ramp) :
    100 ≤ 100 * elapsed / ramp ↔ ramp ≤ elapsed := by
  rw [Nat.le_div_iff_mul_le h]
  omega

/-- Settles O30: by the motor's state, with `hundred_le_percent_iff` for both ends of a ramp. -/
theorem motorStampsTransitionsAndSpeedRamps : Obligations.MotorStampsTransitionsAndSpeedRamps := by
  refine ⟨fun s on => ⟨fun h hne => ?_, fun h heq => ?_, fun h => exec_fddMotor_badBool h s⟩,
    fun s => ⟨exec_fddSpeed_neverSwitched, fun ts hts hle hup hdown => ?_⟩⟩
  · rw [exec_fddMotor h, if_neg hne.symm, finish_eq]
  · rw [exec_fddMotor h, if_pos heq.symm, finish_eq]
  · cases hm : s.fdd.motorOn with
    | true =>
      have hfull := hundred_le_percent_iff (elapsed := s.now - ts) hup
      exact ⟨_, exec_fddSpeed_on hm hts, Nat.min_le_left .., fun _ => ⟨rfl, by omega⟩, nofun⟩
    | false =>
      have hstopped := hundred_le_percent_iff (elapsed := s.now - ts) hdown
      exact ⟨_, exec_fddSpeed_off hm hts, Nat.sub_le .., nofun, fun _ => ⟨rfl, by omega⟩⟩

/-! ### The step pulse (R180, R181, R184, R185) -/

/-- The drive after the latch has seen a step pulse (R181). -/
def State.fddSeen (s : State) : Fdd := { s.fdd with dskChange := s.latchAfterPulse }

theorem exec_fddStep_badDir {n : Nat} (h : 1 < n) (s : State) :
    exec (.fddStep n) s = .next (s.setRet (.err .badOperand)) := by
  simp only [exec, execFddStep, asDir_none.2 h, raise_eq]

/-- A pulse in either direction waits for both directions' pulses (R182, R183). -/
theorem exec_fddStep (d : Dir) (s : State) :
    exec (.fddStep d.code) s =
      if s.readyUp then
        if stepCyl s.cfg.maxCyl d s.fdd.head.cyl = s.fdd.head.cyl then
          (s.setFdd (s.fddSeen.stampStep d s.now)).finish (.bool false)
        else
          (s.setFdd ((s.fddSeen.stampStep d s.now).visit s.cfg.histDepth
            (stepCyl s.cfg.maxCyl d s.fdd.head.cyl))).finish (.bool true)
      else (s.setFdd s.fddSeen).finish (.bool false) := by
  cases d <;> rfl

theorem exec_fddStep_early {s : State} (h : ¬ s.StepSpaced) (d : Dir) :
    exec (.fddStep d.code) s = .next ((s.setFdd s.fddSeen).setRet (.ok (.bool false))) := by
  rw [exec_fddStep, if_neg (mt s.readyUp_iff.1 h), finish_eq]

theorem exec_fddStep_atLimit {s : State} (h : s.StepSpaced) {d : Dir}
    (hc : stepCyl s.cfg.maxCyl d s.fdd.head.cyl = s.fdd.head.cyl) :
    exec (.fddStep d.code) s = .next ((s.setFdd (s.fddSeen.stampStep d s.now)).setRet (.ok (.bool false))) := by
  rw [exec_fddStep, if_pos (s.readyUp_iff.2 h), if_pos hc, finish_eq]

theorem exec_fddStep_moves {s : State} (h : s.StepSpaced) {d : Dir} {cyl : Nat}
    (hc : stepCyl s.cfg.maxCyl d s.fdd.head.cyl = cyl) (hne : cyl ≠ s.fdd.head.cyl) :
    exec (.fddStep d.code) s =
      .next ((s.setFdd ((s.fddSeen.stampStep d s.now).visit s.cfg.histDepth cyl)).setRet (.ok (.bool true))) := by
  subst hc
  rw [exec_fddStep, if_pos (s.readyUp_iff.2 h), if_neg hne, finish_eq]

theorem stepCyl_up_of_lt {maxCyl cyl : Nat} (h : cyl < maxCyl) : stepCyl maxCyl .up cyl = cyl + 1 := if_pos h

theorem stepCyl_up_of_le {maxCyl cyl : Nat} (h : maxCyl ≤ cyl) : stepCyl maxCyl .up cyl = cyl := if_neg (by omega)

theorem stepCyl_down_succ (maxCyl cyl : Nat) : stepCyl maxCyl .down (cyl + 1) = cyl := rfl

theorem stepCyl_down_zero (maxCyl : Nat) : stepCyl maxCyl .down 0 = 0 := rfl

/-- Settles O31: an early pulse, and for each direction a pulse inside the limits and one at its limit. -/
theorem stepPulseMovesHeadAndLatch : Obligations.StepPulseMovesHeadAndLatch := by
  refine ⟨fun s n h => exec_fddStep_badDir h s, fun s => ⟨fun hearly => exec_fddStep_early hearly,
    fun h hlt => ?_, fun h hle => ?_, fun c h hc => ?_, fun h hc => ?_⟩⟩
  · exact exec_fddStep_moves (d := .up) h (stepCyl_up_of_lt hlt) (by omega)
  · exact exec_fddStep_atLimit (d := .up) h (stepCyl_up_of_le hle)
  · exact exec_fddStep_moves (d := .down) h (by rw [hc, stepCyl_down_succ]) (by omega)
  · exact exec_fddStep_atLimit (d := .down) h (by rw [hc, stepCyl_down_zero])

/-! ### Readiness and polling (R182, R183, R186) -/

theorem alternatesBetweenNeighbours_iff (l : List Nat) :
    alternatesBetweenNeighbours l = true ↔
      ∃ (x y : Nat) (rest : List Nat), l = x :: y :: x :: y :: rest ∧ (x = y + 1 ∨ y = x + 1) := by
  unfold alternatesBetweenNeighbours
  split
  · next h0 h1 h2 h3 rest =>
    simp only [Bool.and_eq_true, Bool.or_eq_true, beq_iff_eq, List.cons.injEq]
    constructor
    · rintro ⟨⟨rfl, rfl⟩, hnear⟩
      exact ⟨h0, h1, rest, ⟨rfl, rfl, rfl, rfl, rfl⟩, hnear⟩
    · rintro ⟨x, y, _, ⟨rfl, rfl, rfl, rfl, -⟩, hnear⟩
      exact ⟨⟨rfl, rfl⟩, hnear⟩
  · next hshort =>
    refine ⟨nofun, ?_⟩
    rintro ⟨x, y, rest, hl, -⟩
    exact absurd hl (hshort x y x y rest)

theorem Config.pollPattern_default {c : Config} (h : c.pollTable = none) (history : List Nat) :
    c.pollPattern history = alternatesBetweenNeighbours history := by
  simp only [Config.pollPattern, h]

theorem Config.pollPattern_table {c : Config} {table : List (List Nat)} (h : c.pollTable = some table)
    (history : List Nat) : c.pollPattern history = table.contains history := by
  simp only [Config.pollPattern, h]

/-- Settles O32. -/
theorem readinessAndPollingAnswer : Obligations.ReadinessAndPollingAnswer := by
  refine fun s => ⟨⟨s.readyUp, rfl, rfl, s.readyUp_iff⟩, s.cfg.pollPattern s.fdd.cylHistory, rfl, fun hdef => ?_,
    fun table htable => ?_⟩
  · rw [Config.pollPattern_default hdef, alternatesBetweenNeighbours_iff]
  · rw [Config.pollPattern_table htable, List.contains_iff_mem]

/-! ### The side, the position and the status (R187, R188, R199) -/

theorem exec_fddSide (n : Nat) (s : State) :
    exec (.fddSide n) s =
      if 1 < n then s.raise .badOperand
      else (s.setFdd { s.fdd with head := { s.fdd.head with head := n } }).finish .none := rfl

/-- Settles O33. -/
theorem sideSelectsHeadAndPosReads : Obligations.SideSelectsHeadAndPosReads := by
  refine fun s n => ⟨fun h => ?_, fun h => ?_, rfl⟩
  · rw [exec_fddSide, if_neg (Nat.not_lt.2 h), finish_eq]
  · rw [exec_fddSide, if_pos h, raise_eq]

/-- The status byte of the drive (10_state.md R60). -/
theorem Fdd.status_eq (f : Fdd) :
    f.status = statusByte f.disk.isSome f.dskChange (f.disk.any (fun D => D.writeProtected)) f.motorOn
      (f.disk.any (fun D => D.modified)) f.pending.isSome := by
  unfold Fdd.status
  cases f.disk <;> rfl

/-- Settles O34. -/
theorem driveStatusBits : Obligations.DriveStatusBits := by
  refine fun s => ⟨s.fdd.status, rfl, ?_⟩
  rw [s.fdd.status_eq]
  exact statusByte_bits ..

/-! ### The cursor (R189, R202 (1)) -/

/-- The state after a rotation that left the cursor at `o`. -/
def State.turnedTo (s : State) (o : Nat) : State := (s.setFdd (s.fdd.setOffset o)).setRet (.ok .none)

@[simp] theorem State.turnedTo_disk (s : State) (o : Nat) : (s.turnedTo o).fdd.disk = s.fdd.disk := rfl

@[simp] theorem State.turnedTo_offset (s : State) (o : Nat) : (s.turnedTo o).fdd.head.offset = o := rfl

@[simp] theorem State.turnedTo_turnedTo (s : State) (o o' : Nat) : (s.turnedTo o).turnedTo o' = s.turnedTo o' := rfl

theorem State.turnedTo_self (s : State) : s.turnedTo s.fdd.head.offset = s.setRet (.ok .none) := rfl

theorem exec_fddRot {s : State} {D : Disk} (h : s.fdd.disk = some D) :
    exec .fddRot s = .next (s.turnedTo ((s.fdd.head.offset + 1) % D.trackLen)) := withCurDisk_eq h _

theorem exec_fddRot_empty {s : State} (h : s.fdd.disk = none) :
    exec .fddRot s = .next (s.setRet (.err .noDevice)) := withCurDisk_empty h _

theorem execAll_cons {i : Instr} {s t : State} (h : exec i s = .next t) (rest : List Instr) :
    execAll (i :: rest) s = execAll rest t := by
  simp only [execAll, h]

/-- Rotations add up modulo the track's length. -/
theorem execAll_fddRot {s : State} {D : Disk} (h : s.fdd.disk = some D) (n : Nat) :
    execAll (List.replicate (n + 1) .fddRot) s =
      .next (s.turnedTo ((s.fdd.head.offset + (n + 1)) % D.trackLen)) := by
  induction n generalizing s with
  | zero => exact execAll_cons (exec_fddRot h) []
  | succ n ih =>
    have hadd : s.fdd.head.offset + 1 + (n + 1) = s.fdd.head.offset + (n + 1 + 1) := by omega
    rw [List.replicate_succ, execAll_cons (exec_fddRot h), ih ((s.turnedTo_disk _).trans h), State.turnedTo_turnedTo,
      State.turnedTo_offset, Nat.mod_add_mod, hadd]

/-- Settles O35: a full turn adds the track's length to the cursor. -/
theorem rotationWrapsAtTrackEnd : Obligations.RotationWrapsAtTrackEnd := by
  refine fun s => ⟨exec_fddRot_empty, fun D h => ⟨exec_fddRot h, fun hlt => ?_⟩⟩
  obtain ⟨n, hn⟩ : ∃ n, D.trackLen = n + 1 := Nat.exists_eq_add_one.2 (Nat.zero_lt_of_lt hlt)
  calc execAll (List.replicate D.trackLen .fddRot) s
    _ = .next (s.turnedTo ((s.fdd.head.offset + D.trackLen) % D.trackLen)) := by
      rw [hn, execAll_fddRot h, hn]
    _ = .next (s.setRet (.ok .none)) := by
      rw [Nat.add_mod_right, Nat.mod_eq_of_lt hlt, State.turnedTo_self]

/-! ### Bytes under the head (R191, R192) -/

theorem exec_fddRd8r (s : State) :
    exec .fddRd8r s = withHead s (fun D =>
      (s.setFdd (s.fdd.rotate D.trackLen)).finish (.byte (D.read s.cfg s.curTrack s.fdd.head.offset))) := rfl

/-- Settles O36. -/
theorem driveReadReturnsByteThenAdvances : Obligations.DriveReadReturnsByteThenAdvances := by
  intro s hs
  rw [exec_fddRd8r]
  exact ⟨fun h => withHead_empty h _, fun D h => withHead_eq hs h _⟩

/-- What `FDD_WR8R` leaves of the Disk under the head (R192). -/
def State.overwritten (s : State) (D : Disk) (v : Byte) : Disk :=
  if D.writeProtected then D else D.write s.cfg s.curTrack s.fdd.head.offset v

theorem State.overwritten_protected (s : State) {D : Disk} (h : D.writeProtected = true) (v : Byte) :
    s.overwritten D v = D := if_pos h

theorem State.overwritten_unprotected (s : State) {D : Disk} (h : D.writeProtected = false) (v : Byte) :
    s.overwritten D v = D.write s.cfg s.curTrack s.fdd.head.offset v := if_neg (by simp [h])

theorem exec_fddWr8r {v : Nat} (hv : v ≤ 255) (s : State) :
    exec (.fddWr8r v) s = withHead s (fun D =>
      (s.setFdd { s.fdd.rotate D.trackLen with disk := some (s.overwritten D (BitVec.ofNat 8 v)) }).finish .none) := by
  simp only [exec, execFddWr8r, asByte_eq hv, State.overwritten]

theorem exec_fddWr8r_badByte {v : Nat} (hv : 255 < v) (s : State) :
    exec (.fddWr8r v) s = .next (s.setRet (.err .badOperand)) := by
  simp only [exec, execFddWr8r, asByte_none.2 hv, raise_eq]

/-- Settles O37: the Disk left in the drive is `State.overwritten` of the one that was there. -/
theorem driveWriteHonoursProtection : Obligations.DriveWriteHonoursProtection := by
  refine fun s v hs => ⟨fun hv => exec_fddWr8r_badByte hv s, fun hv h => ?_, fun hv D h => ?_⟩
  · rw [exec_fddWr8r hv, withHead_empty h, raise_eq]
  · obtain ⟨ho, -⟩ := hs.drive_disk D h
    refine ⟨s.overwritten D (BitVec.ofNat 8 v), ?_, fun hp => s.overwritten_protected hp _, fun hp => ?_⟩
    · rw [exec_fddWr8r hv, withHead_eq hs h]
      rfl
    · rw [s.overwritten_unprotected hp]
      refine ⟨rfl, ?_, fun t i hi hne => D.read_write_of_ne s.cfg ho hi hne _⟩
      show (Disk.read s.cfg (D.write s.cfg s.curTrack _ _) s.curTrack _).toNat = v
      rw [D.read_write_self s.cfg s.curTrack ho, BitVec.toNat_ofNat, Nat.mod_eq_of_lt (by omega)]

/-! ### The sync mark (R193) -/

/-- The mark found at a position of the turn stands there, and at no position before it. -/
theorem findSync_eq_some_iff {c : Config} {D : Disk} {t p0 k : Nat} :
    findSync c D t p0 = some k ↔ k < D.trackLen ∧ syncAt c D t ((p0 + k) % D.trackLen) = true ∧
      ∀ j < k, syncAt c D t ((p0 + j) % D.trackLen) = false := by
  simp only [findSync, List.find?_range_eq_some, List.mem_range, Bool.not_eq_true']
  tauto

theorem findSync_eq_none_iff {c : Config} {D : Disk} {t p0 : Nat} :
    findSync c D t p0 = none ↔ ∀ k < D.trackLen, syncAt c D t ((p0 + k) % D.trackLen) = false := by
  simp only [findSync, List.find?_eq_none, List.mem_range, Bool.not_eq_true]

/-- The second byte of a mark at the track's last byte is the track's first byte. -/
theorem syncAt_iff (c : Config) (D : Disk) (t p : Nat) :
    syncAt c D t (p % D.trackLen) = true ↔
      D.read c t (p % D.trackLen) = c.syncHi ∧ D.read c t ((p + 1) % D.trackLen) = c.syncLo := by
  simp only [syncAt, Nat.mod_add_mod, Bool.and_eq_true, beq_iff_eq]

theorem exec_fddSync_found {s : State} (hs : s.Inv) {D : Disk} (h : s.fdd.disk = some D) {k : Nat}
    (hk : findSync s.cfg D s.curTrack s.fdd.head.offset = some k) :
    exec .fddSync s =
      .next ((s.setFdd (s.fdd.setOffset ((s.fdd.head.offset + k + 2) % D.trackLen))).setRet (.ok (.bool true))) := by
  simp only [exec, execFddSync, withHead_eq hs h, hk, Nat.mod_add_mod, finish_eq]

theorem exec_fddSync_notFound {s : State} (hs : s.Inv) {D : Disk} (h : s.fdd.disk = some D)
    (hk : findSync s.cfg D s.curTrack s.fdd.head.offset = none) :
    exec .fddSync s = .next (s.setRet (.ok (.bool false))) := by
  simp only [exec, execFddSync, withHead_eq hs h, hk, finish_eq]

/-- Settles O38: the search answers the first position with the mark, or none. -/
theorem syncFindsFirstMarkWithinOneTurn : Obligations.SyncFindsFirstMarkWithinOneTurn := by
  refine fun s hs => ⟨fun h => withHead_empty h _, fun D h => ?_⟩
  intro t mark
  have hmark : ∀ k, syncAt s.cfg D t ((s.fdd.head.offset + k) % D.trackLen) = true ↔ mark k :=
    fun k => syncAt_iff s.cfg D t (s.fdd.head.offset + k)
  have hnone : ∀ k, ¬ mark k → syncAt s.cfg D t ((s.fdd.head.offset + k) % D.trackLen) = false :=
    fun k hk => Bool.eq_false_of_not_eq_true (mt (hmark k).1 hk)
  exact ⟨fun k hlt hk hfirst =>
      exec_fddSync_found hs h (findSync_eq_some_iff.2 ⟨hlt, (hmark k).2 hk, fun j hj => hnone j (hfirst j hj)⟩),
    fun hall => exec_fddSync_notFound hs h (findSync_eq_none_iff.2 fun k hlt => hnone k (hall k hlt))⟩

end Sys2Proof.Machine
end

section
/-! SUPPORT. The disk change and the scheduler (42_drive_mechanics.md R194 to R198, R200): what the requests for a
change leave, what a tick fires, and what a run of ticks makes of a pending insertion. -/

namespace Sys2Proof.Machine

/-! ### The requests and the tick -/

/-- The state after an accepted `FDD_INS` (R194, R196). -/
def State.insertRequested (s : State) (D : Disk) (delay : Nat) : State :=
  ((s.setFdd { s.fdd with pending := some { change := .insert D, dueAt := s.now + delay } }).setStage none).setRet
    (.ok .none)

theorem State.insertRequested_pending (s : State) (D : Disk) (delay : Nat) :
    (s.insertRequested D delay).fdd.pending = some { change := .insert D, dueAt := s.now + delay } := rfl

theorem exec_fddIns {s : State} {D : Disk} (h : s.stage = some D) (hd : D.diameter = s.cfg.driveDiameter)
    (delay : Nat) : exec (.fddIns delay) s = .next (s.insertRequested D delay) := by
  simp only [exec, execFddIns, h, if_pos hd, finish_eq, State.insertRequested]

theorem exec_fddIns_incompatible {s : State} {D : Disk} (h : s.stage = some D)
    (hd : D.diameter ≠ s.cfg.driveDiameter) (delay : Nat) :
    exec (.fddIns delay) s = .next (s.setRet (.err .incompatible)) := by
  simp only [exec, execFddIns, h, if_neg hd, raise_eq]

theorem exec_fddIns_empty {s : State} (h : s.stage = none) (delay : Nat) :
    exec (.fddIns delay) s = .next (s.setRet (.err .noDevice)) := by
  simp only [exec, execFddIns, h, raise_eq]

/-- Settles O39: by what the stage holds. -/
theorem diskChangeRequestsReplacePending : Obligations.DiskChangeRequestsReplacePending :=
  fun _ delay => ⟨fun h => exec_fddIns_empty h delay, fun _ h hne => exec_fddIns_incompatible h hne delay,
    fun _ h heq => exec_fddIns h heq delay, rfl⟩

/-- The insertion event, with the cursor zeroed where it lies beyond the new Disk's track (R197). -/
theorem Fdd.insertDisk_eq (f : Fdd) (D : Disk) :
    f.insertDisk D = { f with
      disk := some D, dskChange := f.dskChange || f.disk.isSome, pending := none,
      head := { f.head with offset := if f.head.offset < D.trackLen then f.head.offset else 0 } } := by
  unfold Fdd.insertDisk
  by_cases h : f.head.offset < D.trackLen
  · simp only [if_pos h, if_neg (Nat.not_le.2 h)]
  · simp only [if_neg h, if_pos (Nat.not_lt.1 h)]

theorem HardDisk.fireIdle_due {h : HardDisk} {due now : Nat} (hd : h.idleDue = some due) (hle : due ≤ now) :
    h.fireIdle now = { h with state := .idle, idleDue := none } := by
  simp only [HardDisk.fireIdle, hd, if_pos hle]

theorem HardDisk.fireIdle_notDue {h : HardDisk} {now : Nat} (hd : ∀ due, h.idleDue = some due → now < due) :
    h.fireIdle now = h := by
  unfold HardDisk.fireIdle
  split
  · rfl
  · next due hdue => exact if_neg (Nat.not_le.2 (hd due hdue))

/-- The state after a `TICK` (R200). -/
def State.ticked (s : State) : State :=
  (((s.setNow (s.now + 1)).setFdd (s.fdd.fireChange (s.now + 1))).setHd
    (s.hd.map (fun h => h.fireIdle (s.now + 1)))).setRet (.ok .none)

theorem exec_tick (s : State) : exec .tick s = .next s.ticked := rfl

@[simp] theorem State.ticked_now (s : State) : s.ticked.now = s.now + 1 := rfl

@[simp] theorem State.ticked_stage (s : State) : s.ticked.stage = s.stage := rfl

@[simp] theorem State.ticked_fdd (s : State) : s.ticked.fdd = s.fdd.fireChange (s.now + 1) := rfl

/-- Settles O40: the drive by `Fdd.fireChange`, the hard disk by `HardDisk.fireIdle`. -/
theorem tickFiresDueEvents : Obligations.TickFiresDueEvents := by
  refine fun s => ⟨s.fdd.fireChange (s.now + 1), s.hd.map (fun h => h.fireIdle (s.now + 1)), rfl,
    fun hp => Fdd.fireChange_none hp _, fun p hp hd => Fdd.fireChange_early hp hd, fun D due hp hd => ?_,
    fun due hp hd => Fdd.fireChange_eject hp hd, fun hh => ?_, fun h hh => ⟨fun due hi hd => ?_, fun hi => ?_⟩⟩
  · rw [Fdd.fireChange_insert hp hd, Fdd.insertDisk_eq]
  · rw [hh, Option.map_none]
  · rw [hh, Option.map_some, HardDisk.fireIdle_due hi hd]
  · rw [hh, Option.map_some, HardDisk.fireIdle_notDue hi]

/-! ### A run of ticks -/

theorem execAll_ticks (m : Nat) (s : State) : execAll (List.replicate m .tick) s = .next (State.ticked^[m] s) := by
  induction m generalizing s with
  | zero => rfl
  | succ m ih => rw [List.replicate_succ, execAll_cons (exec_tick s), ih, Function.iterate_succ_apply]

theorem State.ticks_now (s : State) (m : Nat) : (State.ticked^[m] s).now = s.now + m := by
  induction m with
  | zero => rfl
  | succ m ih => rw [Function.iterate_succ_apply', State.ticked_now, ih, Nat.add_assoc]

theorem State.ticks_stage (s : State) (m : Nat) : (State.ticked^[m] s).stage = s.stage := by
  induction m with
  | zero => rfl
  | succ m ih => rw [Function.iterate_succ_apply', State.ticked_stage, ih]

/-- The drive after one tick more. -/
theorem State.ticks_succ_fdd (s : State) (m : Nat) :
    (State.ticked^[m + 1] s).fdd = (State.ticked^[m] s).fdd.fireChange (s.now + (m + 1)) := by
  rw [Function.iterate_succ_apply', State.ticked_fdd, s.ticks_now, Nat.add_assoc]

/-- Before a pending change is due, no tick touches the drive. -/
theorem State.ticks_fdd_waiting {s : State} {p : Pending} (hp : s.fdd.pending = some p) {m : Nat}
    (hm : m = 0 ∨ s.now + m < p.dueAt) : (State.ticked^[m] s).fdd = s.fdd := by
  induction m with
  | zero => rfl
  | succ m ih => rw [s.ticks_succ_fdd, ih (by omega), Fdd.fireChange_early hp (by omega)]

/-- Once the change has been due at a tick, the Disk is in the drive, and later ticks leave it there. -/
theorem State.ticks_fdd_inserted {s : State} {D : Disk} {due : Nat}
    (hp : s.fdd.pending = some { change := .insert D, dueAt := due }) {m : Nat} (hm : 1 ≤ m)
    (hd : due ≤ s.now + m) : (State.ticked^[m] s).fdd = s.fdd.insertDisk D := by
  induction m, hm using Nat.le_induction with
  | base => exact Fdd.fireChange_insert hp hd
  | succ m hm ih =>
    rw [s.ticks_succ_fdd]
    by_cases hearlier : due ≤ s.now + m
    · rw [ih hearlier]
      exact Fdd.fireChange_none rfl _
    · rw [State.ticks_fdd_waiting hp (.inr (Nat.lt_of_not_le hearlier))]
      exact Fdd.fireChange_insert hp hd

/-- Settles O41: the request, and then a run of ticks that has reached the due time or has not. -/
theorem insertionCompletesWhenDue : Obligations.InsertionCompletesWhenDue := by
  intro s D delay m hstage hdiam
  have hrun := execAll_cons (exec_fddIns hstage hdiam delay) (List.replicate m .tick)
  rw [execAll_ticks] at hrun
  have hpending := s.insertRequested_pending D delay
  refine ⟨_, hrun, State.ticks_now .., State.ticks_stage .., fun hm => ?_, fun hm => ?_⟩
  · have hwait : m = 0 ∨ s.now + m < s.now + delay := by omega
    rw [State.ticks_fdd_waiting hpending hwait]
    exact ⟨rfl, rfl, rfl⟩
  · have hdue : s.now + delay ≤ s.now + m := by omega
    rw [State.ticks_fdd_inserted hpending (by omega) hdue]
    exact ⟨rfl, rfl, rfl⟩

end Sys2Proof.Machine
end

section
/-! SUPPORT. Write protection (42_drive_mechanics.md R202 (5), 43_hard_disk.md R231 (2)): an outcome that keeps the Disk
in the drive, and one that keeps the hard disk's store, through every shared operation of a command; then the drive's
commands and the hard disk's requests. -/

namespace Sys2Proof.Machine

/-! ### The Disk in the drive -/

/-- The outcome, where it is a next state, has the Disk of `s` in the drive, byte for byte and with its flags. -/
def KeepsDriveDisk (s : State) (o : Outcome) : Prop := ∀ t, o = .next t → t.fdd.disk = s.fdd.disk

theorem KeepsDriveDisk.fault {s : State} (f : Fault) : KeepsDriveDisk s (.fault f) := fun _ h => by cases h

theorem KeepsDriveDisk.finish {s u : State} (h : u.fdd.disk = s.fdd.disk) (v : Value) :
    KeepsDriveDisk s (u.finish v) := by
  intro t ht
  rw [finish_inv ht]
  exact h

theorem KeepsDriveDisk.raise {s : State} (e : ErrCode) : KeepsDriveDisk s (s.raise e) := by
  intro t ht
  rw [raise_inv ht]
  rfl

theorem KeepsDriveDisk.ite {s : State} {p : Prop} [Decidable p] {o q : Outcome} (ho : KeepsDriveDisk s o)
    (hq : KeepsDriveDisk s q) : KeepsDriveDisk s (if p then o else q) := by
  split
  · exact ho
  · exact hq

theorem KeepsDriveDisk.withCurDisk {s : State} {k : Disk → Outcome}
    (h : ∀ D, s.fdd.disk = some D → KeepsDriveDisk s (k D)) : KeepsDriveDisk s (withCurDisk s k) := by
  cases hd : s.fdd.disk with
  | none => rw [withCurDisk_empty hd]; exact .raise _
  | some D => rw [withCurDisk_eq hd]; exact h D hd

theorem KeepsDriveDisk.withHead {s : State} {k : Disk → Outcome}
    (h : ∀ D, s.fdd.disk = some D → KeepsDriveDisk s (k D)) : KeepsDriveDisk s (withHead s k) :=
  .withCurDisk fun D hd => .ite (h D hd) (.fault _)

/-- A command that only answers keeps the Disk. -/
theorem KeepsDriveDisk.of_setsOnlyRet {s : State} {o : Outcome} (h : SetsOnlyRet s o) : KeepsDriveDisk s o := by
  intro t ht
  obtain ⟨r, rfl⟩ := h t ht
  rfl

theorem Fdd.stampStep_disk (f : Fdd) (d : Dir) (t : Nat) : (f.stampStep d t).disk = f.disk := by
  cases d <;> rfl

theorem execFddMotor_keepsDriveDisk (on : Nat) (s : State) : KeepsDriveDisk s (execFddMotor on s) := by
  unfold execFddMotor
  split
  · exact .raise _
  · exact .ite (.finish rfl _) (.finish rfl _)

theorem execFddStep_keepsDriveDisk (dir : Nat) (s : State) : KeepsDriveDisk s (execFddStep dir s) := by
  unfold execFddStep
  split
  · exact .raise _
  · exact .ite (.ite (.finish (Fdd.stampStep_disk ..) _) (.finish (Fdd.stampStep_disk ..) _)) (.finish rfl _)

/-- The one drive command that writes to the Disk stops at its protection (R192). -/
theorem exec_fddWr8r_keepsDriveDisk {s : State} (hp : ∀ D, s.fdd.disk = some D → D.writeProtected = true)
    (v : Nat) : KeepsDriveDisk s (exec (.fddWr8r v) s) := by
  by_cases hv : v ≤ 255
  · rw [exec_fddWr8r hv]
    exact .withHead fun D hd => .finish ((congrArg some (s.overwritten_protected (hp D hd) _)).trans hd.symm) _
  · rw [exec_fddWr8r_badByte (Nat.lt_of_not_le hv)]
    exact .raise _

theorem execFddIns_keepsDriveDisk (delay : Nat) (s : State) : KeepsDriveDisk s (execFddIns delay s) := by
  unfold execFddIns
  split
  · exact .raise _
  · exact .ite (.finish rfl _) (.raise _)

theorem execFddSync_keepsDriveDisk (s : State) : KeepsDriveDisk s (execFddSync s) := by
  refine .withHead fun D _ => ?_
  split
  · exact .finish rfl _
  · exact .finish rfl _

/-- No drive command changes a write-protected Disk in the drive: even an ejection only enters the pending slot. -/
theorem exec_drive_keepsDriveDisk {s : State} (hp : ∀ D, s.fdd.disk = some D → D.writeProtected = true) {i : Instr}
    (hi : unitOf i = .drive) : KeepsDriveDisk s (exec i s) := by
  cases i with
  | fddMotor on => exact execFddMotor_keepsDriveDisk on s
  | fddSpeed => exact .of_setsOnlyRet (execFddSpeed_setsOnlyRet s)
  | fddStep dir => exact execFddStep_keepsDriveDisk dir s
  | fddRdyup | fddRdydn | fddPolls | fddStat | fddPos | fddEj => exact .finish rfl _
  | fddSide => exact .ite (.raise _) (.finish rfl _)
  | fddRot => exact .withCurDisk fun _ _ => .finish rfl _
  | fddRd8r => exact .withHead fun _ _ => .finish rfl _
  | fddWr8r v => exact exec_fddWr8r_keepsDriveDisk hp v
  | fddIns delay => exact execFddIns_keepsDriveDisk delay s
  | fddSync => exact execFddSync_keepsDriveDisk s
  | _ => cases hi

/-! ### The store of the hard disk -/

/-- The outcome, where it is a next state, has a hard disk with the buffer, the dirty bits and the flags of `h`. -/
def KeepsStore (h : HardDisk) (o : Outcome) : Prop :=
  ∀ t, o = .next t → ∃ h', t.hd = some h' ∧ h'.buf = h.buf ∧ h'.dirty = h.dirty ∧ h'.modified = h.modified ∧
    h'.writeProtected = h.writeProtected

theorem KeepsStore.fault {h : HardDisk} (f : Fault) : KeepsStore h (.fault f) := fun _ ht => by cases ht

theorem KeepsStore.untouched {h : HardDisk} {s : State} (hh : s.hd = some h) (r : CmdResult) :
    KeepsStore h (.next (s.setRet r)) := by
  intro t ht
  cases ht
  exact ⟨h, hh, rfl, rfl, rfl, rfl⟩

/-- Accepting a request moves the state machine and the head alone (43_hard_disk.md R213, R219). -/
theorem KeepsStore.accept {h : HardDisk} {u : State} {state : HdState} {due offset : Nat}
    (hu : u.hd = some (h.accept state due offset)) (v : Value) : KeepsStore h (u.finish v) := by
  intro t ht
  rw [finish_inv ht]
  exact ⟨_, hu, rfl, rfl, rfl, rfl⟩

theorem execHddRead_keepsStore {s : State} {h : HardDisk} (hh : s.hd = some h) (offset length addr : Nat) :
    KeepsStore h (execHddRead offset length addr s) := by
  rw [execHddRead, withHd_eq hh]
  split
  · exact .untouched hh _
  · split
    · exact .fault _
    · exact .accept rfl _

theorem execHddWrite_keepsStore {s : State} {h : HardDisk} (hh : s.hd = some h) (hp : h.writeProtected = true)
    (offset length addr : Nat) : KeepsStore h (execHddWrite offset length addr s) := by
  rw [execHddWrite, withHd_eq hh]
  split
  · exact .untouched hh _
  · rw [if_neg (by simp [hp])]
    exact .accept rfl _

theorem execHddRdblk_keepsStore {s : State} {h : HardDisk} (hh : s.hd = some h) (block : Nat) :
    KeepsStore h (execHddRdblk block s) := by
  intro t ht
  obtain ⟨r, rfl⟩ := execHddRdblk_setsOnlyRet block s t ht
  exact ⟨h, hh, rfl, rfl, rfl, rfl⟩

theorem execHddWrblk_keepsStore {s : State} {h : HardDisk} (hh : s.hd = some h) (hp : h.writeProtected = true)
    (block : Nat) (data : List Byte) : KeepsStore h (execHddWrblk block data s) := by
  simp only [execHddWrblk, withHd_eq hh, hp, if_true]
  split
  · exact .untouched hh _
  · split
    · exact .untouched hh _
    · split
      · exact .untouched hh _
      · exact .untouched hh _

/-- Settles O10: the drive's part is `exec_drive_keepsDriveDisk`, the hard disk's goes request by request. -/
theorem protectedMediaSurviveCommands : Obligations.ProtectedMediaSurviveCommands := by
  refine fun i s t ht => ⟨fun D hi hd hp => ?_, fun h hh hp hreq => ?_⟩
  · have hprot : ∀ D', s.fdd.disk = some D' → D'.writeProtected = true := by
      intro D' hd'
      rwa [Option.some.inj (hd'.symm.trans hd)]
    exact (exec_drive_keepsDriveDisk hprot hi t ht).trans hd
  · suffices hkeep : KeepsStore h (exec i s) by
      rw [← hp]
      exact hkeep t ht
    obtain ⟨o, n, a, rfl | rfl⟩ | ⟨b, rfl⟩ | ⟨b, v, rfl⟩ := hreq
    · exact execHddRead_keepsStore hh o n a
    · exact execHddWrite_keepsStore hh hp o n a
    · exact execHddRdblk_keepsStore hh b
    · exact execHddWrblk_keepsStore hh hp b v

end Sys2Proof.Machine
end

section
/-! SUPPORT. The requests and the block commands of the hard disk (43_hard_disk.md R212 to R218, R231): the four checks,
the head, what a real write stores, what an accepted request leaves. -/

namespace Sys2Proof.Machine

/-! ### The four checks (R212) -/

section
variable {c : Config} {h : HardDisk} {o n a : Nat}

theorem verifyError_badLength (hn : n % h.geometry.bsize ≠ 0) : verifyError c h o n a = some .badLength := if_pos hn

theorem verifyError_badOffset (hn : n % h.geometry.bsize = 0) (ho : o % h.geometry.bsize ≠ 0) :
    verifyError c h o n a = some .badOffset := by
  rw [verifyError, if_neg (not_not.2 hn), if_pos ho]

theorem verifyError_range (hn : n % h.geometry.bsize = 0) (ho : o % h.geometry.bsize = 0)
    (hr : h.geometry.numBytes < o + n) : verifyError c h o n a = some .range := by
  rw [verifyError, if_neg (not_not.2 hn), if_neg (not_not.2 ho), if_pos hr]

theorem verifyError_badMem (hn : n % h.geometry.bsize = 0) (ho : o % h.geometry.bsize = 0)
    (hr : o + n ≤ h.geometry.numBytes) (hm : c.hostMemValid a n = false) :
    verifyError c h o n a = some .badMem := by
  rw [verifyError, if_neg (not_not.2 hn), if_neg (not_not.2 ho), if_neg (Nat.not_lt.2 hr), if_neg (by simp [hm])]

end

/-- A request that fails a check changes nothing. -/
theorem exec_request_rejected {s : State} {h : HardDisk} {o n a : Nat} {i : Instr} {e : ErrCode} (hh : s.hd = some h)
    (hi : i = .hddRead o n a ∨ i = .hddWrite o n a) (he : verifyError s.cfg h o n a = some e) :
    exec i s = .next (s.setRet (.err e)) := by
  obtain rfl | rfl := hi
  · simp only [exec, execHddRead, withHd_eq hh, he, raise_eq]
  · simp only [exec, execHddWrite, withHd_eq hh, he, raise_eq]

/-- Settles O44: check by check. -/
theorem requestsAreVerifiedInOrder : Obligations.RequestsAreVerifiedInOrder :=
  fun _ _ _ _ _ _ hh hi =>
    ⟨fun hn => exec_request_rejected hh hi (verifyError_badLength hn),
      fun hn ho => exec_request_rejected hh hi (verifyError_badOffset hn ho),
      fun hn ho hr => exec_request_rejected hh hi (verifyError_range hn ho hr),
      fun hn ho hr hm => exec_request_rejected hh hi (verifyError_badMem hn ho hr hm)⟩

/-! ### Blocks of a good hard disk -/

theorem HardDisk.Wf.bsize {h : HardDisk} (w : h.Wf) : h.geometry.bsize = 512 := w.bsize_eq

theorem HardDisk.Wf.numBytes {h : HardDisk} (w : h.Wf) : h.geometry.numBytes = h.geometry.numBlocks * 512 :=
  congrArg (h.geometry.numBlocks * ·) w.bsize

theorem HardDisk.Wf.verifyError_none {h : HardDisk} (w : h.Wf) {c : Config} {o n a : Nat} (hn : n % 512 = 0)
    (ho : o % 512 = 0) (hr : o + n ≤ h.geometry.numBytes) (hm : c.hostMemValid a n = true) :
    verifyError c h o n a = none := by
  rw [Machine.verifyError_none, w.bsize]
  exact ⟨hn, ho, hr, hm⟩

/-- The head shows the block at the offset (R213). -/
theorem HardDisk.Wf.headFor_inside {h : HardDisk} (w : h.Wf) {o : Nat} (ho : o < h.geometry.numBytes) :
    h.headFor o = { cyl := o / 512 / h.geometry.sectors / h.geometry.heads
                    head := o / 512 / h.geometry.sectors % h.geometry.heads
                    offset := o / 512 % h.geometry.sectors } := by
  have hlt : o / 512 < h.geometry.numBlocks := by
    rw [w.numBytes] at ho
    omega
  rw [HardDisk.headFor, w.bsize, GeoDesc.blockToChs_hd, if_neg (Nat.not_le.2 hlt)]

/-- An empty request at the end of the device shows no block. -/
theorem HardDisk.Wf.headFor_end {h : HardDisk} (w : h.Wf) {o : Nat} (ho : h.geometry.numBytes ≤ o) :
    h.headFor o = h.head := by
  have hle : h.geometry.numBlocks ≤ o / 512 := by
    rw [w.numBytes] at ho
    omega
  rw [HardDisk.headFor, w.bsize, GeoDesc.blockToChs_hd, if_pos hle]

/-! ### The read request (R215) -/

/-- Bytes copied from one memory to another. -/
theorem Memory.read_copy (u u' : Nat → Byte) (m m' : Memory) (a o n x : Nat) :
    (m.writeRange u a (m'.readRange u' o n)).read u x =
      if a ≤ x ∧ x < a + n then m'.read u' (o + (x - a)) else m.read u x := by
  rw [Memory.read_writeRange, Memory.length_readRange]
  split
  · next hx =>
    rw [List.getD_eq_getElem?_getD, Memory.getElem?_readRange, if_pos (by omega), Option.getD_some]
  · rfl

/-- Host memory after the buffer's range went to the address. -/
def State.memAfterRead (s : State) (h : HardDisk) (o n a : Nat) : Memory :=
  s.hostMem.writeRange zeroByte a (h.buf.mem.readRange zeroByte o n)

theorem State.memAfterRead_inside (s : State) (h : HardDisk) (o a : Nat) {n k : Nat} (hk : k < n) :
    (s.memAfterRead h o n a).read zeroByte (a + k) = h.buf.byte (o + k) := by
  rw [State.memAfterRead, Memory.read_copy, if_pos (by omega), Nat.add_sub_cancel_left]
  rfl

theorem State.memAfterRead_outside (s : State) (h : HardDisk) (o : Nat) {n a x : Nat} (hx : x < a ∨ a + n ≤ x) :
    (s.memAfterRead h o n a).read zeroByte x = s.hostMem.read zeroByte x := by
  rw [State.memAfterRead, Memory.read_copy, if_neg (by omega)]

theorem exec_hddRead {s : State} {h : HardDisk} {o n a : Nat} (hh : s.hd = some h)
    (hv : verifyError s.cfg h o n a = none) (hlen : o + n ≤ h.buf.len) :
    exec (.hddRead o n a) s = .next (((s.setHostMem (s.memAfterRead h o n a)).setHd
      (some (h.accept .reading (s.now + s.cfg.hdSettle) o))).setRet (.ok .none)) := by
  simp only [exec, execHddRead, withHd_eq hh, hv, Buffer.read?, if_pos hlen]
  rfl

/-- Settles O45: the memory is `State.memAfterRead`, the head `HardDisk.headFor`. -/
theorem hddReadCopiesToHostMemory : Obligations.HddReadCopiesToHostMemory := by
  intro s h o n a hh w hn ho hr hm
  have hlen : o + n ≤ h.buf.len := hr.trans_eq w.buf_len.symm
  exact ⟨_, h.headFor o, exec_hddRead hh (w.verifyError_none hn ho hr hm) hlen,
    fun _ hk => s.memAfterRead_inside h o a hk, fun _ hx => s.memAfterRead_outside h o hx,
    w.headFor_inside, w.headFor_end⟩

/-! ### A real write (R214) -/

/-- What a real write of `v` at the offset `o` of `h` makes of the buffer and the dirty bits. -/
structure HardDisk.Stores (h : HardDisk) (o : Nat) (v : List Byte) (buf : Buffer) (dirty : List Bool) : Prop where
  realWrite : h.realWrite o v = .ok { h with buf := buf, dirty := dirty, modified := true }
  len : buf.len = h.buf.len
  inside : ∀ k, k < v.length → v[k]? = some (buf.byte (o + k))
  outside : ∀ x, (x < o ∨ o + v.length ≤ x) → buf.byte x = h.buf.byte x
  dirty_len : dirty.length = h.dirty.length
  marks : ∀ blk, blk < h.dirty.length →
    dirty[blk]? = if o / 512 ≤ blk ∧ blk < (o + v.length) / 512 then some true else h.dirty[blk]?

/-- Every range inside the geometry of a good hard disk can be stored. -/
theorem HardDisk.Wf.stores {h : HardDisk} (w : h.Wf) {o : Nat} {v : List Byte}
    (hr : o + v.length ≤ h.geometry.numBytes) : ∃ buf dirty, h.Stores o v buf dirty := by
  obtain ⟨h', hw⟩ := w.realWrite hr
  obtain ⟨buf, dirty, hbuf, hdirty, rfl⟩ := HardDisk.realWrite_spec hw
  obtain ⟨-, hlen, hbyte⟩ := Buffer.write?_spec hbuf
  obtain ⟨-, hdlen, hbit⟩ := setBits?_spec hdirty
  refine ⟨buf, dirty, hw, hlen, fun k hk => ?_, fun x hx => ?_, hdlen, fun blk hblk => ?_⟩
  · rw [hbyte, if_pos (by omega), Nat.add_sub_cancel_left, List.getD_eq_getElem?_getD, List.getElem?_eq_getElem hk,
      Option.getD_some]
  · rw [hbyte, if_neg (by omega)]
  · rw [hbit, w.bsize, List.getElem?_eq_getElem hblk, Option.map_some]
    split <;> rfl

/-! ### The write request (R216) -/

section
variable {s : State} {h : HardDisk} {o n a : Nat}

/-- An empty request, or one on a write-protected device, is accepted and stores nothing. -/
theorem exec_hddWrite_skips (hh : s.hd = some h) (hv : verifyError s.cfg h o n a = none)
    (hskip : h.writeProtected = true ∨ n = 0) :
    exec (.hddWrite o n a) s =
      .next ((s.setHd (some (h.accept .writing (s.now + s.cfg.hdSettle) o))).setRet (.ok .none)) := by
  have hnot : ¬ (h.writeProtected = false ∧ 0 < n) := by
    rintro ⟨hp, hpos⟩
    obtain hskip | hskip := hskip
    · simp [hp] at hskip
    · omega
  simp only [exec, execHddWrite, withHd_eq hh, hv, if_neg hnot, finish_eq]

theorem exec_hddWrite_stores (hh : s.hd = some h) (hv : verifyError s.cfg h o n a = none)
    (hp : h.writeProtected = false) (hpos : 0 < n) {h' : HardDisk}
    (hw : h.realWrite o (s.hostMem.readRange zeroByte a n) = .ok h') :
    exec (.hddWrite o n a) s =
      .next ((s.setHd (some (h'.accept .writing (s.now + s.cfg.hdSettle) o))).setRet (.ok .none)) := by
  simp only [exec, execHddWrite, withHd_eq hh, hv, if_pos (And.intro hp hpos), hw, finish_eq]

end

/-- Settles O46: a request that stores nothing, or a real write of the host's bytes. -/
theorem hddWriteStoresRealWritesOnly : Obligations.HddWriteStoresRealWritesOnly := by
  intro s h o n a hh w hn ho hr hm
  have hv := w.verifyError_none (c := s.cfg) hn ho hr hm
  by_cases hskip : h.writeProtected = true ∨ n = 0
  · refine ⟨h.buf, h.dirty, h.modified, h.headFor o, exec_hddWrite_skips hh hv hskip, fun _ => ⟨rfl, rfl, rfl⟩,
      fun hp hpos => ?_, w.headFor_inside, w.headFor_end⟩
    obtain hskip | hskip := hskip
    · simp [hp] at hskip
    · omega
  · obtain ⟨hp, hpos⟩ : h.writeProtected = false ∧ 0 < n := by
      rw [not_or, Bool.not_eq_true] at hskip
      exact ⟨hskip.1, Nat.pos_of_ne_zero hskip.2⟩
    obtain ⟨buf, dirty, st⟩ := w.stores (o := o) (v := s.hostMem.readRange zeroByte a n) (by simpa using hr)
    have hlen := Memory.length_readRange zeroByte s.hostMem a n
    refine ⟨buf, dirty, true, h.headFor o, exec_hddWrite_stores hh hv hp hpos st.realWrite,
      fun hno => absurd hno hskip, fun _ _ => ⟨rfl, st.len, fun k hk => ?_, ?_, st.dirty_len, ?_⟩, w.headFor_inside,
      w.headFor_end⟩
    · have hbyte := st.inside k (by rwa [hlen])
      rw [Memory.getElem?_readRange, if_pos hk] at hbyte
      exact (Option.some.inj hbyte).symm
    · rw [← hlen]
      exact st.outside
    · rw [← hlen]
      exact st.marks

/-! ### One block (R217, R218) -/

/-- A block of a good hard disk lies inside the store. -/
theorem HardDisk.Wf.block_end_le {h : HardDisk} (w : h.Wf) {blk : Nat} (hb : blk < h.geometry.numBlocks) :
    blk * 512 + 512 ≤ h.geometry.numBytes := by
  rw [w.numBytes]
  omega

section
variable {s : State} {h : HardDisk} {blk : Nat} {v : List Byte}

theorem exec_hddRdblk (hh : s.hd = some h) (w : h.Wf) (hb : blk < h.geometry.numBlocks) :
    exec (.hddRdblk blk) s = .next (s.setRet (.ok (.bytes (h.buf.mem.readRange zeroByte (blk * 512) 512)))) := by
  simp only [exec, execHddRdblk, withHd_eq hh, if_neg (Nat.not_le.2 hb), w.bsize, w.read? (w.block_end_le hb),
    finish_eq]

theorem exec_hddRdblk_range (hh : s.hd = some h) (hb : h.geometry.numBlocks ≤ blk) :
    exec (.hddRdblk blk) s = .next (s.setRet (.err .range)) := by
  simp only [exec, execHddRdblk, withHd_eq hh, if_pos hb, raise_eq]

theorem exec_hddWrblk_badLength (hl : v.length ≠ 512) :
    exec (.hddWrblk blk v) s = .next (s.setRet (.err .badOperand)) := if_pos hl

theorem exec_hddWrblk_range (hh : s.hd = some h) (w : h.Wf) (hl : v.length = 512) (hb : h.geometry.numBlocks ≤ blk) :
    exec (.hddWrblk blk v) s = .next (s.setRet (.err .range)) := by
  simp only [exec, execHddWrblk, withHd_eq hh, hl, hdBlockSize, w.bsize, ne_eq, not_true_eq_false, if_false, if_pos hb,
    raise_eq]

theorem exec_hddWrblk_protected (hh : s.hd = some h) (w : h.Wf) (hl : v.length = 512)
    (hb : blk < h.geometry.numBlocks) (hp : h.writeProtected = true) :
    exec (.hddWrblk blk v) s = .next (s.setRet (.ok .none)) := by
  simp only [exec, execHddWrblk, withHd_eq hh, hl, hdBlockSize, w.bsize, ne_eq, not_true_eq_false, if_false,
    if_neg (Nat.not_le.2 hb), if_pos hp, finish_eq]

theorem exec_hddWrblk_stores (hh : s.hd = some h) (w : h.Wf) (hl : v.length = 512) (hb : blk < h.geometry.numBlocks)
    (hp : h.writeProtected = false) {h' : HardDisk} (hw : h.realWrite (blk * 512) v = .ok h') :
    exec (.hddWrblk blk v) s = .next ((s.setHd (some h')).setRet (.ok .none)) := by
  simp only [exec, execHddWrblk, withHd_eq hh, hl, hdBlockSize, w.bsize, ne_eq, not_true_eq_false, if_false,
    if_neg (Nat.not_le.2 hb), hp, Bool.false_eq_true, hw, finish_eq]

end

/-- The only block that 512 bytes at a block's start cover is the block itself. -/
theorem covers_one_block_iff (j blk : Nat) : (blk * 512 / 512 ≤ j ∧ j < (blk * 512 + 512) / 512) ↔ j = blk := by
  omega

/-- Settles O47: the read, the refusals in order, the skipped write, and the real write of one block. -/
theorem blockAccessBypassesStateMachine : Obligations.BlockAccessBypassesStateMachine := by
  refine fun s h blk v hh w => ⟨fun hb => ⟨_, exec_hddRdblk hh w hb, Memory.length_readRange .., fun k hk => ?_⟩,
    exec_hddRdblk_range hh, exec_hddWrblk_badLength, exec_hddWrblk_range hh w, exec_hddWrblk_protected hh w,
    fun hl hb hp => ?_⟩
  · rw [Memory.getElem?_readRange, if_pos hk]
    rfl
  · obtain ⟨buf, dirty, st⟩ := w.stores (o := blk * 512) (v := v) (by rw [hl]; exact w.block_end_le hb)
    have hin := st.inside
    have hout := st.outside
    have hmarks := st.marks
    rw [hl] at hin hout hmarks
    simp only [covers_one_block_iff] at hmarks
    exact ⟨buf, dirty, exec_hddWrblk_stores hh w hl hb hp st.realWrite, st.len, hin, hout, st.dirty_len, hmarks⟩

/-! ### A write and then a read (R231 (3)) -/

/-- Settles O48: the write leaves the geometry and the buffer's length, so that the read passes the same checks and
delivers what O46 says is stored. -/
theorem readDeliversWhatWriteStored : Obligations.ReadDeliversWhatWriteStored := by
  intro s h o n a a' hh w hp hn ho hr hm hm'
  obtain ⟨buf, dirty, modified, head, hwrite, hskip, hstore, -, -⟩ :=
    hddWriteStoresRealWritesOnly s h o n a hh w hn ho hr hm
  have hlen : o + n ≤ buf.len := by
    obtain hzero | hpos := Nat.eq_zero_or_pos n
    · obtain ⟨hbuf, -, -⟩ := hskip (.inr hzero)
      rw [hbuf, w.buf_len]
      exact hr
    · obtain ⟨-, hbuf, -⟩ := hstore hp hpos
      rw [hbuf, w.buf_len]
      exact hr
  refine ⟨_, (execAll_cons hwrite _).trans (execAll_cons (exec_hddRead rfl ?_ hlen) []), fun k hk => ?_⟩
  · exact verifyError_none.2 (verifyError_none.1 (w.verifyError_none hn ho hr hm'))
  · obtain ⟨-, -, hbytes, -⟩ := hstore hp (Nat.zero_lt_of_lt hk)
    exact (State.memAfterRead_inside _ _ o a' hk).trans (hbytes k hk)

end Sys2Proof.Machine
end

section
/-! SUPPORT. The other commands of the hard disk (43_hard_disk.md R209 to R211, R220 to R229, R232): connecting and
dropping it, geometry and format, status and flags, dirty bits, and the partition table. -/

namespace Sys2Proof.Machine

/-! ### Connecting (R210, R232) -/

/-- The hard disk that `HDD_INIT` builds. -/
def HardDisk.initial (g : HdGeometry) (image : List Byte) : HardDisk where
  geometry := g
  ptable := [defaultPartition g]
  drivers := []
  buf := if image.length ≠ 0 then Buffer.ofBytes image else Buffer.zeros g.numBytes
  dirty := List.replicate g.numBlocks true
  state := .idle
  head := { cyl := 0, head := 0, offset := 0 }
  idleDue := none
  writeProtected := false
  modified := false

theorem HardDisk.initial_dirty (g : HdGeometry) (image : List Byte) {j : Nat} (hj : j < g.numBlocks) :
    (HardDisk.initial g image).dirty[j]? = some true := by
  simp [HardDisk.initial, hj]

theorem HardDisk.initial_len (g : HdGeometry) {image : List Byte} (hi : image = [] ∨ image.length = g.numBytes) :
    (HardDisk.initial g image).buf.len = g.numBytes := by
  unfold HardDisk.initial
  dsimp only
  split
  · next hne => exact hi.resolve_left (fun he => hne (by rw [he]; rfl))
  · rfl

/-- The image's bytes; zeros where there is none. -/
theorem HardDisk.initial_byte (g : HdGeometry) (image : List Byte) (a : Nat) :
    (HardDisk.initial g image).buf.byte a = image.getD a 0 := by
  unfold HardDisk.initial
  dsimp only
  split
  · exact Buffer.byte_ofBytes image a
  · next hz =>
    rw [List.eq_nil_of_length_eq_zero (not_not.1 hz), Buffer.byte_zeros]
    rfl

section
variable {c n k b : Nat} {image : List Byte} {s : State}

theorem exec_hddInit_zero (hz : c = 0 ∨ n = 0 ∨ k = 0 ∨ b = 0) :
    exec (.hddInit c n k b image) s = .next (s.setRet (.err .badOperand)) := if_pos hz

theorem exec_hddInit_blockSize (hz : ¬ (c = 0 ∨ n = 0 ∨ k = 0 ∨ b = 0)) (hb : b ≠ 512) :
    exec (.hddInit c n k b image) s = .next (s.setRet (.err .blockSize)) :=
  (if_neg hz).trans (if_pos hb)

theorem exec_hddInit_unsupported (hz : ¬ (c = 0 ∨ n = 0 ∨ k = 0 ∨ b = 0)) (hb : b = 512)
    (hg : s.cfg.geometryOk ⟨c, n, k, b⟩ = false) :
    exec (.hddInit c n k b image) s = .next (s.setRet (.err .geometryUnsupported)) :=
  (if_neg hz).trans <| (if_neg (not_not.2 hb)).trans <| if_neg (Bool.eq_false_iff.1 hg)

theorem exec_hddInit_badImage (hz : ¬ (c = 0 ∨ n = 0 ∨ k = 0 ∨ b = 0)) (hb : b = 512)
    (hg : s.cfg.geometryOk ⟨c, n, k, b⟩ = true) (hne : image ≠ []) (hl : image.length ≠ c * n * k * b) :
    exec (.hddInit c n k b image) s = .next (s.setRet (.err .badOperand)) :=
  (if_neg hz).trans <| (if_neg (not_not.2 hb)).trans <| (if_pos hg).trans <|
    if_pos ⟨fun h => hne (List.eq_nil_of_length_eq_zero h), hl⟩

theorem exec_hddInit_builds (hz : ¬ (c = 0 ∨ n = 0 ∨ k = 0 ∨ b = 0)) (hb : b = 512)
    (hg : s.cfg.geometryOk ⟨c, n, k, b⟩ = true) (hi : image = [] ∨ image.length = c * n * k * b) :
    exec (.hddInit c n k b image) s =
      .next ((s.setHd (some (HardDisk.initial ⟨c, n, k, b⟩ image))).setRet (.ok .none)) :=
  (if_neg hz).trans <| (if_neg (not_not.2 hb)).trans <| (if_pos hg).trans <| if_neg fun ⟨hne, hl⟩ =>
    hi.elim (fun he => hne (congrArg List.length he)) hl

end

/-- Settles O42: the checks in order, and then `HardDisk.initial`. -/
theorem hddInitBuildsStore : Obligations.HddInitBuildsStore := by
  refine fun s c n k b image => ⟨exec_hddInit_zero, fun hc hn hk hb0 => ?_⟩
  have hz : ¬ (c = 0 ∨ n = 0 ∨ k = 0 ∨ b = 0) := by omega
  exact ⟨exec_hddInit_blockSize hz, exec_hddInit_unsupported hz, exec_hddInit_badImage hz,
    fun hb hg hi => ⟨_, exec_hddInit_builds hz hb hg hi, rfl, rfl, rfl, rfl, rfl, rfl, rfl, rfl,
      List.length_replicate, fun _ => HardDisk.initial_dirty ⟨c, n, k, b⟩ image, HardDisk.initial_len _ hi,
      fun a _ => HardDisk.initial_byte _ image a⟩⟩

/-! ### The geometry (R220) -/

section
variable {s : State} {h : HardDisk} {c n k b : Nat}

theorem exec_hddChgeo_zero (hh : s.hd = some h) (hz : c = 0 ∨ n = 0 ∨ k = 0 ∨ b = 0) :
    exec (.hddChgeo c n k b) s = .next (s.setRet (.err .badOperand)) :=
  (withHd_eq hh _).trans (if_pos hz)

theorem exec_hddChgeo_blockSize (hh : s.hd = some h) (hz : ¬ (c = 0 ∨ n = 0 ∨ k = 0 ∨ b = 0)) (hb : b ≠ 512) :
    exec (.hddChgeo c n k b) s = .next (s.setRet (.err .blockSize)) :=
  (withHd_eq hh _).trans <| (if_neg hz).trans (if_pos hb)

theorem exec_hddChgeo_mismatch (hh : s.hd = some h) (hz : ¬ (c = 0 ∨ n = 0 ∨ k = 0 ∨ b = 0)) (hb : b = 512)
    (hn : c * n * k * b ≠ h.geometry.numBytes) :
    exec (.hddChgeo c n k b) s = .next (s.setRet (.err .geometryMismatch)) :=
  (withHd_eq hh _).trans <| (if_neg hz).trans <| (if_neg (not_not.2 hb)).trans (if_pos hn)

theorem exec_hddChgeo_unsupported (hh : s.hd = some h) (hz : ¬ (c = 0 ∨ n = 0 ∨ k = 0 ∨ b = 0)) (hb : b = 512)
    (hn : c * n * k * b = h.geometry.numBytes) (hg : s.cfg.geometryOk ⟨c, n, k, b⟩ = false) :
    exec (.hddChgeo c n k b) s = .next (s.setRet (.err .geometryUnsupported)) :=
  (withHd_eq hh _).trans <| (if_neg hz).trans <| (if_neg (not_not.2 hb)).trans <| (if_neg (not_not.2 hn)).trans <|
    if_neg (Bool.eq_false_iff.1 hg)

theorem exec_hddChgeo_changes (hh : s.hd = some h) (hz : ¬ (c = 0 ∨ n = 0 ∨ k = 0 ∨ b = 0)) (hb : b = 512)
    (hn : c * n * k * b = h.geometry.numBytes) (hg : s.cfg.geometryOk ⟨c, n, k, b⟩ = true) :
    exec (.hddChgeo c n k b) s = .next ((s.setHd (some { h with
      geometry := ⟨c, n, k, b⟩, head := { cyl := 0, head := 0, offset := 0 }
      ptable := [defaultPartition ⟨c, n, k, b⟩] })).setRet (.ok .none)) :=
  (withHd_eq hh _).trans <| (if_neg hz).trans <| (if_neg (not_not.2 hb)).trans <| (if_neg (not_not.2 hn)).trans <|
    if_pos hg

end

/-- Settles O49: the checks in order; the one partition is `defaultPartition`. -/
theorem geometryChangeKeepsCapacityAndData : Obligations.GeometryChangeKeepsCapacityAndData := by
  refine fun s h c n k b hh => ⟨exec_hddChgeo_zero hh, fun hc hn hk hb0 => ?_⟩
  have hz : ¬ (c = 0 ∨ n = 0 ∨ k = 0 ∨ b = 0) := by omega
  exact ⟨exec_hddChgeo_blockSize hh hz, exec_hddChgeo_mismatch hh hz, exec_hddChgeo_unsupported hh hz,
    exec_hddChgeo_changes hh hz⟩

/-! ### The format (R221) -/

section
variable {s : State} {h : HardDisk} {fs : Nat} {name : List Byte}

theorem exec_hddFmt_nodos (hh : s.hd = some h) (hfs : fs = 0) :
    exec (.hddFmt fs name) s = .next (s.setRet (.ok .none)) :=
  (withHd_eq hh _).trans (if_pos hfs)

/-- No image, or one that does not fit. -/
theorem exec_hddFmt_refused (hh : s.hd = some h) (hfs : fs ≠ 0)
    (hno : ∀ img, s.cfg.emptyFsImage fs name h.geometry = some img → img.length ≠ h.geometry.numBytes) :
    exec (.hddFmt fs name) s = .next (s.setRet (.err .badOperand)) := by
  refine (withHd_eq hh _).trans ((if_neg hfs).trans ?_)
  split
  · rfl
  · next img hi => exact if_pos (hno img hi)

theorem exec_hddFmt_replaces (hh : s.hd = some h) (hfs : fs ≠ 0) {img : List Byte}
    (hi : s.cfg.emptyFsImage fs name h.geometry = some img) (hl : img.length = h.geometry.numBytes) :
    exec (.hddFmt fs name) s = .next ((s.setHd (some { h with
      buf := Buffer.ofBytes img, dirty := h.dirty.map (fun _ => true), modified := true })).setRet (.ok .none)) := by
  simp only [exec, execHddFmt, withHd_eq hh, nodos, if_neg hfs, hi, if_neg (not_not.2 hl), finish_eq]

end

/-- Settles O50: by the file system and its empty image. -/
theorem formatReplacesBuffer : Obligations.FormatReplacesBuffer := by
  refine fun s h fs name hh => ⟨exec_hddFmt_nodos hh, exec_hddFmt_refused hh, fun img hfs hi hl =>
    ⟨_, _, exec_hddFmt_replaces hh hfs hi hl, hl, fun k hk => ?_, List.length_map _, fun j hj => ?_⟩⟩
  · rw [Buffer.byte_ofBytes, List.getD_eq_getElem?_getD, List.getElem?_eq_getElem hk, Option.getD_some]
  · rw [List.getElem?_map, List.getElem?_eq_getElem hj, Option.map_some]

/-! ### Status and flags (R222, R223, R224, R229) -/

theorem exec_hddStat (s : State) : exec .hddStat s = .next (s.setRet (.ok (.byte (hdStatus s.hd)))) := rfl

theorem exec_hddStat_empty {s : State} (hh : s.hd = none) :
    exec .hddStat s = .next (s.setRet (.ok (.byte 0))) := by
  rw [exec_hddStat, hh]
  rfl

/-- The state's code has one bit for Reading and one for Writing (10_state.md R23). -/
theorem HdState.bits_reading (st : HdState) : st.bits.2 = decide (st = .reading) := by cases st <;> rfl

theorem HdState.bits_writing (st : HdState) : st.bits.1 = decide (st = .writing) := by cases st <;> rfl

/-- The bits of the status word of a connected hard disk (10_state.md R60). -/
theorem hdStatus_bits (h : HardDisk) :
    let v := hdStatus (some h)
    v.getLsbD 0 = decide (h.state = .reading) ∧ v.getLsbD 1 = decide (h.state = .writing) ∧
      v.getLsbD 2 = h.writeProtected ∧ v.getLsbD 3 = h.modified ∧ v.getLsbD 4 = true ∧
      ∀ k, 5 ≤ k → v.getLsbD k = false := by
  obtain ⟨h0, h1, h2, h3, h4, h5, hhigh⟩ :=
    statusByte_bits h.state.bits.2 h.state.bits.1 h.writeProtected h.modified true false
  refine ⟨h0.trans h.state.bits_reading, h1.trans h.state.bits_writing, h2, h3, h4, fun k hk => ?_⟩
  obtain rfl | hk := Nat.eq_or_lt_of_le hk
  · exact h5
  · exact hhigh k hk

section
variable {s : State} {m p : Nat}

theorem exec_hddSetflags (hm : m ≤ 1) (hp : p ≤ 1) :
    exec (.hddSetflags m p) s = withHd s (fun h => (s.setHd (some { h with
      modified := decide (m = 1), writeProtected := decide (p = 1) })).finish .none) := by
  simp only [exec, execHddSetflags, asBool_eq hm, asBool_eq hp]

theorem exec_hddSetflags_noBool (hmp : 1 < m ∨ 1 < p) :
    exec (.hddSetflags m p) s = .next (s.setRet (.err .badOperand)) := by
  obtain hm | hp := hmp
  · simp only [exec, execHddSetflags, asBool_none.2 hm, raise_eq]
  · simp only [exec, execHddSetflags, asBool_none.2 hp, raise_eq]
    cases asBool m <;> rfl

end

/-- Settles O51: connected, not connected, and an operand that is no bool. -/
theorem hardDiskStatusAndFlags : Obligations.HardDiskStatusAndFlags := by
  refine ⟨fun s h hh => ⟨⟨_, ?_, hdStatus_bits h⟩, withHd_eq hh _, withHd_eq hh _, fun m p hm hp => ?_⟩,
    fun s hh => ⟨exec_hddStat_empty hh, withHd_empty hh _, withHd_empty hh _, fun m p hm hp => ?_⟩,
    fun _ _ _ => exec_hddSetflags_noBool⟩
  · rw [exec_hddStat, hh]
  · rw [exec_hddSetflags hm hp, withHd_eq hh, finish_eq]
  · rw [exec_hddSetflags hm hp, withHd_empty hh, raise_eq]

/-! ### Dirty bits (R227, R228) -/

section
variable {s : State} {h : HardDisk} {b : Nat}

theorem exec_hddDirty {x : Bool} (hh : s.hd = some h) (hb : b < h.geometry.numBlocks) (hx : h.dirty[b]? = some x) :
    exec (.hddDirty b) s = .next (s.setRet (.ok (.bool x))) := by
  simp only [exec, execHddDirty, withHd_eq hh, if_neg (Nat.not_le.2 hb), hx, finish_eq]

theorem exec_hddDirty_range (hh : s.hd = some h) (hb : h.geometry.numBlocks ≤ b) :
    exec (.hddDirty b) s = .next (s.setRet (.err .range)) :=
  (withHd_eq hh _).trans (if_pos hb)

theorem exec_hddClrdirty_all (hh : s.hd = some h) (hb : b = 0xFFFFFFFF) :
    exec (.hddClrdirty b) s =
      .next ((s.setHd (some { h with dirty := h.dirty.map (fun _ => false) })).setRet (.ok .none)) :=
  (withHd_eq hh _).trans (if_pos hb)

theorem exec_hddClrdirty_range (hh : s.hd = some h) (hb : h.geometry.numBlocks ≤ b) (hne : b ≠ 0xFFFFFFFF) :
    exec (.hddClrdirty b) s = .next (s.setRet (.err .range)) :=
  (withHd_eq hh _).trans <| (if_neg hne).trans (if_pos hb)

theorem exec_hddClrdirty_one {dirty : List Bool} (hh : s.hd = some h) (hb : b < h.geometry.numBlocks)
    (hne : b ≠ 0xFFFFFFFF) (hd : setBits? h.dirty b (b + 1) false = some dirty) :
    exec (.hddClrdirty b) s = .next ((s.setHd (some { h with dirty := dirty })).setRet (.ok .none)) := by
  simp only [exec, execHddClrdirty, withHd_eq hh, allBlocks, if_neg hne, if_neg (Nat.not_le.2 hb), hd, finish_eq]

end

/-- One bit of a bitmap cleared. -/
theorem setBits?_one {bits : List Bool} {b : Nat} (hb : b < bits.length) :
    ∃ bits', setBits? bits b (b + 1) false = some bits' ∧ bits'.length = bits.length ∧
      ∀ j, j < bits.length → bits'[j]? = if j = b then some false else bits[j]? := by
  obtain ⟨bits', hset⟩ := setBits?_isSome (Nat.succ_le_of_lt hb) b false
  obtain ⟨-, hlen, hbit⟩ := setBits?_spec hset
  refine ⟨bits', hset, hlen, fun j hj => ?_⟩
  have hiff : (b ≤ j ∧ j < b + 1) ↔ j = b := by omega
  rw [hbit, List.getElem?_eq_getElem hj, Option.map_some]
  simp only [hiff]
  split <;> rfl

/-- Settles O52: every block inside the device has its bit; the operand decides between one bit and all. -/
theorem dirtyBitsReadAndCleared : Obligations.DirtyBitsReadAndCleared := by
  refine ⟨fun s b hh => ⟨withHd_empty hh _, withHd_empty hh _⟩, fun s h b hh w => ⟨fun hb => ?_,
    exec_hddDirty_range hh, exec_hddClrdirty_range hh, fun hb => ?_⟩⟩
  · have hx := List.getElem?_eq_getElem (hb.trans_eq w.dirty_len.symm)
    exact ⟨_, hx, exec_hddDirty hh hb hx⟩
  · by_cases hall : b = 0xFFFFFFFF
    · refine ⟨_, exec_hddClrdirty_all hh hall, List.length_map _, fun j hj => ?_⟩
      rw [if_pos (.inr hall), List.getElem?_map, List.getElem?_eq_getElem hj, Option.map_some]
    · have hlt := hb.resolve_right hall
      obtain ⟨dirty, hset, hlen, hbit⟩ := setBits?_one (hlt.trans_eq w.dirty_len.symm)
      refine ⟨dirty, exec_hddClrdirty_one hh hlt hall hset, hlen, fun j hj => ?_⟩
      simp only [hbit j hj, hall, or_false]

/-! ### The partition table (R225, R226) -/

section
variable {s : State} {h : HardDisk} {pt : List Partition} {plist : List Byte}

theorem exec_hddSetpt_installs (hh : s.hd = some h) (hp : parsePtable plist = some pt)
    (hv : validPtable pt h.geometry = true) :
    exec (.hddSetpt plist) s = .next ((s.setHd (some { h with ptable := pt })).setRet (.ok .none)) := by
  simp only [exec, execHddSetpt, withHd_eq hh, hp, if_pos hv, finish_eq]

theorem exec_hddSetpt_invalid (hh : s.hd = some h) (hp : parsePtable plist = some pt)
    (hv : ¬ validPtable pt h.geometry = true) :
    exec (.hddSetpt plist) s = .next (s.setRet (.err .partition)) := by
  simp only [exec, execHddSetpt, withHd_eq hh, hp, if_neg hv, raise_eq]

theorem exec_hddSetpt_malformed (hh : s.hd = some h) (hp : parsePtable plist = none) :
    exec (.hddSetpt plist) s = .next (s.setRet (.err .badOperand)) := by
  simp only [exec, execHddSetpt, withHd_eq hh, hp, raise_eq]

end

/-- The check of R226: every entry inside the device, and no two that share a cylinder. -/
theorem validPtable_iff (pt : List Partition) (g : HdGeometry) :
    validPtable pt g = true ↔
      (∀ p ∈ pt, p.lowCylinder ≤ p.highCylinder ∧ p.highCylinder < g.cylinders) ∧
      pt.Pairwise (fun p q => ∀ c, ¬ (p.lowCylinder ≤ c ∧ c ≤ p.highCylinder ∧ q.lowCylinder ≤ c ∧
        c ≤ q.highCylinder)) := by
  simp only [validPtable, Bool.and_eq_true, List.all_eq_true, Partition.inside, decide_eq_true_eq, allDisjoint_iff]
  refine and_congr_right fun hin => List.Pairwise.iff_of_mem fun hp hq => ?_
  exact Partition.disjoint_iff (hin _ hp).1 (hin _ hq).1

/-- Settles O53: the list parses back, so that `validPtable_iff` decides; a cut list or a bad flag does not parse. -/
theorem partitionTableIsParsedAndValidated : Obligations.PartitionTableIsParsedAndValidated := by
  intro s h pt hh hfits
  have hparse := parsePtable_ptableBytes hfits
  refine ⟨fun hin hpair => exec_hddSetpt_installs hh hparse ((validPtable_iff ..).2 ⟨hin, hpair⟩), ?_, ?_,
    fun p k hp h0 hk => exec_hddSetpt_malformed hh (parsePtable_cut hfits hp h0 hk),
    fun ranges rest flag hr hf => exec_hddSetpt_malformed hh (parsePtable_flag hfits hr hf)⟩
  · rintro ⟨p, hp, hout⟩
    refine exec_hddSetpt_invalid hh hparse fun hv => ?_
    obtain ⟨hlow, hhigh⟩ := ((validPtable_iff ..).1 hv).1 p hp
    omega
  · exact fun hshare => exec_hddSetpt_invalid hh hparse fun hv => hshare ((validPtable_iff ..).1 hv).2

/-! ### No hard disk (R209, R211) -/

theorem exec_hddWrblk_empty {s : State} (hh : s.hd = none) {v : List Byte} (hl : v.length = 512) (b : Nat) :
    exec (.hddWrblk b v) s = .next (s.setRet (.err .noDevice)) :=
  (if_neg (not_not.2 hl)).trans (withHd_empty hh _)

/-- Settles O43: every command of the list looks for the hard disk first, but `HDD_WRBLK` and `HDD_SETFLAGS`, whose
operands are of their types. -/
theorem disconnectedHardDiskAnswersNoDevice : Obligations.DisconnectedHardDiskAnswersNoDevice := by
  refine ⟨fun s h hh => withHd_eq hh _, fun s hh => ⟨fun o n a b m p v w hm hp hl => ?_,
    fun _ _ => exec_hddWrblk_badLength, exec_hddStat_empty hh⟩⟩
  have hnone := withHd_empty hh
  simp only [List.forall_mem_cons]
  exact ⟨hnone _, hnone _, hnone _, hnone _, exec_hddWrblk_empty hh hl b, hnone _, hnone _, hnone _,
    (exec_hddSetflags hm hp).trans (hnone _), hnone _, hnone _, hnone _, hnone _, List.forall_mem_nil _⟩

end Sys2Proof.Machine
end

section
/-! SUPPORT. The settle delay of the hard disk (43_hard_disk.md R219): what a request that steps has done, and what a run
of ticks makes of a busy hard disk. -/

namespace Sys2Proof.Machine

/-! ### What a request can do -/

/-- A read request answers an error, or enters Reading. -/
theorem exec_hddRead_inv {s t : State} {o n a : Nat} (e : exec (.hddRead o n a) s = .next t) :
    (∃ err, t = s.setRet (.err err)) ∨ ∃ (h : HardDisk) (m : Memory),
      t = ((s.setHostMem m).setHd (some (h.accept .reading (s.now + s.cfg.hdSettle) o))).setRet (.ok .none) := by
  obtain rfl | ⟨h, -, e⟩ := withHd_inv e
  · exact .inl ⟨_, rfl⟩
  · split at e
    · exact .inl ⟨_, raise_inv e⟩
    · split at e
      · cases e
      · exact .inr ⟨h, _, finish_inv e⟩

/-- A write request answers an error, or enters Writing. -/
theorem exec_hddWrite_inv {s t : State} {o n a : Nat} (e : exec (.hddWrite o n a) s = .next t) :
    (∃ err, t = s.setRet (.err err)) ∨ ∃ h : HardDisk,
      t = (s.setHd (some (h.accept .writing (s.now + s.cfg.hdSettle) o))).setRet (.ok .none) := by
  obtain rfl | ⟨h, -, e⟩ := withHd_inv e
  · exact .inl ⟨_, rfl⟩
  · split at e
    · exact .inl ⟨_, raise_inv e⟩
    · split at e
      · split at e
        · cases e
        · exact .inr ⟨_, finish_inv e⟩
      · exact .inr ⟨_, finish_inv e⟩

/-- After an accepted request the hard disk is busy, and its return to Idle is due after the settle delay. -/
theorem request_accepted {s t : State} {i : Instr} {busy : HdState} {o n a : Nat}
    (hi : i = .hddRead o n a ∧ busy = .reading ∨ i = .hddWrite o n a ∧ busy = .writing) (e : exec i s = .next t)
    (hok : t.ret = some (.ok .none)) :
    t.now = s.now ∧ ∃ h, t.hd = some h ∧ h.state = busy ∧ h.idleDue = some (s.now + s.cfg.hdSettle) := by
  obtain ⟨rfl, rfl⟩ | ⟨rfl, rfl⟩ := hi
  · obtain ⟨err, rfl⟩ | ⟨h, m, rfl⟩ := exec_hddRead_inv e
    · cases hok
    · exact ⟨rfl, _, rfl, rfl, rfl⟩
  · obtain ⟨err, rfl⟩ | ⟨h, rfl⟩ := exec_hddWrite_inv e
    · cases hok
    · exact ⟨rfl, _, rfl, rfl, rfl⟩

/-! ### A run of ticks -/

theorem State.ticked_hd (s : State) : s.ticked.hd = s.hd.map (fun h => h.fireIdle (s.now + 1)) := rfl

/-- The hard disk after one tick more. -/
theorem State.ticks_succ_hd {s : State} {m : Nat} {h : HardDisk} (hh : (State.ticked^[m] s).hd = some h) :
    (State.ticked^[m + 1] s).hd = some (h.fireIdle (s.now + (m + 1))) := by
  rw [Function.iterate_succ_apply', State.ticked_hd, hh, s.ticks_now, Nat.add_assoc, Option.map_some]

section
variable {s : State} {h : HardDisk} {due m : Nat}

/-- Before the return to Idle is due, no tick touches the hard disk. -/
theorem State.ticks_hd_busy (hh : s.hd = some h) (hd : h.idleDue = some due) (hm : m = 0 ∨ s.now + m < due) :
    (State.ticked^[m] s).hd = some h := by
  induction m with
  | zero => exact hh
  | succ m ih =>
    rw [State.ticks_succ_hd (ih (by omega)), HardDisk.fireIdle_notDue]
    intro due' hd'
    obtain rfl := Option.some.inj (hd.symm.trans hd')
    omega

/-- Once the return to Idle has been due at a tick, the hard disk is Idle, and later ticks leave it so. -/
theorem State.ticks_hd_idle (hh : s.hd = some h) (hd : h.idleDue = some due) (hm : 1 ≤ m) (hdue : due ≤ s.now + m) :
    (State.ticked^[m] s).hd = some { h with state := .idle, idleDue := none } := by
  induction m, hm using Nat.le_induction with
  | base => rw [State.ticks_succ_hd (m := 0) hh, HardDisk.fireIdle_due hd hdue]
  | succ m hm ih =>
    by_cases hearlier : due ≤ s.now + m
    · rw [State.ticks_succ_hd (ih hearlier)]
      rfl
    · rw [State.ticks_succ_hd (State.ticks_hd_busy hh hd (.inr (Nat.lt_of_not_le hearlier))),
        HardDisk.fireIdle_due hd hdue]

end

/-- Settles O54: the accepted request, and then a run of ticks that has reached the due time or has not. -/
theorem requestSettlesAfterDelay : Obligations.RequestSettlesAfterDelay := by
  intro s t i busy o n a m hi e hok
  obtain ⟨hnow, h, hh, hbusy, hdue⟩ := request_accepted hi e hok
  by_cases hm : m < max 1 s.cfg.hdSettle
  · exact ⟨_, h, execAll_ticks m t, State.ticks_hd_busy hh hdue (by omega), fun _ => ⟨hbusy, hdue⟩,
      fun hle => absurd hm (Nat.not_lt.2 hle)⟩
  · exact ⟨_, _, execAll_ticks m t, State.ticks_hd_idle hh hdue (by omega) (by omega), fun hlt => absurd hlt hm,
      fun _ => ⟨rfl, rfl⟩⟩

end Sys2Proof.Machine
end

section
/-! SUPPORT. The geometry commands (44_geometry.md R250 to R262): what each answers on the descriptor that its selector
selects; the address functions of both kinds of descriptor as inverses of each other. -/

namespace Sys2Proof.Machine

/-! ### The selected descriptor (R257) -/

/-- The selector selects the descriptor. -/
def State.Selects (s : State) (g : Nat) (G : GeoDesc) : Prop := ∀ k, withGeo s g k = k G

theorem State.selects_hd {s : State} {h : HardDisk} (hh : s.hd = some h) : s.Selects 0 (.hd h.geometry) :=
  withGeo_hd hh

theorem State.selects_cbm {g n : Nat} (hg : (g, n) ∈ cbmSelectors) (s : State) : s.Selects g (.cbm n) :=
  withGeo_cbm hg s

/-- A command that answers has a descriptor to answer for, or answers an error. -/
theorem withGeo_inv {s t : State} {g : Nat} {k : GeoDesc → Outcome} (e : withGeo s g k = .next t) :
    (∃ err, t = s.setRet (.err err)) ∨
      ∃ G, s.Selects g G ∧ ((∃ geo, G = .hd geo) ∨ ∃ n, (g, n) ∈ cbmSelectors ∧ G = .cbm n) ∧ k G = .next t := by
  by_cases hbad : 3 < g
  · rw [withGeo_bad hbad] at e
    exact .inl ⟨_, raise_inv e⟩
  by_cases hzero : g = 0
  · subst hzero
    cases hh : s.hd with
    | none =>
      rw [withGeo_noHd hh] at e
      exact .inl ⟨_, raise_inv e⟩
    | some h => exact .inr ⟨_, State.selects_hd hh, .inl ⟨_, rfl⟩, (withGeo_hd hh k).symm.trans e⟩
  · obtain ⟨n, hg⟩ : ∃ n, (g, n) ∈ cbmSelectors := by
      obtain rfl | rfl | rfl : g = 1 ∨ g = 2 ∨ g = 3 := by omega
      · exact ⟨35, by decide⟩
      · exact ⟨40, by decide⟩
      · exact ⟨42, by decide⟩
    exact .inr ⟨_, State.selects_cbm hg s, .inr ⟨n, hg, rfl⟩, (withGeo_cbm hg s k).symm.trans e⟩

/-! ### What each command answers -/

section
variable {s : State} {g : Nat} {G : GeoDesc}

theorem exec_geoNtrk (hG : s.Selects g G) : exec (.geoNtrk g) s = .next (s.setRet (.ok (.num G.numTracks))) :=
  show execGeoNtrk g s = _ from hG _

theorem exec_geoNblk (hG : s.Selects g G) :
    exec (.geoNblk g) s = .next (s.setRet (.ok (.pair G.numBlocks G.numBytes))) :=
  show execGeoNblk g s = _ from hG _

theorem exec_geoNsec {t : Nat} (hG : s.Selects g G) (ht : G.validTrack t = true) :
    exec (.geoNsec g t) s = .next (s.setRet (.ok (.num (G.spt t)))) :=
  show execGeoNsec g t s = _ from (hG _).trans (if_pos ht)

theorem exec_geoNsec_range {t : Nat} (hG : s.Selects g G) (ht : ¬ G.validTrack t = true) :
    exec (.geoNsec g t) s = .next (s.setRet (.err .range)) :=
  show execGeoNsec g t s = _ from (hG _).trans (if_neg ht)

theorem exec_geoCheck (hG : s.Selects g G) (hc : G.checkError s.cfg = none) :
    exec (.geoCheck g) s = .next (s.setRet (.ok .none)) :=
  show execGeoCheck g s = _ from (hG _).trans (by rw [hc]; rfl)

theorem exec_geoCheck_err {e : ErrCode} (hG : s.Selects g G) (hc : G.checkError s.cfg = some e) :
    exec (.geoCheck g) s = .next (s.setRet (.err e)) :=
  show execGeoCheck g s = _ from (hG _).trans (by rw [hc]; rfl)

theorem exec_geoB2ts {b t k : Nat} (hG : s.Selects g G) (hb : G.blockToTs b = some (t, k)) :
    exec (.geoB2ts g b) s = .next (s.setRet (.ok (.pair t k))) :=
  show execGeoB2ts g b s = _ from (hG _).trans (by rw [hb]; rfl)

theorem exec_geoB2ts_range {b : Nat} (hG : s.Selects g G) (hb : G.blockToTs b = none) :
    exec (.geoB2ts g b) s = .next (s.setRet (.err .range)) :=
  show execGeoB2ts g b s = _ from (hG _).trans (by rw [hb]; rfl)

theorem exec_geoTs2b (hG : s.Selects g G) (t k : Nat) :
    exec (.geoTs2b g t k) s = .next (s.setRet (.ok (.optNum (G.tsToBlock t k)))) :=
  show execGeoTs2b g t k s = _ from hG _

theorem exec_geoB2chs {b c n k : Nat} (hG : s.Selects g G) (hb : G.blockToChs b = some (c, n, k)) :
    exec (.geoB2chs g b) s = .next (s.setRet (.ok (.triple c n k))) :=
  show execGeoB2chs g b s = _ from (hG _).trans (by rw [hb]; rfl)

theorem exec_geoB2chs_range {b : Nat} (hG : s.Selects g G) (hb : G.blockToChs b = none) :
    exec (.geoB2chs g b) s = .next (s.setRet (.err .range)) :=
  show execGeoB2chs g b s = _ from (hG _).trans (by rw [hb]; rfl)

theorem exec_geoChs2b (hG : s.Selects g G) (c n k : Nat) :
    exec (.geoChs2b g c n k) s = .next (s.setRet (.ok (.optNum (G.chsToBlock c n k)))) :=
  show execGeoChs2b g c n k s = _ from hG _

end

theorem exec_geoZone {s : State} {t z : Nat} (hz : speedZone t = some z) :
    exec (.geoZone t) s = .next (s.setRet (.ok (.num z))) := by
  show execGeoZone t s = _
  rw [execGeoZone, hz]
  rfl

theorem exec_geoZone_range {s : State} {t : Nat} (hz : speedZone t = none) :
    exec (.geoZone t) s = .next (s.setRet (.err .range)) := by
  show execGeoZone t s = _
  rw [execGeoZone, hz]
  rfl

/-- The selector operand of the commands that select a descriptor before anything else (R257). -/
def geoSelector : Instr → Option Nat
  | .geoNtrk g | .geoNblk g | .geoNsec g _ | .geoCheck g | .geoB2ts g _ | .geoTs2b g _ _ | .geoB2chs g _
  | .geoChs2b g _ _ _ => some g
  | _ => none

theorem exec_eq_withGeo {i : Instr} {g : Nat} (h : geoSelector i = some g) (s : State) :
    ∃ k, exec i s = withGeo s g k := by
  cases i with
  | geoNtrk => cases h; exact ⟨_, show execGeoNtrk g s = _ from rfl⟩
  | geoNblk => cases h; exact ⟨_, show execGeoNblk g s = _ from rfl⟩
  | geoNsec _ t => cases h; exact ⟨_, show execGeoNsec g t s = _ from rfl⟩
  | geoCheck => cases h; exact ⟨_, show execGeoCheck g s = _ from rfl⟩
  | geoB2ts _ b => cases h; exact ⟨_, show execGeoB2ts g b s = _ from rfl⟩
  | geoTs2b _ t k => cases h; exact ⟨_, show execGeoTs2b g t k s = _ from rfl⟩
  | geoB2chs _ b => cases h; exact ⟨_, show execGeoB2chs g b s = _ from rfl⟩
  | geoChs2b _ c n k => cases h; exact ⟨_, show execGeoChs2b g c n k s = _ from rfl⟩
  | _ => cases h

theorem exec_geo_badSelector {i : Instr} {g : Nat} (h : geoSelector i = some g) (hg : 3 < g) (s : State) :
    exec i s = .next (s.setRet (.err .badOperand)) := by
  obtain ⟨k, e⟩ := exec_eq_withGeo h s
  exact e.trans (withGeo_bad hg s k)

theorem exec_geo_noHardDisk {i : Instr} (h : geoSelector i = some 0) {s : State} (hh : s.hd = none) :
    exec i s = .next (s.setRet (.err .noDevice)) := by
  obtain ⟨k, e⟩ := exec_eq_withGeo h s
  exact e.trans (withGeo_noHd hh k)

/-! ### Zones and checks (R259, R262) -/

theorem speedZone_of_mem {t z : Nat}
    (h : 1 ≤ t ∧ t ≤ 17 ∧ z = 3 ∨ 18 ≤ t ∧ t ≤ 24 ∧ z = 2 ∨ 25 ≤ t ∧ t ≤ 30 ∧ z = 1 ∨ 31 ≤ t ∧ t ≤ 42 ∧ z = 0) :
    speedZone t = some z := by
  unfold speedZone
  obtain ⟨h1, h2, rfl⟩ | ⟨h1, h2, rfl⟩ | ⟨h1, h2, rfl⟩ | ⟨h1, h2, rfl⟩ := h
  · rw [if_pos (by omega)]
  · rw [if_neg (by omega), if_pos (by omega)]
  · rw [if_neg (by omega), if_neg (by omega), if_pos (by omega)]
  · rw [if_neg (by omega), if_neg (by omega), if_neg (by omega), if_pos (by omega)]

theorem speedZone_outside {t : Nat} (h : t = 0 ∨ 42 < t) : speedZone t = none := by
  unfold speedZone
  rw [if_neg (by omega), if_neg (by omega), if_neg (by omega), if_neg (by omega)]

theorem GeoDesc.checkError_hd_bsize (c : Config) {g : HdGeometry} (h : g.bsize ≠ 512) :
    (GeoDesc.hd g).checkError c = some .blockSize := if_pos h

theorem GeoDesc.checkError_hd (c : Config) {g : HdGeometry} (h : g.bsize = 512) :
    (GeoDesc.hd g).checkError c = if c.geometryOk g = true then none else some .geometryUnsupported :=
  if_neg (not_not.2 h)

theorem GeoDesc.checkError_cbm {g n : Nat} (hg : (g, n) ∈ cbmSelectors) (c : Config) :
    (GeoDesc.cbm n).checkError c = none := by
  have hcount : (GeoDesc.cbm n).numBlocks ∈ [683, 768, 802] := by
    rw [GeoDesc.numBlocks_cbm hg]
    obtain ⟨-, rfl⟩ | ⟨-, rfl⟩ | ⟨-, rfl⟩ := cbmSelectors_cases hg <;> decide
  have hsize : (GeoDesc.cbm n).bsize = cbmBlockSize := rfl
  rw [GeoDesc.checkError, if_neg (not_not.2 hsize), if_pos hcount]

/-- `GEO_NBLK` on a CBM disk, with its blocks of 256 bytes. -/
theorem exec_geoNblk_cbm {g n : Nat} (hg : (g, n) ∈ cbmSelectors) (s : State) :
    exec (.geoNblk g) s =
      .next (s.setRet (.ok (.pair (cbmTrackStart (n + 1)) (cbmTrackStart (n + 1) * 256)))) := by
  rw [exec_geoNblk (State.selects_cbm hg s), GeoDesc.numBytes, GeoDesc.numBlocks_cbm hg]
  rfl

theorem exec_geoNblk_hd {s : State} {h : HardDisk} (hh : s.hd = some h) :
    exec (.geoNblk 0) s = .next (s.setRet (.ok (.pair h.geometry.numBlocks h.geometry.numBytes))) := by
  rw [exec_geoNblk (State.selects_hd hh), GeoDesc.numBytes, GeoDesc.numBlocks_hd]
  rfl

theorem exec_geoNtrk_cbm {g n : Nat} (hg : (g, n) ∈ cbmSelectors) (s : State) :
    exec (.geoNtrk g) s = .next (s.setRet (.ok (.num n))) := by
  have hone : (GeoDesc.cbm n).numTracks = n := Nat.mul_one n
  rw [exec_geoNtrk (State.selects_cbm hg s), hone]

theorem exec_geoNsec_cbm {g n t : Nat} (hg : (g, n) ∈ cbmSelectors) (s : State) (h1 : 1 ≤ t) (h2 : t ≤ n) :
    exec (.geoNsec g t) s = .next (s.setRet (.ok (.num (cbmTrackSectors t)))) := by
  rw [exec_geoNsec (State.selects_cbm hg s) ((GeoDesc.validTrack_cbm n t).2 ⟨h1, h2⟩), ← cbmSectors_eq]
  rfl

/-- Settles O55: the sizes by the closed forms of the descriptors, zone and check by their tables. -/
theorem geometrySizesAndZones : Obligations.GeometrySizesAndZones := by
  intro s t
  refine ⟨fun h hh => ?hardDisk, fun g n hg => ?cbm, exec_geoNblk_cbm (n := 35) (by decide) s,
    exec_geoNblk_cbm (n := 40) (by decide) s, exec_geoNblk_cbm (n := 42) (by decide) s,
    fun z hz => exec_geoZone (speedZone_of_mem hz),
    fun ht => exec_geoZone_range (speedZone_outside ht), fun g hg i hi => ?badSelector, fun hh i hi => ?noHardDisk⟩
  case hardDisk =>
    have hG := State.selects_hd hh
    refine ⟨exec_geoNtrk hG, exec_geoNblk_hd hh, fun ht => ?_, fun ht => ?_, fun hb => ?_, fun hb hok => ?_,
      fun hb hok => ?_⟩
    · exact exec_geoNsec hG ((GeoDesc.validTrack_hd h.geometry t).2 ht)
    · exact exec_geoNsec_range hG (mt (GeoDesc.validTrack_hd h.geometry t).1 (by omega))
    · exact exec_geoCheck_err hG (GeoDesc.checkError_hd_bsize s.cfg hb)
    · exact exec_geoCheck hG ((GeoDesc.checkError_hd s.cfg hb).trans (by rw [if_pos hok]))
    · exact exec_geoCheck_err hG ((GeoDesc.checkError_hd s.cfg hb).trans (by rw [if_neg (by simp [hok])]))
  case cbm =>
    have hG := State.selects_cbm hg s
    exact ⟨exec_geoNtrk_cbm hg s, exec_geoCheck hG (GeoDesc.checkError_cbm hg s.cfg),
      exec_geoNsec_cbm hg s, fun ht => exec_geoNsec_range hG (mt (GeoDesc.validTrack_cbm n t).1 (by omega))⟩
  case badSelector =>
    simp only [List.mem_cons, List.not_mem_nil, or_false] at hi
    have hsel : geoSelector i = some g := by obtain rfl | rfl | rfl | rfl := hi <;> rfl
    exact exec_geo_badSelector hsel hg s
  case noHardDisk =>
    simp only [List.mem_cons, List.not_mem_nil, or_false] at hi
    have hsel : geoSelector i = some 0 := by obtain rfl | rfl | rfl | rfl := hi <;> rfl
    exact exec_geo_noHardDisk hsel hh

/-! ### The address functions on a CBM disk (R252 to R256) -/

/-- No block from the descriptor's size on has a track and sector (R253). -/
theorem GeoDesc.blockToTs_eq_none {G : GeoDesc} {b : Nat} (h : G.numBlocks ≤ b) : G.blockToTs b = none := if_pos h

theorem GeoDesc.lt_numBlocks_of_blockToTs {G : GeoDesc} {b : Nat} {p : Nat × Nat} (e : G.blockToTs b = some p) :
    b < G.numBlocks := by
  by_contra hle
  rw [GeoDesc.blockToTs_eq_none (Nat.not_lt.1 hle)] at e
  cases e

/-- Cylinder and head of a block come from its track (R255). -/
theorem GeoDesc.blockToChs_eq (G : GeoDesc) (b : Nat) :
    G.blockToChs b = (G.blockToTs b).map fun p =>
      ((p.1 - G.firstTrack) / G.heads, (p.1 - G.firstTrack) % G.heads, p.2) := by
  unfold GeoDesc.blockToChs
  cases G.blockToTs b <;> rfl

theorem GeoDesc.blockToChs_eq_none {G : GeoDesc} {b : Nat} (h : G.numBlocks ≤ b) : G.blockToChs b = none := by
  rw [GeoDesc.blockToChs_eq, GeoDesc.blockToTs_eq_none h, Option.map_none]

/-- `chsToBlock` is `trackSectorToBlock` on the track of cylinder and head, where both exist (R256). -/
theorem GeoDesc.chsToBlock_eq (G : GeoDesc) (c n k : Nat) :
    G.chsToBlock c n k =
      if c < G.cylinders ∧ n < G.heads then G.tsToBlock (G.firstTrack + c * G.heads + n) k else none := by
  unfold GeoDesc.chsToBlock
  by_cases h : c < G.cylinders ∧ n < G.heads
  · rw [if_pos h, if_neg (by omega)]
  · rw [if_neg h, if_pos (by omega)]

theorem GeoDesc.chsToBlock_cbm (m c n k : Nat) :
    (GeoDesc.cbm m).chsToBlock c n k =
      if c < m ∧ n < 1 then (GeoDesc.cbm m).tsToBlock (1 + c * 1 + n) k else none := GeoDesc.chsToBlock_eq _ _ _ _

theorem GeoDesc.blockToChs_cbm {g n t k : Nat} (hg : (g, n) ∈ cbmSelectors) (h1 : 1 ≤ t) (h2 : t ≤ n)
    (h3 : k < cbmTrackSectors t) : (GeoDesc.cbm n).blockToChs (cbmTrackStart t + k) = some (t - 1, 0, k) := by
  rw [GeoDesc.blockToChs_eq, GeoDesc.blockToTs_cbm hg h1 h2 h3]
  show some ((t - 1) / 1, (t - 1) % 1, k) = _
  rw [Nat.div_one, Nat.mod_one]

/-- Settles O56: the closed forms of the four address functions on a CBM disk. -/
theorem cbmAddressesTranslate : Obligations.CbmAddressesTranslate := by
  intro s g n t k hg
  have hG := State.selects_cbm hg s
  have hn := cbmSelectors_le hg
  refine ⟨fun h1 h2 h3 => ?inside, fun ht => ?noTrackSector, fun c hd hc => ?noChs, fun b hb => ?noBlock⟩
  case inside =>
    have hts : (GeoDesc.cbm n).tsToBlock t k = some (cbmTrackStart t + k) := by
      rw [GeoDesc.tsToBlock_cbm hn, if_pos ⟨⟨h1, h2⟩, h3⟩]
    have hchs : (GeoDesc.cbm n).chsToBlock (t - 1) 0 k = some (cbmTrackStart t + k) := by
      rw [GeoDesc.chsToBlock_cbm, if_pos (by omega), show 1 + (t - 1) * 1 + 0 = t by omega, hts]
    refine ⟨?_, exec_geoB2ts hG (GeoDesc.blockToTs_cbm hg h1 h2 h3),
      exec_geoB2chs hG (GeoDesc.blockToChs_cbm hg h1 h2 h3), ?_⟩
    · rw [exec_geoTs2b hG, hts]
    · rw [exec_geoChs2b hG, hchs]
  case noTrackSector => rw [exec_geoTs2b hG, GeoDesc.tsToBlock_cbm hn, if_neg (by omega)]
  case noChs =>
    rw [exec_geoChs2b hG, GeoDesc.chsToBlock_cbm]
    by_cases hin : c < n ∧ hd < 1
    · rw [if_pos hin, show 1 + c * 1 + hd = c + 1 by omega, GeoDesc.tsToBlock_cbm hn, if_neg (by omega)]
    · rw [if_neg hin]
  case noBlock =>
    have hsize : (GeoDesc.cbm n).numBlocks ≤ b := by rwa [GeoDesc.numBlocks_cbm hg]
    exact ⟨exec_geoB2ts_range hG (GeoDesc.blockToTs_eq_none hsize),
      exec_geoB2chs_range hG (GeoDesc.blockToChs_eq_none hsize)⟩

/-! ### The address functions on the hard disk -/

/-- Settles O57: the closed forms of the four address functions on the hard disk, and the refused selectors. -/
theorem hardDiskAddressesTranslate : Obligations.HardDiskAddressesTranslate := by
  refine ⟨fun s h b c n k hh => ?translate, fun s g b c n k i hi => ?refused⟩
  case translate =>
    have hG := State.selects_hd hh
    refine ⟨fun hb => ⟨exec_geoB2ts hG ?_, exec_geoB2chs hG ?_⟩, fun hb => ⟨exec_geoB2ts_range hG ?_,
      exec_geoB2chs_range hG ?_⟩, fun hc hk => ?_, fun ho => ?_, fun hc hn hk => ?_, fun ho => ?_⟩
    · rw [GeoDesc.blockToTs_hd, if_neg (by omega)]
    · rw [GeoDesc.blockToChs_hd, if_neg (by omega)]
    · rw [GeoDesc.blockToTs_hd, if_pos hb]
    · rw [GeoDesc.blockToChs_hd, if_pos hb]
    · rw [exec_geoTs2b hG, GeoDesc.tsToBlock_hd, if_pos ⟨hc, hk⟩]
    · rw [exec_geoTs2b hG, GeoDesc.tsToBlock_hd, if_neg (by omega)]
    · rw [exec_geoChs2b hG, GeoDesc.chsToBlock_hd, if_pos ⟨hc, hn, hk⟩]
    · rw [exec_geoChs2b hG, GeoDesc.chsToBlock_hd, if_neg (by omega)]
  case refused =>
    simp only [List.mem_cons, List.not_mem_nil, or_false] at hi
    have hsel : geoSelector i = some g := by obtain rfl | rfl | rfl | rfl := hi <;> rfl
    refine ⟨fun hg => exec_geo_badSelector hsel hg s, ?_⟩
    rintro rfl hh
    exact exec_geo_noHardDisk hsel hh

/-! ### One to one (R258) -/

/-- Block to track and sector, and back, are inverse to each other. -/
def GeoDesc.TsInverse (G : GeoDesc) : Prop := ∀ b t k, G.blockToTs b = some (t, k) ↔ G.tsToBlock t k = some b

theorem GeoDesc.tsInverse_hd (g : HdGeometry) : (GeoDesc.hd g).TsInverse := by
  intro b t k
  rw [GeoDesc.blockToTs_hd, GeoDesc.tsToBlock_hd, Option.ite_none_left_eq_some, Option.ite_none_right_eq_some,
    Option.some.injEq, Option.some.injEq, Prod.mk.injEq, Nat.not_le, HdGeometry.numBlocks]
  constructor
  · rintro ⟨hb, rfl, rfl⟩
    have hpos : 0 < g.sectors := Nat.pos_of_mul_pos_left (Nat.zero_lt_of_lt hb)
    exact ⟨⟨(Nat.div_lt_iff_lt_mul hpos).2 hb, Nat.mod_lt _ hpos⟩, Nat.div_add_mod' b g.sectors⟩
  · rintro ⟨⟨ht, hk⟩, rfl⟩
    refine ⟨?_, ?_, ?_⟩
    · calc t * g.sectors + k < t * g.sectors + g.sectors := by omega
        _ = (t + 1) * g.sectors := by rw [Nat.add_mul, Nat.one_mul]
        _ ≤ _ := Nat.mul_le_mul_right _ ht
    · rw [Nat.add_comm, Nat.add_mul_div_right _ _ (by omega), Nat.div_eq_of_lt hk, Nat.zero_add]
    · rw [Nat.add_comm, Nat.add_mul_mod_self_right, Nat.mod_eq_of_lt hk]

theorem GeoDesc.tsInverse_cbm {g n : Nat} (hg : (g, n) ∈ cbmSelectors) : (GeoDesc.cbm n).TsInverse := by
  intro b t k
  have hn := cbmSelectors_le hg
  rw [GeoDesc.tsToBlock_cbm hn, Option.ite_none_right_eq_some, Option.some.injEq]
  constructor
  · intro e
    have hb : b < cbmTrackStart (n + 1) := GeoDesc.numBlocks_cbm hg ▸ GeoDesc.lt_numBlocks_of_blockToTs e
    obtain ⟨t', k', h1, h2, h3, rfl⟩ := exists_cbmTrackStart_add hn hb
    rw [GeoDesc.blockToTs_cbm hg h1 h2 h3] at e
    cases e
    exact ⟨⟨⟨h1, h2⟩, h3⟩, rfl⟩
  · rintro ⟨⟨⟨h1, h2⟩, h3⟩, rfl⟩
    exact GeoDesc.blockToTs_cbm hg h1 h2 h3

section
variable {G : GeoDesc}

theorem GeoDesc.exists_blockToTs {b : Nat} (hb : b < G.numBlocks) : ∃ t k, G.blockToTs b = some (t, k) := by
  unfold GeoDesc.blockToTs
  rw [if_neg (by omega)]
  cases G with
  | hd g => exact ⟨_, _, rfl⟩
  | cbm n => exact ⟨_, _, rfl⟩

theorem GeoDesc.lt_numBlocks_of_blockToChs {b : Nat} {p : Nat × Nat × Nat} (e : G.blockToChs b = some p) :
    b < G.numBlocks := by
  rw [GeoDesc.blockToChs_eq, Option.map_eq_some_iff] at e
  obtain ⟨q, hq, -⟩ := e
  exact GeoDesc.lt_numBlocks_of_blockToTs hq

/-- A track with a block is one of the descriptor's (R254). -/
theorem GeoDesc.track_of_tsToBlock {t k b : Nat} (e : G.tsToBlock t k = some b) :
    G.firstTrack ≤ t ∧ t - G.firstTrack < G.cylinders * G.heads := by
  unfold GeoDesc.tsToBlock at e
  simp only [Option.ite_none_right_eq_some, Bool.and_eq_true, GeoDesc.validTrack, decide_eq_true_eq] at e
  obtain ⟨⟨⟨hlo, hhi⟩, -⟩, -⟩ := e
  exact ⟨hlo, show t - G.firstTrack < G.numTracks by omega⟩

/-- Where track and sector translate to and fro, cylinder, head and sector do: a track is its cylinder and head. -/
theorem GeoDesc.TsInverse.chs (hG : G.TsInverse) (b c n k : Nat) :
    G.blockToChs b = some (c, n, k) ↔ G.chsToBlock c n k = some b := by
  rw [GeoDesc.blockToChs_eq, GeoDesc.chsToBlock_eq, Option.map_eq_some_iff, Option.ite_none_right_eq_some]
  constructor
  · rintro ⟨⟨t, k'⟩, hts, e⟩
    cases e
    have hback := (hG b t k').1 hts
    obtain ⟨hlo, hhi⟩ := GeoDesc.track_of_tsToBlock hback
    have hpos : 0 < G.heads := Nat.pos_of_mul_pos_left (Nat.zero_lt_of_lt hhi)
    refine ⟨⟨(Nat.div_lt_iff_lt_mul hpos).2 hhi, Nat.mod_lt _ hpos⟩, ?_⟩
    rw [Nat.add_assoc, Nat.div_add_mod', Nat.add_sub_cancel' hlo, hback]
  · rintro ⟨⟨hc, hn⟩, e⟩
    refine ⟨(_, k), (hG b _ k).2 e, ?_⟩
    have hsub : G.firstTrack + c * G.heads + n - G.firstTrack = n + c * G.heads := by omega
    rw [hsub, Nat.add_mul_div_right _ _ (by omega), Nat.div_eq_of_lt hn, Nat.add_mul_mod_self_right,
      Nat.mod_eq_of_lt hn, Nat.zero_add]

theorem GeoDesc.exists_blockToChs {b : Nat} (hb : b < G.numBlocks) : ∃ c n k, G.blockToChs b = some (c, n, k) := by
  obtain ⟨t, k, e⟩ := GeoDesc.exists_blockToTs hb
  exact ⟨_, _, _, by rw [GeoDesc.blockToChs_eq, e, Option.map_some]⟩

end

/-- What `GEO_NBLK` counts are the blocks of a descriptor whose address functions are inverse to each other. -/
theorem geoNblk_counts {s : State} {g total size : Nat}
    (e : exec (.geoNblk g) s = .next (s.setRet (.ok (.pair total size)))) :
    ∃ G, s.Selects g G ∧ G.TsInverse ∧ total = G.numBlocks := by
  obtain ⟨err, h⟩ | ⟨G, hG, hkind, h⟩ := withGeo_inv (show execGeoNblk g s = _ from e)
  · cases congrArg State.ret h
  · have hcount := congrArg State.ret (finish_inv h)
    cases hcount
    refine ⟨G, hG, ?_, rfl⟩
    obtain ⟨geo, rfl⟩ | ⟨n, hg, rfl⟩ := hkind
    · exact GeoDesc.tsInverse_hd geo
    · exact GeoDesc.tsInverse_cbm hg

/-- An answer of `GEO_TS2B` is the translation's. -/
theorem geoTs2b_inv {s : State} {g t k b : Nat} {G : GeoDesc} (hG : s.Selects g G)
    (e : exec (.geoTs2b g t k) s = .next (s.setRet (.ok (.optNum (some b))))) : G.tsToBlock t k = some b := by
  rw [exec_geoTs2b hG] at e
  simpa [State.setRet] using e

/-- An answer of `GEO_CHS2B` is the translation's. -/
theorem geoChs2b_inv {s : State} {g c n k b : Nat} {G : GeoDesc} (hG : s.Selects g G)
    (e : exec (.geoChs2b g c n k) s = .next (s.setRet (.ok (.optNum (some b))))) : G.chsToBlock c n k = some b := by
  rw [exec_geoChs2b hG] at e
  simpa [State.setRet] using e

/-- Settles O58: the address functions of the descriptor that answers are inverse to each other, over the blocks that it
counts. -/
theorem blockAddressesAreBijective : Obligations.BlockAddressesAreBijective := by
  intro s g total size e
  obtain ⟨G, hG, hinv, rfl⟩ := geoNblk_counts e
  refine ⟨fun b hb => ⟨?_, ?_⟩, fun t k b hts => ?_, fun c n k b hchs => ?_⟩
  · obtain ⟨t, k, h⟩ := GeoDesc.exists_blockToTs hb
    exact ⟨t, k, exec_geoB2ts hG h, by rw [exec_geoTs2b hG, (hinv b t k).1 h]⟩
  · obtain ⟨c, n, k, h⟩ := GeoDesc.exists_blockToChs hb
    exact ⟨c, n, k, exec_geoB2chs hG h, by rw [exec_geoChs2b hG, (hinv.chs b c n k).1 h]⟩
  · have h := (hinv b t k).2 (geoTs2b_inv hG hts)
    exact ⟨GeoDesc.lt_numBlocks_of_blockToTs h, exec_geoB2ts hG h⟩
  · have h := (hinv.chs b c n k).2 (geoChs2b_inv hG hchs)
    exact ⟨GeoDesc.lt_numBlocks_of_blockToChs h, exec_geoB2chs hG h⟩

end Sys2Proof.Machine
end

section
/-! SUPPORT. `GEO_NEXT` (44_geometry.md R261, R263): the table of each track, the next reference, and the walk of a
whole disk as the walks of its tracks one after another. -/

namespace Sys2Proof.Machine

/-! ### The command -/

section
variable {s : State} {g n t k : Nat}

theorem exec_geoNext_badSelector (hg : g = 0 ∨ 3 < g) (s : State) (t k : Nat) :
    exec (.geoNext g t k) s = .next (s.setRet (.err .badOperand)) := by
  show execGeoNext g t k s = _
  unfold execGeoNext
  by_cases h0 : g = 0
  · rw [if_pos h0]
    rfl
  · rw [if_neg h0, withGeo_bad (hg.resolve_left h0)]
    rfl

/-- `GEO_NEXT` on a CBM disk: the next reference, of a valid one. -/
theorem exec_geoNext_cbm (hg : (g, n) ∈ cbmSelectors) (s : State) (t k : Nat) :
    exec (.geoNext g t k) s = if (1 ≤ t ∧ t ≤ n) ∧ k < cbmTrackSectors t then
      .next (s.setRet (.ok (.pair (nextBlockRef s.cfg n t k).1 (nextBlockRef s.cfg n t k).2)))
      else .next (s.setRet (.err .range)) := by
  have h0 : g ≠ 0 := by
    rintro rfl
    exact absurd (cbmSelectors_cases hg) (by omega)
  have htracks : (GeoDesc.cbm n).numTracks = n := Nat.mul_one n
  show execGeoNext g t k s = _
  rw [execGeoNext, if_neg h0, withGeo_cbm hg]
  simp only [Bool.and_eq_true, decide_eq_true_eq, GeoDesc.validTrack_cbm, GeoDesc.spt, cbmSectors_eq, htracks]
  rfl

theorem exec_geoNext (hg : (g, n) ∈ cbmSelectors) (h1 : 1 ≤ t) (h2 : t ≤ n) (h3 : k < cbmTrackSectors t)
    {r : Nat × Nat} (hr : nextBlockRef s.cfg n t k = r) :
    exec (.geoNext g t k) s = .next (s.setRet (.ok (.pair r.1 r.2))) := by
  rw [exec_geoNext_cbm hg, if_pos ⟨⟨h1, h2⟩, h3⟩, hr]

end

/-! ### The next reference (R261) -/

/-- The interleave table of a track (R263), written out by track. -/
def interleaveTable (c : Config) (t : Nat) : List Nat :=
  if t = 18 then c.cbmDirNext else if t ≤ 17 then c.cbmNext3
  else if t ≤ 24 then c.cbmNext2 else if t ≤ 30 then c.cbmNext1 else c.cbmNext0

/-- The interleave of a track reads the track's table: zone 3 to 0 have tables of their own, track 18 the
directory's. -/
theorem interleaveNext_eq (c : Config) {t : Nat} (h1 : 1 ≤ t) (h2 : t ≤ 42) (k : Nat) :
    interleaveNext c t k = (interleaveTable c t).getD k 0 := by
  unfold interleaveNext interleaveTable
  by_cases h18 : t = 18
  · rw [if_pos h18, if_pos h18]
  rw [if_neg h18, if_neg h18]
  by_cases h17 : t ≤ 17
  · rw [speedZone_of_mem (z := 3) (by omega), if_pos h17]
    rfl
  rw [if_neg h17]
  by_cases h24 : t ≤ 24
  · rw [speedZone_of_mem (z := 2) (by omega), if_pos h24]
    rfl
  rw [if_neg h24]
  by_cases h30 : t ≤ 30
  · rw [speedZone_of_mem (z := 1) (by omega), if_pos h30]
    rfl
  · rw [speedZone_of_mem (z := 0) (by omega), if_neg h30]
    rfl

section
variable {c : Config} {n t k : Nat}

theorem nextBlockRef_sameTrack (h1 : 1 ≤ t) (h2 : t ≤ 42) (h : (interleaveTable c t).getD k 0 ≠ 0) :
    nextBlockRef c n t k = (t, (interleaveTable c t).getD k 0) := by
  rw [nextBlockRef, interleaveNext_eq c h1 h2, if_pos h]

/-- Where the interleave is back at sector 0: the sentinel after the last track, else the next track, past track 18. -/
theorem nextBlockRef_trackEnd (h1 : 1 ≤ t) (h2 : t ≤ 42) (h : (interleaveTable c t).getD k 0 = 0) :
    nextBlockRef c n t k = if t = n then (0, 0) else if t = 17 then (19, 0) else (t + 1, 0) := by
  rw [nextBlockRef, interleaveNext_eq c h1 h2, if_neg (not_not.2 h)]

end

/-- Settles O59: the next reference, case by case. -/
theorem nextBlockFollowsInterleave : Obligations.NextBlockFollowsInterleave := by
  intro s g t k
  refine ⟨fun hg => exec_geoNext_badSelector hg s t k, fun n hg => ⟨fun hout => ?_, fun h1 h2 h3 => ?_⟩⟩
  · rw [exec_geoNext_cbm hg, if_neg (by omega)]
  · have hn := cbmSelectors_le hg
    have h42 := h2.trans hn
    refine ⟨fun hne => exec_geoNext hg h1 h2 h3 (nextBlockRef_sameTrack h1 h42 hne), fun h0 hlast => ?_,
      fun h0 h17 => ?_, fun h0 hlast h17 => ?_⟩
    · exact exec_geoNext hg h1 h2 h3 ((nextBlockRef_trackEnd h1 h42 h0).trans (if_pos hlast))
    · have hlast : t ≠ n := by have := cbmSelectors_cases hg; omega
      exact exec_geoNext hg h1 h2 h3
        ((nextBlockRef_trackEnd h1 h42 h0).trans ((if_neg hlast).trans (if_pos h17)))
    · exact exec_geoNext hg h1 h2 h3
        ((nextBlockRef_trackEnd h1 h42 h0).trans ((if_neg hlast).trans (if_neg h17)))

/-! ### The walk of one track -/

/-- Every table that an accepted configuration has for a track is a single cycle through the track's sectors (R263). -/
theorem isSingleCycle_interleaveTable {c : Config} (hc : c.wf = true) {t : Nat} (h1 : 1 ≤ t) (h2 : t ≤ 42) :
    isSingleCycle (cbmTrackSectors t) (interleaveTable c t) = true := by
  simp only [Config.wf, Bool.and_eq_true] at hc
  obtain ⟨⟨⟨⟨⟨⟨-, hzone0⟩, hzone1⟩, hzone2⟩, hzone3⟩, hdir⟩, -⟩ := hc
  unfold interleaveTable cbmTrackSectors
  rw [if_neg (by omega)]
  by_cases h18 : t = 18
  · subst h18
    exact hdir
  rw [if_neg h18]
  split
  · exact hzone3
  split
  · exact hzone2
  split
  · exact hzone1
  · exact hzone0

/-- The references of a track in the order of its table, from sector 0. -/
def trackWalk (c : Config) (t : Nat) : List (Nat × Nat) :=
  (tableWalk (interleaveTable c t) (cbmTrackSectors t) 0).map (Prod.mk t)

/-- The references are those of the track, from sector 0, each once; `GEO_NEXT` leads from each to the one after it,
and the interleave is back at 0 after the last. -/
structure TrackWalked (c : Config) (n t : Nat) (refs : List (Nat × Nat)) : Prop where
  head : refs.head? = some (t, 0)
  mem : ∀ p, p ∈ refs ↔ p.1 = t ∧ p.2 < cbmTrackSectors t
  nodup : refs.Nodup
  chain : refs.IsChain fun p q => nextBlockRef c n p.1 p.2 = q
  last : ∀ p ∈ refs.getLast?,
    nextBlockRef c n p.1 p.2 = if t = n then (0, 0) else if t = 17 then (19, 0) else (t + 1, 0)

theorem TrackWalked.ne_nil {c : Config} {n t : Nat} {refs : List (Nat × Nat)} (w : TrackWalked c n t refs) :
    refs ≠ [] := by
  rintro rfl
  cases w.head

theorem trackWalked {c : Config} (hc : c.wf = true) (n : Nat) {t : Nat} (h1 : 1 ≤ t) (h2 : t ≤ 42) :
    TrackWalked c n t (trackWalk c t) := by
  have hpos : 0 < cbmTrackSectors t := by unfold cbmTrackSectors; split_ifs <;> omega
  have hcycle := walkCycle_of_isSingleCycle hpos (isSingleCycle_interleaveTable hc h1 h2)
  refine ⟨?head, ?mem, ?nodup, ?chain, ?last⟩
  case head => rw [trackWalk, List.head?_map, hcycle.hd, Option.map_some]
  case mem =>
    rintro ⟨u, k⟩
    simp only [trackWalk, List.mem_map, hcycle.mem, Prod.mk.injEq]
    constructor
    · rintro ⟨k', hk, rfl, rfl⟩
      exact ⟨rfl, hk⟩
    · rintro ⟨rfl, hk⟩
      exact ⟨k, hk, rfl, rfl⟩
  case nodup => exact hcycle.nodup.map (Prod.mk_right_injective t)
  case chain =>
    rw [trackWalk, List.isChain_map, List.isChain_iff_getElem]
    intro j hj
    obtain ⟨hnext, hne⟩ := hcycle.next j _ _ (List.getElem?_eq_getElem _) (List.getElem?_eq_getElem hj)
    rw [nextBlockRef_sameTrack h1 h2 (hnext ▸ hne), hnext]
  case last =>
    intro p hp
    rw [trackWalk, List.getLast?_map, Option.mem_map] at hp
    obtain ⟨k, hk, rfl⟩ := hp
    exact nextBlockRef_trackEnd h1 h2 (hcycle.last k hk)

/-! ### The walk of a disk -/

/-- The tracks of a CBM disk but the directory's, in order. -/
def walkedTracks (n : Nat) : List Nat := (List.range' 1 n).filter (· ≠ 18)

theorem mem_walkedTracks {n t : Nat} : t ∈ walkedTracks n ↔ 1 ≤ t ∧ t ≤ n ∧ t ≠ 18 := by
  simp only [walkedTracks, List.mem_filter, List.mem_range'_1, decide_eq_true_eq]
  omega

/-- The order of the tracks: from track 1 to the last, each but the last followed by the next, track 17 by 19. -/
theorem walkedTracks_order {g n : Nat} (hg : (g, n) ∈ cbmSelectors) :
    (walkedTracks n).head? = some 1 ∧ (walkedTracks n).getLast? = some n ∧
      (walkedTracks n).IsChain fun t u => t ≠ n ∧ u = if t = 17 then 19 else t + 1 := by
  obtain ⟨-, rfl⟩ | ⟨-, rfl⟩ | ⟨-, rfl⟩ := cbmSelectors_cases hg <;> decide

/-- The references of a disk in the order of `GEO_NEXT`, from track 1, sector 0. -/
def diskWalk (c : Config) (n : Nat) : List (Nat × Nat) := (walkedTracks n).flatMap (trackWalk c)

section
variable {c : Config} {g n : Nat}

theorem trackWalked_of_mem (hc : c.wf = true) (hg : (g, n) ∈ cbmSelectors) {t : Nat} (ht : t ∈ walkedTracks n) :
    TrackWalked c n t (trackWalk c t) := by
  obtain ⟨h1, h2, -⟩ := mem_walkedTracks.1 ht
  exact trackWalked hc n h1 (h2.trans (cbmSelectors_le hg))

theorem mem_diskWalk (hc : c.wf = true) (hg : (g, n) ∈ cbmSelectors) {t k : Nat} :
    (t, k) ∈ diskWalk c n ↔ 1 ≤ t ∧ t ≤ n ∧ t ≠ 18 ∧ k < cbmTrackSectors t := by
  rw [diskWalk, List.mem_flatMap]
  constructor
  · rintro ⟨u, hu, hk⟩
    obtain ⟨rfl, hlt⟩ := ((trackWalked_of_mem hc hg hu).mem _).1 hk
    obtain ⟨h1, h2, h18⟩ := mem_walkedTracks.1 hu
    exact ⟨h1, h2, h18, hlt⟩
  · rintro ⟨h1, h2, h18, hlt⟩
    have ht := mem_walkedTracks.2 ⟨h1, h2, h18⟩
    exact ⟨t, ht, ((trackWalked_of_mem hc hg ht).mem _).2 ⟨rfl, hlt⟩⟩

theorem head?_diskWalk (hc : c.wf = true) (hg : (g, n) ∈ cbmSelectors) : (diskWalk c n).head? = some (1, 0) := by
  obtain ⟨hhead, -, -⟩ := walkedTracks_order hg
  obtain ⟨rest, hrest⟩ := List.head?_eq_some_iff.1 hhead
  have hfirst := (trackWalked_of_mem hc hg (t := 1) (hrest ▸ List.mem_cons_self)).head
  rw [diskWalk, hrest, List.flatMap_cons, List.head?_append, hfirst, Option.some_or]

theorem nodup_diskWalk (hc : c.wf = true) (hg : (g, n) ∈ cbmSelectors) : (diskWalk c n).Nodup := by
  refine List.nodup_flatMap.2 ⟨fun t ht => (trackWalked_of_mem hc hg ht).nodup, ?_⟩
  have hdistinct : (walkedTracks n).Nodup := List.Nodup.filter _ (List.nodup_range' ..)
  refine List.Pairwise.imp_of_mem (fun {t u} ht hu hne => ?_) hdistinct
  intro p hpt hpu
  exact hne ((((trackWalked_of_mem hc hg ht).mem p).1 hpt).1.symm.trans
    (((trackWalked_of_mem hc hg hu).mem p).1 hpu).1)

/-- `GEO_NEXT` leads along the walk: on a track by the track's walk, and from the end of a track to the next one. -/
theorem isChain_diskWalk (hc : c.wf = true) (hg : (g, n) ∈ cbmSelectors) :
    (diskWalk c n).IsChain fun p q => nextBlockRef c n p.1 p.2 = q := by
  have hwalked : ∀ t ∈ walkedTracks n, TrackWalked c n t (trackWalk c t) := fun t ht => trackWalked_of_mem hc hg ht
  have hnonempty : [] ∉ (walkedTracks n).map (trackWalk c) := by
    intro hnil
    obtain ⟨t, ht, he⟩ := List.mem_map.1 hnil
    exact (hwalked t ht).ne_nil he
  rw [diskWalk, List.flatMap_def, List.isChain_flatten hnonempty]
  constructor
  · simp only [List.mem_map]
    rintro _ ⟨t, ht, rfl⟩
    exact (hwalked t ht).chain
  · obtain ⟨-, -, horder⟩ := walkedTracks_order hg
    rw [List.isChain_map, List.isChain_iff_getElem]
    intro j hj p hp q hq
    obtain ⟨hne, hnext⟩ := List.isChain_iff_getElem.1 horder j hj
    rw [(hwalked _ (List.getElem_mem _)).last p hp, if_neg hne]
    rw [(hwalked _ (List.getElem_mem _)).head, hnext] at hq
    obtain rfl := Option.some.inj hq
    split_ifs <;> rfl

/-- After the last reference of the walk comes the sentinel. -/
theorem nextBlockRef_getLast?_diskWalk (hc : c.wf = true) (hg : (g, n) ∈ cbmSelectors) {p : Nat × Nat}
    (hp : (diskWalk c n).getLast? = some p) : nextBlockRef c n p.1 p.2 = (0, 0) := by
  obtain ⟨-, hlast, -⟩ := walkedTracks_order hg
  obtain ⟨before, htracks⟩ := List.getLast?_eq_some_iff.1 hlast
  have hwalked := trackWalked_of_mem hc hg (t := n) (by rw [htracks]; simp)
  have hq := List.getLast?_eq_some_getLast hwalked.ne_nil
  rw [diskWalk, htracks, List.flatMap_append, List.flatMap_singleton, List.getLast?_append, hq, Option.some_or] at hp
  obtain rfl := Option.some.inj hp
  exact (hwalked.last _ hq).trans (if_pos rfl)

end

/-- Settles O60: the walks of the tracks, one after another. -/
theorem interleaveWalkVisitsEverySectorOnce : Obligations.InterleaveWalkVisitsEverySectorOnce := by
  intro s g n hc hg
  have hexec : ∀ p ∈ diskWalk s.cfg n, ∀ q, nextBlockRef s.cfg n p.1 p.2 = q →
      exec (.geoNext g p.1 p.2) s = .next (s.setRet (.ok (.pair q.1 q.2))) := by
    intro p hp q hq
    obtain ⟨h1, h2, -, h3⟩ := (mem_diskWalk hc hg).1 hp
    exact exec_geoNext hg h1 h2 h3 hq
  refine ⟨diskWalk s.cfg n, head?_diskWalk hc hg, nodup_diskWalk hc hg, fun t k => mem_diskWalk hc hg,
    fun j p q hp hq => ?_, fun p hp => ?_⟩
  · obtain ⟨hj, rfl⟩ := List.getElem?_eq_some_iff.1 hp
    obtain ⟨hj', rfl⟩ := List.getElem?_eq_some_iff.1 hq
    exact hexec _ (List.getElem_mem hj) _ (List.isChain_iff_getElem.1 (isChain_diskWalk hc hg) j hj')
  · exact hexec p (List.mem_of_getLast? hp) _ (nextBlockRef_getLast?_diskWalk hc hg hp)

end Sys2Proof.Machine
end

section
/-! SUPPORT. The two ends of a command (60_exceptions.md R300, R301, R310, R311). First what a command that ends with
`Ok` can do to the state, unit by unit, and the errors a command can raise; then an outcome that is one of the two,
through every shared operation of a command and through every command. The statements are read off `exec_endsAs`. -/

namespace Sys2Proof.Machine

/-! ### What a command can do to the state -/

/-- All that a command which ends with `Ok` can do before its result is returned: `CommandEffect s i u` says that `i`
may turn the state `s` into `u`. -/
inductive CommandEffect (s : State) : Instr → State → Prop
  /-- A command that only answers. -/
  | nothing {i : Instr} (hi : i ≠ .tick) : CommandEffect s i s
  /-- Track storage puts a Disk in one of the two slots (41_track_storage.md R140). -/
  | putDisk {i : Instr} (hi : unitOf i = .track) (slot : Sel) (D : Disk) : CommandEffect s i (s.putDisk slot D)
  /-- The drive updates itself and leaves the head at its cylinder. -/
  | drive {i : Instr} (hi : unitOf i = .drive) (f : Fdd) (hf : f.head.cyl = s.fdd.head.cyl) :
      CommandEffect s i (s.setFdd f)
  /-- A step pulse moves the head by at most one cylinder (42_drive_mechanics.md R180). -/
  | step (dir : Nat) (f : Fdd) (hup : f.head.cyl ≤ s.fdd.head.cyl + 1) (hdown : s.fdd.head.cyl ≤ f.head.cyl + 1) :
      CommandEffect s (.fddStep dir) (s.setFdd f)
  /-- An insertion takes the Disk from the stage (42_drive_mechanics.md R194). -/
  | insert (delay : Nat) (f : Fdd) (hf : f.head.cyl = s.fdd.head.cyl) :
      CommandEffect s (.fddIns delay) ((s.setFdd f).setStage none)
  /-- The hard disk updates itself. -/
  | hardDisk {i : Instr} (hi : unitOf i = .hardDisk) (h : Option HardDisk) : CommandEffect s i (s.setHd h)
  /-- A read request also writes to host memory (43_hard_disk.md R215). -/
  | read (offset length addr : Nat) (m : Memory) (h : Option HardDisk) :
      CommandEffect s (.hddRead offset length addr) ((s.setHostMem m).setHd h)
  /-- The scheduler's tick (42_drive_mechanics.md R200). -/
  | tick : CommandEffect s .tick s.ticked

namespace CommandEffect

variable {s u : State} {i : Instr}

theorem cfg (h : CommandEffect s i u) : u.cfg = s.cfg := by
  cases h with
  | putDisk _ slot D => exact s.putDisk_cfg slot D
  | _ => rfl

theorem inbox (h : CommandEffect s i u) : u.inbox = s.inbox := by
  cases h with
  | putDisk _ slot D => exact s.putDisk_inbox slot D
  | _ => rfl

theorem stage (h : CommandEffect s i u) (ht : unitOf i ≠ .track) (hd : unitOf i ≠ .drive) : u.stage = s.stage := by
  cases h with
  | putDisk hi => exact absurd hi ht
  | insert => exact absurd rfl hd
  | _ => rfl

theorem fdd (h : CommandEffect s i u) (ht : unitOf i ≠ .track) (hd : unitOf i ≠ .drive)
    (hs : unitOf i ≠ .scheduler) : u.fdd = s.fdd := by
  cases h with
  | putDisk hi => exact absurd hi ht
  | drive hi => exact absurd hi hd
  | step | insert => exact absurd rfl hd
  | tick => exact absurd rfl hs
  | nothing | hardDisk | read => rfl

theorem fdd_of_track (h : CommandEffect s i u) (ht : unitOf i = .track) :
    u.fdd = { s.fdd with disk := u.fdd.disk } := by
  cases h with
  | putDisk _ slot D => exact s.putDisk_fdd slot D
  | drive hi => cases ht.symm.trans hi
  | step | insert | tick => cases ht
  | nothing | hardDisk | read => rfl

theorem hd (h : CommandEffect s i u) (hh : unitOf i ≠ .hardDisk) (hs : unitOf i ≠ .scheduler) : u.hd = s.hd := by
  cases h with
  | putDisk _ slot D => exact s.putDisk_hd slot D
  | hardDisk hi => exact absurd hi hh
  | read => exact absurd rfl hh
  | tick => exact absurd rfl hs
  | nothing | drive | step | insert => rfl

theorem hostMem (h : CommandEffect s i u) (hr : ∀ o n a, i ≠ .hddRead o n a) : u.hostMem = s.hostMem := by
  cases h with
  | putDisk _ slot D => exact s.putDisk_hostMem slot D
  | read o n a => exact absurd rfl (hr o n a)
  | _ => rfl

theorem now_of_tick (h : CommandEffect s .tick u) : u.now = s.now + 1 := by
  cases h with
  | nothing hi => exact absurd rfl hi
  | putDisk hi | drive hi | hardDisk hi => cases hi
  | tick => rfl

theorem now (h : CommandEffect s i u) (hi : i ≠ .tick) : u.now = s.now := by
  cases h with
  | putDisk _ slot D => exact s.putDisk_now slot D
  | tick => exact absurd rfl hi
  | _ => rfl

theorem cyl (h : CommandEffect s i u) (hd : ∀ d, i ≠ .fddStep d) : u.fdd.head.cyl = s.fdd.head.cyl := by
  cases h with
  | putDisk _ slot D => rw [State.putDisk_head]
  | drive _ _ hf | insert _ _ hf => exact hf
  | step dir => exact absurd rfl (hd dir)
  | tick => exact s.fdd.fireChange_cyl _
  | nothing | hardDisk | read => rfl

theorem cyl_near (h : CommandEffect s i u) :
    u.fdd.head.cyl ≤ s.fdd.head.cyl + 1 ∧ s.fdd.head.cyl ≤ u.fdd.head.cyl + 1 := by
  by_cases hstep : ∃ d, i = .fddStep d
  · obtain ⟨d, rfl⟩ := hstep
    cases h with
    | step _ _ hup hdown => exact ⟨hup, hdown⟩
    | drive _ _ hf => simp [hf]
    | nothing => omega
    | putDisk hi | hardDisk hi => cases hi
  · rw [h.cyl fun d hd => hstep ⟨d, hd⟩]
    omega

end CommandEffect

/-! ### The errors a command can raise -/

/-- The error codes that are a command's to raise: the format class of 60_exceptions.md R302 is the codecs' own, and
`E_UNKNOWN_CMD` the decoder's (30_encoding.md R104). -/
def ErrCode.ofCommand (e : ErrCode) : Bool := !e.isFormat && decide (e ≠ .unknownCmd)

theorem ErrCode.code_of_ofCommand {e : ErrCode} (h : e.ofCommand = true) :
    e.code ∉ [0, 11, 12, 13, 14] ∧ e.code ≤ 16 := by
  cases e with
  | fileType | corrupted | unsupportedFeature | unknownCmd => cases h
  | _ => decide

theorem verifyError_ofCommand {c : Config} {h : HardDisk} {o n a : Nat} {e : ErrCode}
    (he : verifyError c h o n a = some e) : e.ofCommand = true := by
  unfold verifyError at he
  split_ifs at he <;> cases he <;> rfl

theorem GeoDesc.checkError_ofCommand {c : Config} {G : GeoDesc} {e : ErrCode} (he : G.checkError c = some e) :
    e.ofCommand = true := by
  cases G with
  | hd g =>
    simp only [GeoDesc.checkError] at he
    split_ifs at he <;> cases he <;> rfl
  | cbm n =>
    simp only [GeoDesc.checkError] at he
    split_ifs at he <;> cases he <;> rfl

/-! ### The two ends of a command -/

/-- The outcome of the command `i`, where it is a next state: `Err` of a command's code on the state `s` as it was, or
`Ok` after an effect of the command. -/
def EndsAs (s : State) (i : Instr) (o : Outcome) : Prop :=
  ∀ t, o = .next t →
    (∃ e : ErrCode, e.ofCommand = true ∧ t = s.setRet (.err e)) ∨
      ∃ u v, CommandEffect s i u ∧ t = u.setRet (.ok v)

section
variable {s : State} {i : Instr}

theorem EndsAs.fault {f : Fault} : EndsAs s i (.fault f) := fun _ h => by cases h

theorem EndsAs.raise {e : ErrCode} (he : e.ofCommand = true := by rfl) : EndsAs s i (s.raise e) :=
  fun _ h => .inl ⟨e, he, raise_inv h⟩

theorem EndsAs.finish {u : State} {v : Value} (hu : CommandEffect s i u) : EndsAs s i (u.finish v) :=
  fun _ h => .inr ⟨u, v, hu, finish_inv h⟩

theorem EndsAs.answer {v : Value} (hi : i ≠ .tick := by nofun) : EndsAs s i (s.finish v) := .finish (.nothing hi)

theorem EndsAs.ite {p : Prop} [Decidable p] {o q : Outcome} (ho : EndsAs s i o) (hq : EndsAs s i q) :
    EndsAs s i (if p then o else q) := by
  split
  · exact ho
  · exact hq

theorem EndsAs.withDisk {sel : Nat} {k : Sel → Disk → Outcome} (h : ∀ slot D, EndsAs s i (k slot D)) :
    EndsAs s i (withDisk s sel k) := by
  intro t ht
  rcases withDisk_inv ht with ht | ht | ⟨slot, D, -, -, hk⟩
  · exact .inl ⟨_, rfl, ht⟩
  · exact .inl ⟨_, rfl, ht⟩
  · exact h slot D t hk

theorem EndsAs.withTrack {sel track : Nat} {k : Sel → Disk → Outcome} (h : ∀ slot D, EndsAs s i (k slot D)) :
    EndsAs s i (withTrack s sel track k) :=
  .withDisk fun slot D => .ite .raise (h slot D)

theorem EndsAs.withCurDisk {k : Disk → Outcome} (h : ∀ D, EndsAs s i (k D)) : EndsAs s i (withCurDisk s k) := by
  cases hd : s.fdd.disk with
  | none => rw [withCurDisk_empty hd]; exact .raise
  | some D => rw [withCurDisk_eq hd]; exact h D

theorem EndsAs.withHead {k : Disk → Outcome} (h : ∀ D, EndsAs s i (k D)) : EndsAs s i (withHead s k) :=
  .withCurDisk fun D => .ite (h D) .fault

theorem EndsAs.withHd {k : HardDisk → Outcome} (h : ∀ d, EndsAs s i (k d)) : EndsAs s i (withHd s k) := by
  intro t ht
  rcases withHd_inv ht with ht | ⟨d, -, hk⟩
  · exact .inl ⟨_, rfl, ht⟩
  · exact h d t hk

theorem EndsAs.withGeo {g : Nat} {k : GeoDesc → Outcome} (h : ∀ G, EndsAs s i (k G)) : EndsAs s i (withGeo s g k) :=
  .ite (.withHd fun _ => h _) (.ite (h _) (.ite (h _) (.ite (h _) .raise)))

end

/-! ### Track storage -/

theorem execTrkInit_endsAs (d n wp : Nat) (s : State) : EndsAs s (.trkInit d n wp) (execTrkInit d n wp s) := by
  unfold execTrkInit
  split
  · exact .raise
  · split
    · exact .raise
    · exact .finish (.putDisk rfl .stage _)

theorem execTrkWrbit_endsAs (sel track o v : Nat) (s : State) :
    EndsAs s (.trkWrbit sel track o v) (execTrkWrbit sel track o v s) := by
  unfold execTrkWrbit
  split
  · exact .raise
  · exact .withTrack fun slot _ => .ite .raise (.finish (.putDisk rfl slot _))

theorem execTrkWr8_endsAs (sel track j v : Nat) (s : State) :
    EndsAs s (.trkWr8 sel track j v) (execTrkWr8 sel track j v s) := by
  unfold execTrkWr8
  split
  · exact .raise
  · exact .withTrack fun slot _ => .ite .raise (.finish (.putDisk rfl slot _))

theorem execTrkSetflags_endsAs (sel m wp : Nat) (s : State) :
    EndsAs s (.trkSetflags sel m wp) (execTrkSetflags sel m wp s) := by
  unfold execTrkSetflags
  split
  · exact .withDisk fun slot _ => .finish (.putDisk rfl slot _)
  · exact .raise

/-! ### The floppy drive -/

theorem execFddMotor_endsAs (on : Nat) (s : State) : EndsAs s (.fddMotor on) (execFddMotor on s) := by
  unfold execFddMotor
  split
  · exact .raise
  · exact .ite .answer (.finish (.drive rfl _ rfl))

theorem execFddSpeed_endsAs (s : State) : EndsAs s .fddSpeed (execFddSpeed s) := by
  unfold execFddSpeed
  split
  · exact .answer
  · exact .fault
  · exact .answer
  · exact .answer

theorem Fdd.stampStep_head (f : Fdd) (d : Dir) (t : Nat) : (f.stampStep d t).head = f.head := by cases d <;> rfl

theorem stepCyl_near (maxCyl : Nat) (d : Dir) (cyl : Nat) :
    stepCyl maxCyl d cyl ≤ cyl + 1 ∧ cyl ≤ stepCyl maxCyl d cyl + 1 := by
  cases d <;> simp only [stepCyl] <;> split <;> omega

/-- Only the pulse that is accepted inside the range moves the head, and then to `stepCyl`. -/
theorem execFddStep_endsAs (dir : Nat) (s : State) : EndsAs s (.fddStep dir) (execFddStep dir s) := by
  unfold execFddStep
  split
  · exact .raise
  · next d _ =>
    obtain ⟨hup, hdown⟩ := stepCyl_near s.cfg.maxCyl d s.fdd.head.cyl
    exact .ite
      (.ite (.finish (.drive rfl _ (congrArg DriveHead.cyl (Fdd.stampStep_head ..))))
        (.finish (.step dir _ hup hdown)))
      (.finish (.drive rfl _ rfl))

theorem execFddWr8r_endsAs (v : Nat) (s : State) : EndsAs s (.fddWr8r v) (execFddWr8r v s) := by
  unfold execFddWr8r
  split
  · exact .raise
  · exact .withHead fun _ => .finish (.drive rfl _ rfl)

theorem execFddIns_endsAs (delay : Nat) (s : State) : EndsAs s (.fddIns delay) (execFddIns delay s) := by
  unfold execFddIns
  split
  · exact .raise
  · exact .ite (.finish (.insert delay _ rfl)) .raise

theorem execFddSync_endsAs (s : State) : EndsAs s .fddSync (execFddSync s) := by
  refine .withHead fun D => ?_
  split
  · exact .finish (.drive rfl _ rfl)
  · exact .answer

/-! ### The hard disk -/

theorem execHddInit_endsAs (c h n b : Nat) (image : List Byte) (s : State) :
    EndsAs s (.hddInit c h n b image) (execHddInit c h n b image s) :=
  .ite .raise (.ite .raise (.ite (.ite .raise (.finish (.hardDisk rfl _))) .raise))

theorem execHddRead_endsAs (o n a : Nat) (s : State) : EndsAs s (.hddRead o n a) (execHddRead o n a s) := by
  refine .withHd fun h => ?_
  split
  · next he => exact .raise (verifyError_ofCommand he)
  · split
    · exact .fault
    · exact .finish (.read o n a _ _)

theorem execHddWrite_endsAs (o n a : Nat) (s : State) : EndsAs s (.hddWrite o n a) (execHddWrite o n a s) := by
  refine .withHd fun h => ?_
  split
  · next he => exact .raise (verifyError_ofCommand he)
  · refine .ite ?_ (.finish (.hardDisk rfl _))
    split
    · exact .fault
    · exact .finish (.hardDisk rfl _)

theorem execHddRdblk_endsAs (block : Nat) (s : State) : EndsAs s (.hddRdblk block) (execHddRdblk block s) := by
  refine .withHd fun h => .ite .raise ?_
  split
  · exact .fault
  · exact .answer

theorem execHddWrblk_endsAs (block : Nat) (data : List Byte) (s : State) :
    EndsAs s (.hddWrblk block data) (execHddWrblk block data s) := by
  refine .ite .raise (.withHd fun h => .ite .raise (.ite .raise (.ite .answer ?_)))
  split
  · exact .fault
  · exact .finish (.hardDisk rfl _)

theorem execHddChgeo_endsAs (c h n b : Nat) (s : State) : EndsAs s (.hddChgeo c h n b) (execHddChgeo c h n b s) :=
  .withHd fun _ => .ite .raise (.ite .raise (.ite .raise (.ite (.finish (.hardDisk rfl _)) .raise)))

theorem execHddFmt_endsAs (fsType : Nat) (name : List Byte) (s : State) :
    EndsAs s (.hddFmt fsType name) (execHddFmt fsType name s) := by
  refine .withHd fun h => .ite .answer ?_
  split
  · exact .raise
  · exact .ite .raise (.finish (.hardDisk rfl _))

theorem execHddSetflags_endsAs (m wp : Nat) (s : State) :
    EndsAs s (.hddSetflags m wp) (execHddSetflags m wp s) := by
  unfold execHddSetflags
  split
  · exact .withHd fun _ => .finish (.hardDisk rfl _)
  · exact .raise

theorem execHddDirty_endsAs (block : Nat) (s : State) : EndsAs s (.hddDirty block) (execHddDirty block s) := by
  refine .withHd fun h => .ite .raise ?_
  split
  · exact .fault
  · exact .answer

theorem execHddClrdirty_endsAs (block : Nat) (s : State) :
    EndsAs s (.hddClrdirty block) (execHddClrdirty block s) := by
  refine .withHd fun h => .ite (.finish (.hardDisk rfl _)) (.ite .raise ?_)
  split
  · exact .fault
  · exact .finish (.hardDisk rfl _)

theorem execHddSetpt_endsAs (plist : List Byte) (s : State) :
    EndsAs s (.hddSetpt plist) (execHddSetpt plist s) := by
  refine .withHd fun h => ?_
  split
  · exact .raise
  · exact .ite (.finish (.hardDisk rfl _)) .raise

/-! ### Geometry -/

theorem execGeoNtrk_endsAs (g : Nat) (s : State) : EndsAs s (.geoNtrk g) (execGeoNtrk g s) :=
  .withGeo fun _ => .answer

theorem execGeoNsec_endsAs (g track : Nat) (s : State) : EndsAs s (.geoNsec g track) (execGeoNsec g track s) :=
  .withGeo fun _ => .ite .answer .raise

theorem execGeoTs2b_endsAs (g track sector : Nat) (s : State) :
    EndsAs s (.geoTs2b g track sector) (execGeoTs2b g track sector s) := .withGeo fun _ => .answer

theorem execGeoChs2b_endsAs (g cyl head sector : Nat) (s : State) :
    EndsAs s (.geoChs2b g cyl head sector) (execGeoChs2b g cyl head sector s) := .withGeo fun _ => .answer

theorem execGeoNblk_endsAs (g : Nat) (s : State) : EndsAs s (.geoNblk g) (execGeoNblk g s) :=
  .withGeo fun _ => .answer

theorem execGeoB2ts_endsAs (g block : Nat) (s : State) : EndsAs s (.geoB2ts g block) (execGeoB2ts g block s) := by
  refine .withGeo fun G => ?_
  split
  · exact .answer
  · exact .raise

theorem execGeoB2chs_endsAs (g block : Nat) (s : State) :
    EndsAs s (.geoB2chs g block) (execGeoB2chs g block s) := by
  refine .withGeo fun G => ?_
  split
  · exact .answer
  · exact .raise

theorem execGeoZone_endsAs (track : Nat) (s : State) : EndsAs s (.geoZone track) (execGeoZone track s) := by
  unfold execGeoZone
  split
  · exact .answer
  · exact .raise

theorem execGeoCheck_endsAs (g : Nat) (s : State) : EndsAs s (.geoCheck g) (execGeoCheck g s) := by
  refine .withGeo fun G => ?_
  split
  · exact .answer
  · next he => exact .raise (GeoDesc.checkError_ofCommand he)

/-! ### Every command -/

/-- How every command ends: with an error that leaves the state as it was, or with an effect of its own unit. -/
theorem exec_endsAs (s : State) : ∀ i, EndsAs s i (exec i s)
  | .mfmEnc _ | .mfmEncoe _ => .answer
  | .mfmDec _ | .mfmDecoe _ | .mfmClk _ _ => .ite .raise .answer
  | .trkInit d n wp => execTrkInit_endsAs d n wp s
  | .trkClear _ => .withDisk fun slot _ => .finish (.putDisk rfl slot _)
  | .trkRdbit _ _ _ | .trkRd8 _ _ _ | .trkSect _ _ _ => .withTrack fun _ _ => .ite .raise .answer
  | .trkWrbit sel track o v => execTrkWrbit_endsAs sel track o v s
  | .trkWr8 sel track j v => execTrkWr8_endsAs sel track j v s
  | .trkView _ _ | .trkCsumt _ _ => .withTrack fun _ _ => .answer
  | .trkCsum _ | .trkStat _ => .withDisk fun _ _ => .answer
  | .trkSetflags sel m wp => execTrkSetflags_endsAs sel m wp s
  | .fddMotor on => execFddMotor_endsAs on s
  | .fddSpeed => execFddSpeed_endsAs s
  | .fddStep dir => execFddStep_endsAs dir s
  | .fddRdyup | .fddRdydn | .fddPolls | .fddStat | .fddPos => .answer
  | .fddSide _ => .ite .raise (.finish (.drive rfl _ rfl))
  | .fddRot => .withCurDisk fun _ => .finish (.drive rfl _ rfl)
  | .fddRd8r => .withHead fun _ => .finish (.drive rfl _ rfl)
  | .fddWr8r v => execFddWr8r_endsAs v s
  | .fddIns delay => execFddIns_endsAs delay s
  | .fddEj _ => .finish (.drive rfl _ rfl)
  | .fddSync => execFddSync_endsAs s
  | .hddInit c h n b image => execHddInit_endsAs c h n b image s
  | .hddDisc => .withHd fun _ => .finish (.hardDisk rfl _)
  | .hddRead o n a => execHddRead_endsAs o n a s
  | .hddWrite o n a => execHddWrite_endsAs o n a s
  | .hddRdblk block => execHddRdblk_endsAs block s
  | .hddWrblk block data => execHddWrblk_endsAs block data s
  | .hddChgeo c h n b => execHddChgeo_endsAs c h n b s
  | .hddFmt fsType name => execHddFmt_endsAs fsType name s
  | .hddStat => .answer
  | .hddStat2 | .hddGeo => .withHd fun _ => .answer
  | .hddSetflags m wp => execHddSetflags_endsAs m wp s
  | .hddDirty block => execHddDirty_endsAs block s
  | .hddClrdirty block => execHddClrdirty_endsAs block s
  | .hddSetpt plist => execHddSetpt_endsAs plist s
  | .geoNtrk g => execGeoNtrk_endsAs g s
  | .geoNsec g track => execGeoNsec_endsAs g track s
  | .geoTs2b g track sector => execGeoTs2b_endsAs g track sector s
  | .geoChs2b g cyl head sector => execGeoChs2b_endsAs g cyl head sector s
  | .geoNblk g => execGeoNblk_endsAs g s
  | .geoB2ts g block => execGeoB2ts_endsAs g block s
  | .geoB2chs g block => execGeoB2chs_endsAs g block s
  | .geoZone track => execGeoZone_endsAs track s
  | .geoNext _ _ _ => .ite .raise (.withGeo fun _ => .ite .answer .raise)
  | .geoCheck g => execGeoCheck_endsAs g s
  | .tick => fun _ h => .inr ⟨s.ticked, .none, .tick, finish_inv h⟩

section
variable {i : Instr} {s t : State}

/-- A command that returns an error has one of the commands' codes and leaves the state as it was. -/
theorem exec_err {e : ErrCode} (h : exec i s = .next t) (hr : t.ret = some (.err e)) :
    e.ofCommand = true ∧ t = s.setRet (.err e) := by
  rcases exec_endsAs s i t h with ⟨e', he, rfl⟩ | ⟨u, v, -, rfl⟩
  · cases hr
    exact ⟨he, rfl⟩
  · cases hr

/-- Whatever a command returns, the rest of the next state is an effect of the command. -/
theorem exec_effect (h : exec i s = .next t) : ∃ u r, CommandEffect s i u ∧ t = u.setRet r := by
  by_cases hi : i = .tick
  · subst hi
    exact ⟨s.ticked, _, .tick, finish_inv h⟩
  · rcases exec_endsAs s i t h with ⟨e, -, ht⟩ | ⟨u, v, hu, ht⟩
    · exact ⟨s, _, .nothing hi, ht⟩
    · exact ⟨u, _, hu, ht⟩

end

/-! ### The numbers of the errors -/

/-- The table of 60_exceptions.md R301 without its row for `Ok`. -/
def errorTable : List (Nat × ErrCode) :=
  [(1, .invalidLayout), (2, .geometryUnsupported), (3, .blockSize), (4, .badLength), (5, .badOffset), (6, .range),
    (7, .badMem), (8, .noDevice), (9, .geometryMismatch), (10, .partition), (11, .fileType), (12, .corrupted),
    (13, .unsupportedFeature), (14, .unknownCmd), (15, .incompatible), (16, .badOperand)]

theorem ErrCode.mem_errorTable (e : ErrCode) : (e.code, e) ∈ errorTable := by cases e <;> decide

/-- No number stands twice in the table. -/
theorem ErrCode.code_injective : Function.Injective ErrCode.code := by
  intro e f h
  have hnodup : (errorTable.map Prod.fst).Nodup := by decide
  exact congrArg Prod.snd (List.inj_on_of_nodup_map hnodup e.mem_errorTable f.mem_errorTable h)

/-! ### The statements -/

/-- Settles O9, by `exec_err`. -/
theorem errorChangesNoState : Obligations.ErrorChangesNoState := fun _ _ _ _ h hr => (exec_err h hr).2

/-- Settles O11: the first part by `exec_err`, the numbers by the table. -/
theorem commandsReturnNoFormatCode : Obligations.CommandsReturnNoFormatCode :=
  ⟨fun _ _ _ _ h hr => ErrCode.code_of_ofCommand (exec_err h hr).1, fun _ => rfl, fun _ => rfl,
    ErrCode.mem_errorTable, fun _ _ h => ErrCode.code_injective h⟩

/-- Settles O12: each clause is a fact about the command's effect, which the returned value leaves as it is. -/
theorem commandsStayInTheirUnit : Obligations.CommandsStayInTheirUnit := by
  intro i s t h
  obtain ⟨u, r, hu, rfl⟩ := exec_effect h
  refine ⟨hu.cfg, hu.inbox, hu.stage, hu.fdd, hu.fdd_of_track, hu.hd, hu.hostMem, ?_, hu.now, hu.cyl, hu.cyl_near⟩
  rintro rfl
  exact hu.now_of_tick

end Sys2Proof.Machine
end
